-- ==== Sys2Proof/Word.lean ====
section
/-! DEFINITION. The plain value types of the engine (spec/00_scope.md rules R8, R11). -/

namespace Sys2Proof

/-- A host register or a command word: 32 bits (`10_state.md` R30, `30_encoding.md` R90). -/
abbrev Word := BitVec 32

/-- The transfer unit of the bus and of both buffers (R8 `BYTE`). -/
abbrev Byte := BitVec 8

/-- A DeviceAddress, "integer in [0,127]" (R8 `ADDR_W`). -/
abbrev DevAddr := BitVec 7

/-- The `REG` field of a command word; the 8-bit variants use its low byte (R8 `REG_W`, R91). -/
abbrev RegAddr := BitVec 16

/-- A payload length or a payload index (R8 `LEN_W`). -/
abbrev Len := BitVec 16

end Sys2Proof
end

