-- ==== Sys2Proof/Syntax.lean ====
section
/-! DEFINITION. The instructions, one constructor per row of spec/opcode_table.json, and the two internal
enumerations (`30_encoding.md` R107, R108). An instruction is a command, a primitive or a micro-operation
(`00_scope.md` R18). -/

namespace Sys2Proof

/-- `PRIM`, the primitives (R108), as the sequencer position names them. -/
inductive Prim where
  | start | stop | wbit | rbit | wbyte | rbyte | wack | mack | mnack | turn
deriving DecidableEq, Repr, Inhabited

/-- The number of a primitive (R108). -/
def Prim.code : Prim → BitVec 4
  | .start => 0 | .stop => 1 | .wbit => 2 | .rbit => 3 | .wbyte => 4
  | .rbyte => 5 | .wack => 6 | .mack => 7 | .mnack => 8 | .turn => 9

/-- `UOP`, the pin micro-operations (R107). -/
inductive Uop where
  | sdaLo | sdaHi | sclLo | sclHi | dirOut | dirIn | wait | sample
deriving DecidableEq, Repr

/-- The number of a micro-operation (R107). -/
def Uop.code : Uop → BitVec 3
  | .sdaLo => 0 | .sdaHi => 1 | .sclLo => 2 | .sclHi => 3
  | .dirOut => 4 | .dirIn => 5 | .wait => 6 | .sample => 7

/-- The instructions: 5 commands, 4 rows of reserved command words, 10 primitives, 8 micro-operations.
Commands keep the whole `REG` field, so that `CMD` reads back as written (`10_state.md` R34). -/
inductive Instr where
  -- level 2: commands (42_transactions.md R171 to R175)
  | probe (dev : DevAddr) (reg : RegAddr)
  | wr8 (dev : DevAddr) (reg : RegAddr)
  | rd8 (dev : DevAddr) (reg : RegAddr)
  | wr16 (dev : DevAddr) (reg : RegAddr)
  | rd16 (dev : DevAddr) (reg : RegAddr)
  -- reserved command words (30_encoding.md R104)
  | reservedOp3 (dev : DevAddr) (reg : RegAddr)
  | reservedOp4 (dev : DevAddr) (reg : RegAddr)
  | reservedOp7 (dev : DevAddr) (reg : RegAddr)
  | reservedRsv (op : BitVec 3) (dev : DevAddr) (reg : RegAddr) (rsv : BitVec 6)
  -- level 1: primitives (41_bus_primitives.md R141 to R150)
  | start
  | stop
  | wbit (v : Bool)
  | rbit
  | wbyte (b : Byte)
  | rbyte
  | wack
  | mack
  | mnack
  | turn
  -- level 0: micro-operations (40_pin_microops.md R122 to R129)
  | sdaLo
  | sdaHi
  | sclLo
  | sclHi
  | dirOut
  | dirIn
  | wait
  | sample
deriving DecidableEq, Repr

/-- Where an encoded instruction stands, and its bits: a command word in the register `CMD`, a primitive's
number with its operand beside it, or a micro-operation's number (`30_encoding.md` R90). Log 1. -/
inductive Encoded where
  | cmd (w : Word)
  | prim (code : BitVec 4) (operand : Byte)
  | uop (code : BitVec 3)
deriving DecidableEq, Repr

/-- The micro-operation as an instruction. -/
def Uop.toInstr : Uop → Instr
  | .sdaLo => .sdaLo | .sdaHi => .sdaHi | .sclLo => .sclLo | .sclHi => .sclHi
  | .dirOut => .dirOut | .dirIn => .dirIn | .wait => .wait | .sample => .sample

/-- A command, or a reserved command word: what a host can write to `CMD` (`00_scope.md` R9, R108). -/
def Instr.isCommandWord : Instr → Bool
  | .probe .. | .wr8 .. | .rd8 .. | .wr16 .. | .rd16 .. => true
  | .reservedOp3 .. | .reservedOp4 .. | .reservedOp7 .. | .reservedRsv .. => true
  | .start | .stop | .wbit _ | .rbit | .wbyte _ | .rbyte | .wack | .mack | .mnack | .turn => false
  | .sdaLo | .sdaHi | .sclLo | .sclHi | .dirOut | .dirIn | .wait | .sample => false

/-- One of the five commands (R103). -/
def Instr.isCommand : Instr → Bool
  | .probe .. | .wr8 .. | .rd8 .. | .wr16 .. | .rd16 .. => true
  | .reservedOp3 .. | .reservedOp4 .. | .reservedOp7 .. | .reservedRsv .. => false
  | .start | .stop | .wbit _ | .rbit | .wbyte _ | .rbyte | .wack | .mack | .mnack | .turn => false
  | .sdaLo | .sdaHi | .sclLo | .sclHi | .dirOut | .dirIn | .wait | .sample => false

/-- One of the two read commands. -/
def Instr.isRead : Instr → Bool
  | .rd8 .. | .rd16 .. => true
  | .probe .. | .wr8 .. | .wr16 .. => false
  | .reservedOp3 .. | .reservedOp4 .. | .reservedOp7 .. | .reservedRsv .. => false
  | .start | .stop | .wbit _ | .rbit | .wbyte _ | .rbyte | .wack | .mack | .mnack | .turn => false
  | .sdaLo | .sdaHi | .sclLo | .sclHi | .dirOut | .dirIn | .wait | .sample => false

end Sys2Proof
end

