-- ==== Sys2Proof/Config.lean ====
section
/-! DEFINITION. What the spec leaves OPEN, and the free values. Every `opaque` constant has no body that a
proof can see, so a theorem holds whatever its value is. -/

namespace Sys2Proof

/-- `NPINS - 2`, OPEN (`00_scope.md` R8, decision D2): any number from 0 to 254. Log 5. -/
opaque Config.npinsOverTwo : Fin 255

/-- `NPINS`, the number of lines of the pin bank, 2 <= NPINS <= 256 (R8). Log 5. -/
def Config.npins : Nat := Config.npinsOverTwo.val + 2

/-- `TICK`, the duration of one count of the delay unit, OPEN; no rule reads it (R8, R16). Log 25. -/
opaque Config.tick : Nat

/-- `DISP_ADDR`, the display's 7-bit address, OPEN (R8); used by pseudo-instructions only. Log 25. -/
opaque Config.dispAddr : DevAddr

/-- `SENSOR_CFG_WORD`, two bytes, OPEN (R8); used by a pseudo-instruction only. Log 25. -/
opaque Config.sensorCfgWord : Byte × Byte

/-- The environment's pull on the data line at the `n`-th `SAMPLE` (false = pulled low), when `State.answers`
lists no answer: "the step takes the bit as a free input" (`40_pin_microops.md` R128). Log 4. -/
opaque Config.envSda : Nat → Bool

/-- The byte a host reads from `RXMEM` at or above `RXCOUNT.COUNT`: an unspecified value
(`20_memory.md` R64, U9). Log 11. -/
opaque Config.freeRxByte : Nat → Byte

/-! The values of the datapath registers and of `PRIM`, `USTEP` outside a command: "hold no defined value"
(`10_state.md` R25, R26, U10). Log 7. -/

opaque Config.freeShreg : Nat → Byte
opaque Config.freeBitcnt : Nat → BitVec 4
opaque Config.freeBytecnt : Nat → Len
opaque Config.freeRetrycnt : Nat → BitVec 8
opaque Config.freeAckbit : Nat → Bool
opaque Config.freeDlycnt : Nat → BitVec 16
opaque Config.freePrim : Nat → Prim
opaque Config.freeUstep : Nat → BitVec 4

end Sys2Proof
end

