-- ==== Sys2Proof/WellFormed.lean ====
section
/-! DEFINITION. Well-formed instructions: the one check the types do not make. -/

namespace Sys2Proof

/-- The row RESERVED_RSV is the words with some of `CMD[31:26]` set (`30_encoding.md` R104); every other field
of every instruction has exactly its encoding's width by its type. -/
def Instr.wf : Instr → Bool
  | .reservedRsv _ _ _ rsv => rsv != 0
  | .probe .. | .wr8 .. | .rd8 .. | .wr16 .. | .rd16 .. => true
  | .reservedOp3 .. | .reservedOp4 .. | .reservedOp7 .. => true
  | .start | .stop | .wbit _ | .rbit | .wbyte _ | .rbyte | .wack | .mack | .mnack | .turn => true
  | .sdaLo | .sdaHi | .sclLo | .sclHi | .dirOut | .dirIn | .wait | .sample => true

end Sys2Proof
end

