-- ==== Sys2Proof/Decode.lean ====
section
/-! DEFINITION. Decoding and encoding (`30_encoding.md` R91, R92, R103, R104, R107, R108). -/

namespace Sys2Proof

/-- Why an encoding is no instruction: `PRIM` codes 10 to 15 are "never generated by the sequencer" (R108). -/
inductive DecodeError where
  | unusedPrim (code : BitVec 4)
deriving DecidableEq, Repr

/-! Fields of a command word (R91). -/

/-- `CMD[2:0] OP`. -/
def cmdOp (w : Word) : BitVec 3 := w.extractLsb' 0 3
/-- `CMD[9:3] DEV`. -/
def cmdDev (w : Word) : DevAddr := w.extractLsb' 3 7
/-- `CMD[25:10] REG`. -/
def cmdReg (w : Word) : RegAddr := w.extractLsb' 10 16
/-- `CMD[31:26] RSV`. -/
def cmdRsv (w : Word) : BitVec 6 := w.extractLsb' 26 6

/-- The command word of four fields, most significant first (R91). -/
def cmdWord (rsv : BitVec 6) (reg : RegAddr) (dev : DevAddr) (op : BitVec 3) : Word :=
  rsv ++ reg ++ dev ++ op

/-- A reserved command encoding (R104). -/
def cmdReserved (w : Word) : Bool :=
  cmdRsv w != 0 || cmdOp w == 3 || cmdOp w == 4 || cmdOp w == 7

/-- The instruction of a command word: `RSV` is looked at before `OP` (R103, R104). -/
def decodeCmd (w : Word) : Instr :=
  if cmdRsv w ≠ 0 then .reservedRsv (cmdOp w) (cmdDev w) (cmdReg w) (cmdRsv w)
  else if cmdOp w = 0 then .probe (cmdDev w) (cmdReg w)
  else if cmdOp w = 1 then .wr8 (cmdDev w) (cmdReg w)
  else if cmdOp w = 2 then .rd8 (cmdDev w) (cmdReg w)
  else if cmdOp w = 3 then .reservedOp3 (cmdDev w) (cmdReg w)
  else if cmdOp w = 4 then .reservedOp4 (cmdDev w) (cmdReg w)
  else if cmdOp w = 5 then .wr16 (cmdDev w) (cmdReg w)
  else if cmdOp w = 6 then .rd16 (cmdDev w) (cmdReg w)
  else .reservedOp7 (cmdDev w) (cmdReg w)

/-- The primitive of a number (R108); `WBIT` takes bit 0 of the operand, `WBYTE` all eight, the others none. -/
def decodePrim (code : BitVec 4) (operand : Byte) : Except DecodeError Instr :=
  match code.toNat with
  | 0 => .ok .start
  | 1 => .ok .stop
  | 2 => .ok (.wbit (operand.getLsbD 0))
  | 3 => .ok .rbit
  | 4 => .ok (.wbyte operand)
  | 5 => .ok .rbyte
  | 6 => .ok .wack
  | 7 => .ok .mack
  | 8 => .ok .mnack
  | 9 => .ok .turn
  | _ => .error (.unusedPrim code)

/-- The micro-operation of a number: all eight codes are used (R107). -/
def decodeUop (code : BitVec 3) : Uop :=
  match code.toNat with
  | 0 => .sdaLo
  | 1 => .sdaHi
  | 2 => .sclLo
  | 3 => .sclHi
  | 4 => .dirOut
  | 5 => .dirIn
  | 6 => .wait
  | _ => .sample

/-- Decoding, total. -/
def decode : Encoded → Except DecodeError Instr
  | .cmd w => .ok (decodeCmd w)
  | .prim code operand => decodePrim code operand
  | .uop code => .ok (decodeUop code).toInstr

/-- Encoding, from the same tables. -/
def encode : Instr → Encoded
  | .probe dev reg => .cmd (cmdWord 0 reg dev 0)
  | .wr8 dev reg => .cmd (cmdWord 0 reg dev 1)
  | .rd8 dev reg => .cmd (cmdWord 0 reg dev 2)
  | .reservedOp3 dev reg => .cmd (cmdWord 0 reg dev 3)
  | .reservedOp4 dev reg => .cmd (cmdWord 0 reg dev 4)
  | .wr16 dev reg => .cmd (cmdWord 0 reg dev 5)
  | .rd16 dev reg => .cmd (cmdWord 0 reg dev 6)
  | .reservedOp7 dev reg => .cmd (cmdWord 0 reg dev 7)
  | .reservedRsv op dev reg rsv => .cmd (cmdWord rsv reg dev op)
  | .start => .prim 0 0
  | .stop => .prim 1 0
  | .wbit v => .prim 2 (if v then 1 else 0)
  | .rbit => .prim 3 0
  | .wbyte b => .prim 4 b
  | .rbyte => .prim 5 0
  | .wack => .prim 6 0
  | .mack => .prim 7 0
  | .mnack => .prim 8 0
  | .turn => .prim 9 0
  | .sdaLo => .uop 0
  | .sdaHi => .uop 1
  | .sclLo => .uop 2
  | .sclHi => .uop 3
  | .dirOut => .uop 4
  | .dirIn => .uop 5
  | .wait => .uop 6
  | .sample => .uop 7

/-- The encoded instruction whose bits are `w`, numbered as spec/opcode_table.json numbers them, the row having
`nbits` bits. 32 bits: a command word. 3 bits: a micro-operation. 4 bits, or whole bytes of which the first is
the number and the second the operand: a primitive. A byte alone cannot tell `PRIM` from `UOP`, two enumerations
that are never in one place; it is read as a primitive. Anything else is read as an unused primitive number,
which is refused by name. Log 1. -/
def tableEncoded (nbits w : Nat) : Encoded :=
  if nbits = 32 then .cmd (BitVec.ofNat 32 w)
  else if nbits = 3 then .uop (BitVec.ofNat 3 w)
  else if (nbits = 4 || nbits = 8) && decide (w < 16) then .prim (BitVec.ofNat 4 w) 0
  else if nbits = 16 && decide (w % 256 < 16) then .prim (BitVec.ofNat 4 w) (BitVec.ofNat 8 (w / 256))
  else .prim 15 0

/-- The instruction the decoder reads from a row of the opcode table. -/
def decodeTableWord (nbits w : Nat) : Option Instr :=
  (decode (tableEncoded nbits w)).toOption

end Sys2Proof
end

