-- ==== Sys2Proof/Machine/State.lean ====
section
/-! DEFINITION. The state of the engine (`10_state.md` R20), the agents around it as plain data, the reasons a
step can stop, and the state after reset (R42). -/

namespace Sys2Proof.Machine

/-- `SDA_DIR`: `OUT` ("driven mode") or `IN` ("input/float", here `inp`) (R21). -/
inductive Dir where
  | out | inp
deriving DecidableEq, Repr

/-- `PHASE`, the transaction-level phase of the sequencer position (R27). -/
inductive Phase where
  | idle | start1 | addrw | ackAddrw | reghi | ackReghi | reglo | ackReglo | wdata | ackWdata
  | turnp | start2 | addrr | ackAddrr | rdata | mackp | stopp
deriving DecidableEq, Repr

/-- A token of the trace (`00_scope.md` R13): `D0 D1 C0 C1 O I w s0 s1`. -/
inductive Tok where
  | d0 | d1 | c0 | c1 | o | i | w | s0 | s1
deriving DecidableEq, Repr

/-- What the host can do through its ports (`43_host_interface.md` R200 to R207). -/
inductive HostOp where
  | read (idx : Nat)
  | write (idx : Nat) (v : Word)
  | txWrite (i : BitVec 16) (b : Byte)
  | rxRead (i : BitVec 16)
deriving DecidableEq, Repr

/-- Who acts next (`00_scope.md` R14). Log 2. -/
inductive Turn where
  /-- The engine issues one micro-operation (`40_pin_microops.md` R120). -/
  | engine
  /-- The host makes one access. -/
  | host (op : HostOp)
  /-- An encoded instruction is run as a whole, nobody else acting meanwhile: for a command word the source's
  synchronous call (R109, R208); for a primitive or a micro-operation a bench on that level alone, which no
  host can do (R108). Log 3. -/
  | issue (e : Encoded)
  /-- `rst_n` is asserted and released (`70_reset_and_hazards.md` R250). -/
  | rst
  /-- The host or other hardware begins to pull line `p` low by other means (`60_exceptions.md` R235). Log 17. -/
  | pull (p : Nat)
  /-- It lets go of line `p`. -/
  | release (p : Nat)
deriving DecidableEq, Repr

/-- A buffer: (index, byte) pairs, indexes strictly rising. An index that is not listed holds no value: "a buffer
byte that nothing has written holds no value" (`20_memory.md` R64). Log 10. -/
abbrev Memory := List Host.Cell

/-- The state. Everything up to `rxmem` is the engine's (R20); `hRdata`, `rxRdata` are what its two read ports
last gave the host (R200); the rest is the model's own. -/
structure State where
  -- pin side (R21); true = released, false = pulled low
  sclOut : Bool
  sdaOut : Bool
  sdaDir : Dir
  -- datapath registers (R24)
  shreg : Byte
  bitcnt : BitVec 4
  bytecnt : Len
  retrycnt : BitVec 8
  ackbit : Bool
  dlycnt : BitVec 16
  -- sequencer position (R26)
  phase : Phase
  prim : Prim
  ustep : BitVec 4
  -- host registers (R30 to R37), their named fields
  sclPin : BitVec 8
  sdaPin : BitVec 8
  delay : BitVec 16
  retryN : BitVec 8
  cmd : Word
  nBytes : Len
  busy : Bool
  done : Bool
  ackfail : Bool
  cmderr : Bool
  cfgerr : Bool
  rxCount : Len
  -- buffers (R62, R63)
  txmem : Memory
  rxmem : Memory
  -- read ports (R200). Log 9
  hRdata : Word
  rxRdata : Byte
  -- the model's own: who acts next (log 2), the environment's answers (log 4), the numbers of the next sample
  -- and of the next free value (log 8), the last sampled bit (log 19), the trace, oldest first (log 18), and
  -- the lines pulled by other means (log 17)
  agenda : List Turn
  answers : List Bool
  sampleNo : Nat
  freeNo : Nat
  bit : Bool
  trace : List Tok
  extPull : List Nat
deriving DecidableEq, Repr

/-- The state after reset (R42, `70_reset_and_hazards.md` R251). The spec gives no value for the datapath
registers, `PRIM`, `USTEP` (log 6) and the read ports (log 9): DESIGN CHOICE zero. -/
def State.reset : State where
  sclOut := true
  sdaOut := true
  sdaDir := .out
  shreg := 0
  bitcnt := 0
  bytecnt := 0
  retrycnt := 0
  ackbit := false
  dlycnt := 0
  phase := .idle
  prim := .start
  ustep := 0
  sclPin := 0
  sdaPin := 0
  delay := 0
  retryN := 10
  cmd := 0
  nBytes := 0
  busy := false
  done := false
  ackfail := false
  cmderr := false
  cfgerr := false
  rxCount := 0
  txmem := []
  rxmem := []
  hRdata := 0
  rxRdata := 0
  agenda := []
  answers := []
  sampleNo := 0
  freeNo := 0
  bit := false
  trace := []
  extPull := []

/-- Why a run stops: the model faults of `60_exceptions.md` R235, each the record of a broken premise, after
which the hardware's behaviour is unspecified, and two of the model's own. All are safe: the model stops where
the hardware goes on. -/
inductive Fault where
  /-- A write of `CMD` while `BUSY = 1` (R203, R206, U1). Raised by a launch. Safe. -/
  | reentrantLaunch
  /-- A write of `CFG_PINS`, `CFG_DELAY` or `CFG_RETRY` while `BUSY = 1` (R206, U2). Raised by a host write. Safe. -/
  | cfgWriteWhileBusy
  /-- A write of `LEN` while `BUSY = 1` (R206, U3). Raised by a host write. Safe. -/
  | lenWriteWhileBusy
  /-- A write of `TXMEM` while `BUSY = 1` (R206, U4). Raised by the host's transmit port. Safe. -/
  | txWriteWhileBusy
  /-- A read of `RXMEM` or `RXCOUNT` while `BUSY = 1` (R206, U5). Raised by the host's ports. Safe. -/
  | rxReadWhileBusy
  /-- A read of another register than `STATUS` while `BUSY = 1` (R201, U6). Raised by a host read. Safe. -/
  | regReadWhileBusy
  /-- A write of `STATUS`, `RXCOUNT` or a reserved index while `BUSY = 1` (R206 forbids it and R235 has no name
  for it; log 12). Raised by a host write. Safe. -/
  | regWriteWhileBusy
  /-- A write command read a `TXMEM` byte nothing has written (R64, U8). Raised by `WR8`, `WR16`. Safe. -/
  | txUnwritten
  /-- The host or other hardware pulls `SCL_PIN` or `SDA_PIN` while `BUSY = 1` (U7). Raised by the
  launch that makes `BUSY` 1, an engine turn and the pull itself (log 17). Safe. -/
  | pinsDrivenByOthers
  /-- `BUSY = 1` and the sequencer position is one no rule enters (R27, R178; log 21). Raised by an engine turn,
  in no state the rules reach. Safe. -/
  | sequencerLost
deriving DecidableEq, Repr

/-- Why an instruction has no meaning. -/
inductive Refusal where
  /-- Its arm in `exec` gives it no meaning yet. Safe. -/
  | notModelled (mnemonic : String)
  /-- `PRIM` codes 10 to 15 are no primitive (`30_encoding.md` R108). Raised by an issue turn. Safe. -/
  | unusedPrimCode (code : BitVec 4)
deriving DecidableEq, Repr

/-- The outcome of a step of this machine. -/
abbrev Out := Host.Outcome State Fault Refusal

end Sys2Proof.Machine
end

