-- ==== Sys2Proof/Machine/Ops.lean ====
section
/-! DEFINITION. The named operations: the buffers, the pins, the micro-operations and the primitives as functions
of the state (none can fail, `40_pin_microops.md` R130), completion (the return) and the abort path (the
engine's one exception). -/

namespace Sys2Proof.Machine

/-! ## Buffers -/

/-- The byte at index `a`, none where nothing has been written (`20_memory.md` R64). -/
def Memory.read : Memory → Nat → Option Byte
  | [], _ => none
  | (k, v) :: m, a => if k = a then some v else Memory.read m a

/-- Write a byte at index `a`, keeping the indexes rising. -/
def Memory.write : Memory → Nat → Byte → Memory
  | [], a, b => [(a, b)]
  | (k, v) :: m, a, b =>
    if a < k then (a, b) :: (k, v) :: m
    else if a = k then (a, b) :: m
    else (k, v) :: Memory.write m a b

/-- Every index of `m` is above `lo` and they rise. -/
def Memory.risesFrom : Nat → Memory → Bool
  | _, [] => true
  | lo, (k, _) :: m => decide (lo ≤ k) && Memory.risesFrom (k + 1) m

/-- The canonical form: indexes strictly rising, all of them in 0..65534 (R60). No listed entry can equal what an
unlisted index reads as, which is no value. -/
def Memory.wf (m : Memory) : Bool :=
  Memory.risesFrom 0 m && m.all (fun c => decide (c.1 < 65535))

/-! ## Pins -/

/-- `SDA_EFF` (`10_state.md` R22): 0 iff the engine pulls the data line low. -/
def State.sdaEff (s : State) : Bool :=
  match s.sdaDir with
  | .out => s.sdaOut
  | .inp => true

/-- `SCL_EFF` (R22). -/
def State.sclEff (s : State) : Bool := s.sclOut

/-- The port `pin_pull_low[p]` (`43_host_interface.md` R200, R22). -/
def State.pullsLow (s : State) (p : Nat) : Bool :=
  (p == s.sdaPin.toNat && !s.sdaEff) || (p == s.sclPin.toNat && !s.sclEff)

/-- `line(p)`, the level of a line of the bank, `env p` being false where the environment pulls `p` low
(`40_pin_microops.md` R121): wired-AND over the engine, the environment and whoever else pulls. -/
def State.line (s : State) (env : Nat → Bool) (p : Nat) : Bool :=
  !s.pullsLow p && env p && !s.extPull.contains p

/-- `line(SDA_PIN) = SDA_EFF and env_sda` (R121), which is `State.line` at `SDA_PIN` as long as the two pins differ
and nobody else pulls that line, as in every command; elsewhere log 31. -/
def State.sdaLine (s : State) (envSda : Bool) : Bool := s.sdaEff && envSda

/-- What the environment does to the data line at the next `SAMPLE`: the next listed answer, else a free value
(R128). Log 4. -/
def State.envBit (s : State) : Bool :=
  match s.answers with
  | a :: _ => a
  | [] => Config.envSda s.sampleNo

/-- The idle state of the pins (R23). -/
def State.pinsIdle (s : State) : Bool :=
  s.sclOut && s.sdaOut && decide (s.sdaDir = .out)

/-- One of the two configured pins is pulled by the host or other hardware (`60_exceptions.md` R235). -/
def State.pinsTaken (s : State) : Bool :=
  s.extPull.contains s.sclPin.toNat || s.extPull.contains s.sdaPin.toNat

/-! ## Level 0: micro-operations, each with the token it appends to the trace (`00_scope.md` R12, R13) -/

def State.emit (s : State) (t : Tok) : State := { s with trace := s.trace ++ [t] }

/-- R122. -/
def sdaLo (s : State) : State := { s with sdaOut := false, trace := s.trace ++ [.d0] }
/-- R123. -/
def sdaHi (s : State) : State := { s with sdaOut := true, trace := s.trace ++ [.d1] }
/-- R124. -/
def sclLo (s : State) : State := { s with sclOut := false, trace := s.trace ++ [.c0] }
/-- R125. -/
def sclHi (s : State) : State := { s with sclOut := true, trace := s.trace ++ [.c1] }
/-- R126. -/
def dirOut (s : State) : State := { s with sdaDir := .out, trace := s.trace ++ [.o] }
/-- R129. -/
def dirIn (s : State) : State := { s with sdaDir := .inp, trace := s.trace ++ [.i] }

/-- The loop of `WAIT`: at most `k` ticks, each taking one from a counter that is not yet 0 (R127, R241). -/
def dlyRun : Nat → BitVec 16 → BitVec 16
  | 0, d => d
  | k + 1, d => if d = 0 then d else dlyRun k (d - 1)

/-- R127: `DLYCNT` is loaded with `DELAY` and counted down; nothing else changes. Log 14. -/
def waitOne (s : State) : State :=
  { s with dlycnt := dlyRun s.delay.toNat s.delay, trace := s.trace ++ [.w] }

/-- The token of a `SAMPLE` (`30_encoding.md` R107). -/
def sampleTok (b : Bool) : Tok := if b then .s1 else .s0

/-- R128: the level of the data line, `SDA_EFF and env_sda`; the result is left in `bit`. A `SAMPLE` (or `RBIT`,
`RBYTE`, `WACK`) issued alone while the host or other hardware pulls `SDA_PIN`, or while the two pins are equal, takes
the same formula, those pulls left out: the spec is silent there (DESIGN CHOICE, log 31). -/
def sampleSda (s : State) : State :=
  { s with
    bit := s.sdaLine s.envBit
    answers := s.answers.tail
    sampleNo := s.sampleNo + 1
    trace := s.trace ++ [sampleTok (s.sdaLine s.envBit)] }

/-! ## Level 1: primitives (`41_bus_primitives.md` R141 to R150) -/

/-- R141. -/
def startP (s : State) : State := sclLo (waitOne (sdaLo (waitOne (sclHi (sdaHi s)))))

/-- R142. -/
def stopP (s : State) : State := sdaHi (waitOne (sclHi (waitOne (sdaLo s))))

/-- First micro-operation of `WBIT`: the data line is set while the clock is low (R143). -/
def setData (v : Bool) (s : State) : State := if v then sdaHi s else sdaLo s

/-- R143. -/
def wbitP (v : Bool) (s : State) : State := sclLo (waitOne (sclHi (waitOne (setData v s))))

/-- R144; the bit read is left in `bit`. -/
def rbitP (s : State) : State := sclLo (sampleSda (waitOne (sclHi (waitOne s))))

/-- `BITCNT <- BITCNT + 1` (R145, R146). -/
def countBit (s : State) : State := { s with bitcnt := s.bitcnt + 1 }

/-- `SHREG <- {SHREG[6:0], b}` (R146, `42_transactions.md` R180 f). -/
def shiftInBit (s : State) : State := { s with shreg := s.shreg.shiftConcat s.bit }

/-- The loop of `WBYTE` with `k` bits to go: bit `k - 1` next (R145). -/
def wbyteLoop : Nat → State → State
  | 0, s => s
  | k + 1, s => wbyteLoop k (countBit (wbitP (s.shreg.getLsbD k) s))

/-- `SHREG <- b; BITCNT <- 0` (R145). -/
def loadByte (b : Byte) (s : State) : State := { s with shreg := b, bitcnt := 0 }

/-- R145. -/
def wbyteP (b : Byte) (s : State) : State := wbyteLoop 8 (loadByte b s)

/-- The loop of `RBYTE` with `k` bits to go (R146). -/
def rbyteLoop : Nat → State → State
  | 0, s => s
  | k + 1, s => rbyteLoop k (countBit (shiftInBit (rbitP s)))

/-- R146; the byte read is left in `SHREG`. -/
def rbyteP (s : State) : State := dirOut (rbyteLoop 8 (loadByte 0 (dirIn (sdaHi s))))

/-- `SAMPLE` and `RETRYCNT <- RETRYCNT + 1` (R147). -/
def pollOnce (s : State) : State :=
  let s := sampleSda s
  { s with retrycnt := s.retrycnt + 1 }

def setAck (b : Bool) (s : State) : State := { s with ackbit := b }

/-- The poll of `WACK`, at most `k` samples more (R147). `RETRYCNT` is 8 bits wide and starts at 0, so it meets
`N` within 256 samples whatever `N` is. Log 24. -/
def wackLoop : Nat → State → State
  | 0, s => s
  | k + 1, s =>
    let s := pollOnce s
    if s.bit = false then setAck true s
    else if s.retrycnt = s.retryN then setAck false s
    else wackLoop k (waitOne s)

/-- `RETRYCNT <- 0` (R147). -/
def clearRetry (s : State) : State := { s with retrycnt := 0 }

/-- R147; the result is left in `ACKBIT`. -/
def wackP (s : State) : State :=
  dirOut (sclLo (wackLoop 256 (clearRetry (waitOne (sclHi (waitOne (dirIn (sdaHi s))))))))

/-- R148. -/
def mackP (s : State) : State := wbitP false s
/-- R149. -/
def mnackP (s : State) : State := wbitP true s
/-- R150. -/
def turnP (s : State) : State := waitOne s

/-! ## Completion and the abort path -/

/-- Outside a command the datapath registers and `PRIM`, `USTEP` "hold no defined value" (`10_state.md` R25, R26):
each takes a free value. Log 7. -/
def forgetDatapath (s : State) : State :=
  { s with
    shreg := Config.freeShreg s.freeNo
    bitcnt := Config.freeBitcnt s.freeNo
    bytecnt := Config.freeBytecnt s.freeNo
    retrycnt := Config.freeRetrycnt s.freeNo
    ackbit := Config.freeAckbit s.freeNo
    dlycnt := Config.freeDlycnt s.freeNo
    prim := Config.freePrim s.freeNo
    ustep := Config.freeUstep s.freeNo
    freeNo := s.freeNo + 1 }

/-- Completion, the return from a command (`43_host_interface.md` R204). -/
def completeCommand (s : State) : State :=
  forgetDatapath { s with busy := false, done := true, phase := .idle }

/-- The end of every command: `STOP`, then completion (`42_transactions.md` R177). -/
def finishCommand (s : State) : State := completeCommand (stopP s)

/-- AcknowledgeFailure is recorded (`60_exceptions.md` R232). -/
def markAckFail (s : State) : State := { s with ackfail := true }

/-- AcknowledgeFailure, the engine's exception: `ACKFAIL <- 1`, `STOP`, completion (R232). -/
def abortCommand (s : State) : State := finishCommand (markAckFail s)

/-! ## The payload registers -/

/-- `BYTECNT <- 0` (`42_transactions.md` R172). -/
def clearBytecnt (s : State) : State := { s with bytecnt := 0 }

/-- `BYTECNT <- BYTECNT + 1` (R172). -/
def countByte (s : State) : State := { s with bytecnt := s.bytecnt + 1 }

/-- `MemRead(TXMEM, BYTECNT, 1)` (`20_memory.md` R62). -/
def State.txByte (s : State) : Option Byte := Memory.read s.txmem s.bytecnt.toNat

/-- `MemWrite(RXMEM, BYTECNT, 1, v); RXCOUNT.COUNT <- BYTECNT + 1`, `v` being in `SHREG` (R63, R174). -/
def storeRxByte (s : State) : State :=
  { s with
    rxmem := Memory.write s.rxmem s.bytecnt.toNat s.shreg
    rxCount := s.bytecnt + 1 }

/-- `BYTECNT < n - 1`, unsigned; looked at only when n >= 1 (R174, R180 c). -/
def State.moreToRead (s : State) : Bool := decide (s.bytecnt < s.nBytes - 1)

end Sys2Proof.Machine
end

