-- ==== Sys2Proof/Machine/Operands.lean ====
section
/-! DEFINITION. Operands: the bytes a command sends (`30_encoding.md` R93, R95, R96) and the fields of the command
in progress. -/

namespace Sys2Proof.Machine

/-- `ADB(DEV, rw) = {DEV[6:0], rw}` (R95). -/
def adb (dev : DevAddr) (rw : Bool) : Byte := dev ++ BitVec.ofBool rw

/-- `REG[15:8]` (R96). -/
def regHi (reg : RegAddr) : Byte := reg.extractLsb' 8 8

/-- `REG[7:0]` (R96). -/
def regLo (reg : RegAddr) : Byte := reg.extractLsb' 0 8

/-- The kind of a command, `OP[1:0]` (R91). -/
inductive Kind where
  | probe | write | read
deriving DecidableEq, Repr

/-- `OP[1:0]` of the command in progress: 0 probe, 1 write, 2 read (R91); 3 is never in progress (R104). -/
def State.kind (s : State) : Kind :=
  if s.cmd.extractLsb' 0 2 = 0 then .probe else if s.cmd.extractLsb' 0 2 = 1 then .write else .read

/-- `OP[2]`, `W16` (R91). -/
def State.w16 (s : State) : Bool := s.cmd.getLsbD 2

/-- `CMD.DEV` of the command in progress. -/
def State.dev (s : State) : DevAddr := cmdDev s.cmd

/-- `CMD.REG` of the command in progress. -/
def State.reg (s : State) : RegAddr := cmdReg s.cmd

end Sys2Proof.Machine
end

