-- ==== Sys2Proof/Machine/Flags.lean ====
section
/-! DEFINITION. The five `STATUS` flags (`10_state.md` R29, R36), the predicate `CFGVALID` (R39), and the launch of a
command, which sets them (`43_host_interface.md` R203). -/

namespace Sys2Proof.Machine

/-- `STATUS` as a word: `[0] BUSY`, `[1] DONE`, `[2] ACKFAIL`, `[3] CMDERR`, `[4] CFGERR`, the rest 0 (R36). -/
def State.statusWord (s : State) : Word :=
  (0#27 : BitVec 27) ++ BitVec.ofBool s.cfgerr ++ BitVec.ofBool s.cmderr ++ BitVec.ofBool s.ackfail
    ++ BitVec.ofBool s.done ++ BitVec.ofBool s.busy

/-- `CFGVALID` (R39). -/
def State.cfgValid (s : State) : Bool :=
  s.sclPin != s.sdaPin && decide (s.sclPin.toNat < Config.npins) && decide (s.sdaPin.toNat < Config.npins)
    && decide (1 ≤ s.retryN.toNat)

/-- What every launch does first: `CMD` takes the word, the flags of the last command and `RXCOUNT` are cleared
(R203). -/
def acceptWord (w : Word) (s : State) : State :=
  { s with cmd := w, done := false, ackfail := false, cmderr := false, cfgerr := false, rxCount := 0 }

/-- Refusal `CMDERR` (`60_exceptions.md` R233). -/
def refuseCmdErr (s : State) : State := { s with cmderr := true, done := true }

/-- Refusal `CFGERR` (R234). -/
def refuseCfgErr (s : State) : State := { s with cfgerr := true, done := true }

/-- `STATUS.BUSY <- 1; pc <- (START1, START, 0)` (R203). -/
def beginCommand (s : State) : State :=
  { s with busy := true, phase := .start1, prim := .start, ustep := 0 }

/-- The launch, one step, its checks in the order of R203 and R237. A launch that is accepted makes `BUSY = 1`, so if
the host or other hardware pulls one of its two lines at that moment, it is the model fault of R235 (R65); a launch
that is refused takes no line and raises none. That the launch is where such a pull is noticed: DESIGN CHOICE,
log 17. -/
def launch (w : Word) (s : State) : Out :=
  if s.busy then .fault .reentrantLaunch
  else if cmdReserved w then .next (refuseCmdErr (acceptWord w s))
  else if s.cfgValid = false then .next (refuseCfgErr (acceptWord w s))
  else if s.pinsTaken then .fault .pinsDrivenByOthers
  else .next (beginCommand (acceptWord w s))

end Sys2Proof.Machine
end

