-- ==== Sys2Proof/Machine/BusPrimitives.lean ====
section
/-! DEFINITION. The meanings of the ten bus primitives, each run from its first micro-operation to its last
(`41_bus_primitives.md` R141 to R150; R140: "a primitive runs to its end once entered"). Their preconditions are the
transactions' to keep and are not checked (log 30). Log 3. -/

namespace Sys2Proof.Machine

/-- R141. -/
def execStart (s : State) : Out := .next (startP s)
/-- R142. -/
def execStop (s : State) : Out := .next (stopP s)
/-- R143. -/
def execWbit (v : Bool) (s : State) : Out := .next (wbitP v s)
/-- R144. -/
def execRbit (s : State) : Out := .next (rbitP s)
/-- R145. -/
def execWbyte (b : Byte) (s : State) : Out := .next (wbyteP b s)
/-- R146. -/
def execRbyte (s : State) : Out := .next (rbyteP s)
/-- R147. -/
def execWack (s : State) : Out := .next (wackP s)
/-- R148. -/
def execMack (s : State) : Out := .next (mackP s)
/-- R149. -/
def execMnack (s : State) : Out := .next (mnackP s)
/-- R150. -/
def execTurn (s : State) : Out := .next (turnP s)

end Sys2Proof.Machine
end

