-- ==== Sys2Proof/Machine/PinMicroOps.lean ====
section
/-! DEFINITION. The meanings of the eight pin micro-operations (`40_pin_microops.md` R122 to R129). None can fail
(R130), so each answers a next state from every state. -/

namespace Sys2Proof.Machine

/-- R122. -/
def execSdaLo (s : State) : Out := .next (sdaLo s)
/-- R123. -/
def execSdaHi (s : State) : Out := .next (sdaHi s)
/-- R124. -/
def execSclLo (s : State) : Out := .next (sclLo s)
/-- R125. -/
def execSclHi (s : State) : Out := .next (sclHi s)
/-- R126. -/
def execDirOut (s : State) : Out := .next (dirOut s)
/-- R129. -/
def execDirIn (s : State) : Out := .next (dirIn s)
/-- R127. -/
def execWait (s : State) : Out := .next (waitOne s)
/-- R128. -/
def execSample (s : State) : Out := .next (sampleSda s)

end Sys2Proof.Machine
end

