-- ==== Sys2Proof/Machine/Reserved.lean ====
section
/-! DEFINITION. The meanings of the reserved command words (`30_encoding.md` R104): the launch stores the word, clears
the flags and completes at once with `CMDERR` (`60_exceptions.md` R233). A next state, since the spec gives the
effect. Log 29. -/

namespace Sys2Proof.Machine

/-- `OP = 3` (R104). -/
def execReservedOp3 (dev : DevAddr) (reg : RegAddr) (s : State) : Out := launch (cmdWord 0 reg dev 3) s
/-- `OP = 4` (R104). -/
def execReservedOp4 (dev : DevAddr) (reg : RegAddr) (s : State) : Out := launch (cmdWord 0 reg dev 4) s
/-- `OP = 7` (R104). -/
def execReservedOp7 (dev : DevAddr) (reg : RegAddr) (s : State) : Out := launch (cmdWord 0 reg dev 7) s
/-- `RSV != 0` with any `OP` (R104). -/
def execReservedRsv (op : BitVec 3) (dev : DevAddr) (reg : RegAddr) (rsv : BitVec 6) (s : State) : Out :=
  launch (cmdWord rsv reg dev op) s

end Sys2Proof.Machine
end

