-- ==== Sys2Proof/Machine/Transactions.lean ====
section
/-! DEFINITION. The meanings of the five commands, from launch to completion, as the pseudocode of
`42_transactions.md` R171 to R175 gives them. Nobody but the engine and the environment acts meanwhile (log 3);
Machine/Sequencer.lean is the same engine one micro-operation at a time. -/

namespace Sys2Proof.Machine

/-- A command: its launch (R170, `43_host_interface.md` R203) and, if that is accepted, its body. -/
def runCommand (w : Word) (body : State → Out) (s : State) : Out :=
  match launch w s with
  | .next t => if t.busy then body t else .next t
  | .fault r => .fault r
  | .refused r => .refused r

/-- `WBYTE b; CHECK`: on no acknowledge the abort path, else the rest of the command, `k` (R170). -/
def sendByte (b : Byte) (k : State → Out) (s : State) : Out :=
  let s := wackP (wbyteP b s)
  if s.ackbit then k s else .next (abortCommand s)

/-- The payload loop of a write with `r` bytes to go, then `STOP` and completion (R172). -/
def writePayload : Nat → State → Out
  | 0, s => .next (finishCommand s)
  | r + 1, s =>
    match s.txByte with
    | none => .fault .txUnwritten
    | some b => sendByte b (fun s => writePayload r (countByte s)) s

/-- The payload loop of a read with `r` bytes to go, then `STOP` and completion (R174). -/
def readPayload : Nat → State → State
  | 0, s => finishCommand s
  | r + 1, s =>
    let s := storeRxByte (rbyteP s)
    readPayload r (countByte (if s.moreToRead then mackP s else mnackP s))

/-- The payload part of a write, from `BYTECNT <- 0` (R172). -/
def writeData (s : State) : Out := writePayload s.nBytes.toNat (clearBytecnt s)

/-- From the turnaround to the end of a read (R174). -/
def readData (dev : DevAddr) (s : State) : Out :=
  sendByte (adb dev true) (fun s => .next (readPayload s.nBytes.toNat (clearBytecnt s))) (startP (turnP s))

/-- The body of `PROBE` (R171). -/
def probeBody (dev : DevAddr) (s : State) : Out :=
  let s := wackP (wbyteP (adb dev false) (startP s))
  .next (finishCommand (if s.ackbit then s else markAckFail s))

/-- The body of `WR8` (R172). -/
def wr8Body (dev : DevAddr) (reg : RegAddr) (s : State) : Out :=
  sendByte (adb dev false) (sendByte (regLo reg) writeData) (startP s)

/-- The body of `WR16` (R173). -/
def wr16Body (dev : DevAddr) (reg : RegAddr) (s : State) : Out :=
  sendByte (adb dev false) (sendByte (regHi reg) (sendByte (regLo reg) writeData)) (startP s)

/-- The body of `RD8` (R174). -/
def rd8Body (dev : DevAddr) (reg : RegAddr) (s : State) : Out :=
  sendByte (adb dev false) (sendByte (regLo reg) (readData dev)) (startP s)

/-- The body of `RD16` (R175). -/
def rd16Body (dev : DevAddr) (reg : RegAddr) (s : State) : Out :=
  sendByte (adb dev false) (sendByte (regHi reg) (sendByte (regLo reg) (readData dev))) (startP s)

/-- R171. -/
def execProbe (dev : DevAddr) (reg : RegAddr) (s : State) : Out :=
  runCommand (cmdWord 0 reg dev 0) (probeBody dev) s

/-- R172. -/
def execWr8 (dev : DevAddr) (reg : RegAddr) (s : State) : Out :=
  runCommand (cmdWord 0 reg dev 1) (wr8Body dev reg) s

/-- R173. -/
def execWr16 (dev : DevAddr) (reg : RegAddr) (s : State) : Out :=
  runCommand (cmdWord 0 reg dev 5) (wr16Body dev reg) s

/-- R174. -/
def execRd8 (dev : DevAddr) (reg : RegAddr) (s : State) : Out :=
  runCommand (cmdWord 0 reg dev 2) (rd8Body dev reg) s

/-- R175. -/
def execRd16 (dev : DevAddr) (reg : RegAddr) (s : State) : Out :=
  runCommand (cmdWord 0 reg dev 6) (rd16Body dev reg) s

end Sys2Proof.Machine
end

