-- ==== Sys2Proof/Machine/Dispatch.lean ====
section
/-! DEFINITION. One arm per instruction. -/

namespace Sys2Proof.Machine

def exec (i : Instr) (s : State) : Host.Outcome State Fault Refusal :=
  match i with
  -- level 2: commands and reserved command words
  | .probe dev reg => Sys2Proof.Machine.execProbe dev reg s
  | .wr8 dev reg => Sys2Proof.Machine.execWr8 dev reg s
  | .rd8 dev reg => Sys2Proof.Machine.execRd8 dev reg s
  | .wr16 dev reg => Sys2Proof.Machine.execWr16 dev reg s
  | .rd16 dev reg => Sys2Proof.Machine.execRd16 dev reg s
  | .reservedOp3 dev reg => Sys2Proof.Machine.execReservedOp3 dev reg s
  | .reservedOp4 dev reg => Sys2Proof.Machine.execReservedOp4 dev reg s
  | .reservedOp7 dev reg => Sys2Proof.Machine.execReservedOp7 dev reg s
  | .reservedRsv op dev reg rsv => Sys2Proof.Machine.execReservedRsv op dev reg rsv s
  -- level 1: primitives
  | .start => Sys2Proof.Machine.execStart s
  | .stop => Sys2Proof.Machine.execStop s
  | .wbit v => Sys2Proof.Machine.execWbit v s
  | .rbit => Sys2Proof.Machine.execRbit s
  | .wbyte b => Sys2Proof.Machine.execWbyte b s
  | .rbyte => Sys2Proof.Machine.execRbyte s
  | .wack => Sys2Proof.Machine.execWack s
  | .mack => Sys2Proof.Machine.execMack s
  | .mnack => Sys2Proof.Machine.execMnack s
  | .turn => Sys2Proof.Machine.execTurn s
  -- level 0: micro-operations
  | .sdaLo => Sys2Proof.Machine.execSdaLo s
  | .sdaHi => Sys2Proof.Machine.execSdaHi s
  | .sclLo => Sys2Proof.Machine.execSclLo s
  | .sclHi => Sys2Proof.Machine.execSclHi s
  | .dirOut => Sys2Proof.Machine.execDirOut s
  | .dirIn => Sys2Proof.Machine.execDirIn s
  | .wait => Sys2Proof.Machine.execWait s
  | .sample => Sys2Proof.Machine.execSample s

end Sys2Proof.Machine
end

