-- ==== Sys2Proof/Machine/HostPort.lean ====
section
/-! DEFINITION. The host's accesses (`43_host_interface.md` R201 to R207). While `BUSY = 1` every one but a read of
`STATUS` is a fault (R206, `60_exceptions.md` R235). -/

namespace Sys2Proof.Machine

/-- The value a host register reads, reserved bits 0, reserved indexes 0 (`10_state.md` R30 to R38). -/
def State.hostReg (s : State) (idx : Nat) : Word :=
  match idx with
  | 0 => (0#16 : BitVec 16) ++ s.sdaPin ++ s.sclPin
  | 1 => (0#16 : BitVec 16) ++ s.delay
  | 2 => (0#24 : BitVec 24) ++ s.retryN
  | 3 => s.cmd
  | 4 => (0#16 : BitVec 16) ++ s.nBytes
  | 5 => s.statusWord
  | 6 => (0#16 : BitVec 16) ++ s.rxCount
  | _ => 0

/-- The fault of a register read while `BUSY = 1` (R201, R206, U5, U6; `RXCOUNT` as vector T23 has it, log 13). -/
def busyReadFault (idx : Nat) : Fault := if idx = 6 then .rxReadWhileBusy else .regReadWhileBusy

/-- `HostRead(idx)` (R201). Log 23. -/
def hostRead (idx : Nat) (s : State) : Out :=
  if s.busy && idx != 5 then .fault (busyReadFault idx) else .next { s with hRdata := s.hostReg idx }

/-- The fault of a register write while `BUSY = 1` (R203, R206, U1 to U3; log 12). -/
def busyWriteFault (idx : Nat) : Fault :=
  match idx with
  | 0 => .cfgWriteWhileBusy
  | 1 => .cfgWriteWhileBusy
  | 2 => .cfgWriteWhileBusy
  | 3 => .reentrantLaunch
  | 4 => .lenWriteWhileBusy
  | _ => .regWriteWhileBusy

/-- What a write of a register other than `CMD` stores while `BUSY = 0`: the named fields, nothing for the read-only
and the reserved indexes (R202). -/
def storeHostReg (idx : Nat) (v : Word) (s : State) : State :=
  match idx with
  | 0 => { s with sclPin := v.extractLsb' 0 8, sdaPin := v.extractLsb' 8 8 }
  | 1 => { s with delay := v.extractLsb' 0 16 }
  | 2 => { s with retryN := v.extractLsb' 0 8 }
  | 4 => { s with nBytes := v.extractLsb' 0 16 }
  | _ => s

/-- `HostWrite(idx, v)` (R202); index 3 launches (R203). -/
def hostWrite (idx : Nat) (v : Word) (s : State) : Out :=
  if s.busy then .fault (busyWriteFault idx)
  else if idx = 3 then launch v s
  else .next (storeHostReg idx v s)

/-- `tx_we` (R207): index 65535 is ignored. -/
def txWrite (i : BitVec 16) (b : Byte) (s : State) : Out :=
  if s.busy then .fault .txWriteWhileBusy
  else if i.toNat < 65535 then .next { s with txmem := Memory.write s.txmem i.toNat b }
  else .next s

/-- `rx_rdata` (R207): `RXMEM[i]` below `RXCOUNT.COUNT`, else an unspecified value (`20_memory.md` R64). Log 11. -/
def rxRead (i : BitVec 16) (s : State) : Out :=
  if s.busy then .fault .rxReadWhileBusy
  else
    match (if i < s.rxCount then Memory.read s.rxmem i.toNat else none) with
    | some b => .next { s with rxRdata := b }
    | none => .next { s with rxRdata := Config.freeRxByte s.freeNo, freeNo := s.freeNo + 1 }

/-- One host access. -/
def hostAct (op : HostOp) (s : State) : Out :=
  match op with
  | .read idx => hostRead idx s
  | .write idx v => hostWrite idx v s
  | .txWrite i b => txWrite i b s
  | .rxRead i => rxRead i s

/-- `rst_n` (`70_reset_and_hazards.md` R250): the engine's state becomes that of R42, its datapath registers and
`PRIM`, `USTEP` without a value (R25, log 7); the agents around it stay (log 22). -/
def resetEngine (s : State) : State :=
  forgetDatapath { State.reset with
    hRdata := s.hRdata
    rxRdata := s.rxRdata
    agenda := s.agenda
    answers := s.answers
    sampleNo := s.sampleNo
    freeNo := s.freeNo
    bit := s.bit
    trace := s.trace
    extPull := s.extPull }

/-- Line `p` is pulled by other means from now on; a fault if it is one of the engine's while `BUSY = 1`
(`60_exceptions.md` R235). Log 17. -/
def pullLine (p : Nat) (s : State) : Out :=
  let s := { s with extPull := p :: s.extPull.filter (· != p) }
  if s.busy && s.pinsTaken then .fault .pinsDrivenByOthers else .next s

/-- Line `p` is let go by whoever pulled it by other means. -/
def releaseLine (p : Nat) (s : State) : State := { s with extPull := s.extPull.filter (· != p) }

end Sys2Proof.Machine
end

