-- ==== Sys2Proof/Machine/Sequencer.lean ====
section
/-! DEFINITION. The sequencer: which micro-operation a position names, and how the position and the datapath move
after it (`10_state.md` R26 to R28, `42_transactions.md` R178). `USTEP` counts the micro-operations of a primitive,
those of a bit of `WBYTE` or `RBYTE` and of a sample of `WACK` once, `BITCNT` and `RETRYCNT` telling the round
(log 15). The datapath updates written between two micro-operations are made with the first of them (log 16). -/

namespace Sys2Proof.Machine

/-- The micro-operations of `WBIT v` (`41_bus_primitives.md` R143). -/
def bitSeq (v : Bool) : List Uop := [if v then .sdaHi else .sdaLo, .wait, .sclHi, .wait, .sclLo]

/-- The micro-operations of a primitive by `USTEP`, `v` being the data bit of the round of a `WBYTE`. `WBIT` and
`RBIT` are never the primitive of a phase (`10_state.md` R27). -/
def primSeq (p : Prim) (v : Bool) : List Uop :=
  match p with
  | .start => [.sdaHi, .sclHi, .wait, .sdaLo, .wait, .sclLo]
  | .stop => [.sdaLo, .wait, .sclHi, .wait, .sdaHi]
  | .wbyte => bitSeq v
  | .rbyte => [.sdaHi, .dirIn, .wait, .sclHi, .wait, .sample, .sclLo, .dirOut]
  | .wack => [.sdaHi, .dirIn, .wait, .sclHi, .wait, .sample, .wait, .sclLo, .dirOut]
  | .mack => bitSeq false
  | .mnack => bitSeq true
  | .turn => [.wait]
  | .wbit => []
  | .rbit => []

/-- `SHREG[7 - i]`, `i` being `BITCNT` (R145). -/
def State.dataBit (s : State) : Bool := s.shreg.getLsbD (7 - s.bitcnt.toNat)

/-- The micro-operation the position names: none in `IDLE` and at positions no rule enters. -/
def State.uopAt (s : State) : Option Uop :=
  if s.phase = .idle then none else (primSeq s.prim s.dataBit)[s.ustep.toNat]?

/-- The position moves to the first micro-operation of primitive `p` in phase `ph`. -/
def enterPhase (ph : Phase) (p : Prim) (s : State) : State := { s with phase := ph, prim := p, ustep := 0 }

/-- The same for a phase that sends byte `b` (R145). -/
def enterWbyte (ph : Phase) (b : Byte) (s : State) : State := enterPhase ph .wbyte (loadByte b s)

/-- The abort edge of an `ACK` phase (`60_exceptions.md` R232). -/
def enterAbort (s : State) : State := enterPhase .stopp .stop (markAckFail s)

/-- Head of the payload loop of a write: the next byte, read now from `TXMEM`, or `STOP` (R172, `20_memory.md` R62). -/
def nextWriteByte (s : State) : Out :=
  if s.bytecnt < s.nBytes then
    match s.txByte with
    | none => .fault .txUnwritten
    | some b => .next (enterWbyte .wdata b s)
  else .next (enterPhase .stopp .stop s)

/-- Head of the payload loop of a read (R174). -/
def nextReadByte (s : State) : State :=
  if s.bytecnt < s.nBytes then enterPhase .rdata .rbyte s else enterPhase .stopp .stop s

/-- The primitive of the phase has ended: the phase graph (R178). -/
def endPhase (s : State) : Out :=
  match s.phase with
  | .idle => .fault .sequencerLost
  | .start1 => .next (enterWbyte .addrw (adb s.dev false) s)
  | .addrw => .next (enterPhase .ackAddrw .wack s)
  | .ackAddrw =>
    if s.kind = .probe then .next (if s.ackbit then enterPhase .stopp .stop s else enterAbort s)
    else if s.ackbit = false then .next (enterAbort s)
    else if s.w16 then .next (enterWbyte .reghi (regHi s.reg) s)
    else .next (enterWbyte .reglo (regLo s.reg) s)
  | .reghi => .next (enterPhase .ackReghi .wack s)
  | .ackReghi => .next (if s.ackbit then enterWbyte .reglo (regLo s.reg) s else enterAbort s)
  | .reglo => .next (enterPhase .ackReglo .wack s)
  | .ackReglo =>
    if s.ackbit = false then .next (enterAbort s)
    else if s.kind = .write then nextWriteByte (clearBytecnt s)
    else .next (enterPhase .turnp .turn s)
  | .wdata => .next (enterPhase .ackWdata .wack s)
  | .ackWdata => if s.ackbit = false then .next (enterAbort s) else nextWriteByte (countByte s)
  | .turnp => .next (enterPhase .start2 .start s)
  | .start2 => .next (enterWbyte .addrr (adb s.dev true) s)
  | .addrr => .next (enterPhase .ackAddrr .wack s)
  | .ackAddrr => .next (if s.ackbit then nextReadByte (clearBytecnt s) else enterAbort s)
  | .rdata =>
    let s := storeRxByte s
    .next (enterPhase .mackp (if s.moreToRead then .mack else .mnack) s)
  | .mackp => .next (nextReadByte (countByte s))
  | .stopp => .next (completeCommand s)

/-- The position moves to `USTEP = u` of the same primitive. -/
def goTo (u : BitVec 4) (s : State) : State := { s with ustep := u }

/-- After the last micro-operation of a bit of `WBYTE` (R145). -/
def afterSentBit (s : State) : Out :=
  let s := countBit s
  if s.bitcnt = 8 then endPhase s else .next (goTo 0 s)

/-- After the last micro-operation of a bit of `RBYTE` (R146). -/
def afterReadBit (s : State) : State :=
  let s := countBit (shiftInBit s)
  if s.bitcnt = 8 then goTo 7 s else goTo 2 s

/-- After a sample of `WACK` (R147). -/
def afterPoll (s : State) : State :=
  let s := { s with retrycnt := s.retrycnt + 1 }
  if s.bit = false then goTo 7 (setAck true s)
  else if s.retrycnt = s.retryN then goTo 7 (setAck false s)
  else goTo 6 s

/-- What follows the micro-operation just issued (R28). -/
def afterUop (s : State) : Out :=
  match s.prim, s.ustep.toNat with
  | .wbyte, 4 => afterSentBit s
  | .rbyte, 1 => .next (goTo 2 (loadByte 0 s))
  | .rbyte, 6 => .next (afterReadBit s)
  | .wack, 4 => .next (goTo 5 (clearRetry s))
  | .wack, 5 => .next (afterPoll s)
  | .wack, 6 => .next (goTo 5 s)
  | p, u => if u + 1 = (primSeq p false).length then endPhase s else .next (goTo (s.ustep + 1) s)

end Sys2Proof.Machine
end

