-- ==== Sys2Proof/Machine/Engine.lean ====
section
/-! DEFINITION. One turn of each agent (`00_scope.md` R14). -/

namespace Sys2Proof.Machine

/-- The engine's turn: nothing while `BUSY = 0` (`60_exceptions.md` R245, log 20); else the micro-operation the
position names is executed and the position moves on (`40_pin_microops.md` R120, `10_state.md` R28). -/
def engineTurn (s : State) : Out :=
  if s.busy = false then .next s
  else if s.pinsTaken then .fault .pinsDrivenByOthers
  else
    match s.uopAt with
    | none => .fault .sequencerLost
    | some u =>
      match exec u.toInstr s with
      | .next t => afterUop t
      | .fault r => .fault r
      | .refused r => .refused r

/-- An encoded instruction run as a whole: decoded, then executed. Log 3. -/
def issueTurn (e : Encoded) (s : State) : Out :=
  match decode e with
  | .ok i => exec i s
  | .error (.unusedPrim code) => .refused (.unusedPrimCode code)

/-- The turn `t`, taken in state `s`. -/
def takeTurn (t : Turn) (s : State) : Out :=
  match t with
  | .engine => engineTurn s
  | .host op => hostAct op s
  | .issue e => issueTurn e s
  | .rst => .next (resetEngine s)
  | .pull p => pullLine p s
  | .release p => .next (releaseLine p s)

end Sys2Proof.Machine
end

