-- ==== Sys2Proof/Machine/Step.lean ====
section
/-! DEFINITION. The step: the next turn of the agenda, the engine's if none is listed. Log 2. -/

namespace Sys2Proof.Machine

def step (s : State) : Host.Outcome State Fault Refusal :=
  match s.agenda with
  | [] => engineTurn s
  | t :: rest => takeTurn t { s with agenda := rest }

/-- `s` with the instruction of an opcode-table row as the next turn. The engine fetches nothing (`00_scope.md` R18,
`20_memory.md` R75): a command comes from the host, so it stands at the head of the agenda. Log 2. -/
def State.withFetchWord (s : State) (nbits w : Nat) : State :=
  { s with agenda := .issue (tableEncoded nbits w) :: s.agenda }

end Sys2Proof.Machine
end

