-- ==== Sys2Proof/Machine/Client.lean ====
section
/-! DEFINITION. What stands at the engine's boundary: the assembler line and its host sequence (`30_encoding.md` R109,
`43_host_interface.md` R208), the client idioms (R110), and the sensor client's two conversions
(`44_client_contracts.md` R221, R222). None of it is state or behaviour of the engine. Log 25. -/

namespace Sys2Proof.Machine

/-- A line of the assembler (R109). -/
inductive Line where
  | probe (dev : DevAddr)
  | wr8 (dev : DevAddr) (reg : Byte) (bytes : List Byte)
  | wr16 (dev : DevAddr) (reg : RegAddr) (bytes : List Byte)
  | rd8 (dev : DevAddr) (reg : Byte) (n : Len)
  | rd16 (dev : DevAddr) (reg : RegAddr) (n : Len)
deriving DecidableEq, Repr

/-- The command of a line. -/
def lineInstr : Line → Instr
  | .probe dev => .probe dev 0
  | .wr8 dev reg _ => .wr8 dev (reg.setWidth 16)
  | .wr16 dev reg _ => .wr16 dev reg
  | .rd8 dev reg _ => .rd8 dev (reg.setWidth 16)
  | .rd16 dev reg _ => .rd16 dev reg

/-- The payload bytes stored in `TXMEM` from index `i` on (R208 step 2). -/
def loadTurns : BitVec 16 → List Byte → List Turn
  | _, [] => []
  | i, b :: bs => .host (.txWrite i b) :: loadTurns (i + 1) bs

/-- Steps 2 and 3 of R208: the payload, then its length in `LEN`. -/
def lineSetup : Line → List Turn
  | .probe _ => []
  | .wr8 _ _ bs => loadTurns 0 bs ++ [.host (.write 4 (BitVec.ofNat 32 bs.length))]
  | .wr16 _ _ bs => loadTurns 0 bs ++ [.host (.write 4 (BitVec.ofNat 32 bs.length))]
  | .rd8 _ _ n => [.host (.write 4 (n.setWidth 32))]
  | .rd16 _ _ n => [.host (.write 4 (n.setWidth 32))]

/-- The host sequence of a line (R208): set up, write the command word and wait for completion, read `STATUS`. -/
def lineTurns (l : Line) : List Turn :=
  lineSetup l ++ [.issue (encode (lineInstr l)), .host (.read 5)]

/-! The client idioms (R110). -/

def sensorInit : Line := .wr8 0x40 0x00 [Config.sensorCfgWord.1, Config.sensorCfgWord.2]
def rdShunt : Line := .rd8 0x40 0x01 2
def rdBusv : Line := .rd8 0x40 0x02 2
def dispCmd (bytes : List Byte) : Line := .wr8 Config.dispAddr 0x00 bytes
def dispData (bytes : List Byte) : Line := .wr8 Config.dispAddr 0x40 bytes

/-- Shunt voltage in microvolts: signed big-endian, 1 LSB = 10 uV (R221). -/
def shuntMicrovolts (hi lo : Byte) : Int := (hi ++ lo : BitVec 16).toInt * 10

/-- Bus voltage in millivolts: the top 13 bits, unsigned, 1 LSB = 4 mV (R222). -/
def busMillivolts (hi lo : Byte) : Nat := ((hi ++ lo : BitVec 16).extractLsb' 3 13).toNat * 4

/-- The duration of one `WAIT`, `DELAY × TICK` (`00_scope.md` R16); no rule reads it. -/
def waitDuration (s : State) : Nat := s.delay.toNat * Config.tick

end Sys2Proof.Machine
end

