-- ==== Sys2Proof/Machine/PinTrace.lean ====
section
/-! DEFINITION. What a trace shows on the engine's two lines: the pin-change trace of `00_scope.md` R13, start and stop
conditions (`40_pin_microops.md` R131), and the distance of edges (`10_state.md` R44 I-f). -/

namespace Sys2Proof.Machine

/-- The engine's outputs (`10_state.md` R21). -/
structure Pins where
  scl : Bool
  sda : Bool
  dir : Dir
deriving DecidableEq, Repr

/-- The outputs of a state. -/
def State.pins (s : State) : Pins := ⟨s.sclOut, s.sdaOut, s.sdaDir⟩

/-- `SDA_EFF` (R22). -/
def Pins.eff (p : Pins) : Bool :=
  match p.dir with
  | .out => p.sda
  | .inp => true

/-- The outputs after the micro-operation of a token. -/
def Pins.after (p : Pins) (t : Tok) : Pins :=
  match t with
  | .d0 => { p with sda := false }
  | .d1 => { p with sda := true }
  | .c0 => { p with scl := false }
  | .c1 => { p with scl := true }
  | .o => { p with dir := .out }
  | .i => { p with dir := .inp }
  | .w => p
  | .s0 => p
  | .s1 => p

/-- The pair the pin-change trace is about: (`SCL_OUT`, `SDA_EFF`) (`00_scope.md` R13, `10_state.md` R22). -/
def Pins.pair (p : Pins) : Bool × Bool := (p.scl, p.eff)

/-- The pin-change trace (R13) of a trace that begins with outputs `p`: the pair after each micro-operation that
changed it, in order; a token that left the pair as it was shows nothing here. -/
def pinChanges : Pins → List Tok → List (Bool × Bool)
  | _, [] => []
  | p, t :: l =>
    if (p.after t).pair = p.pair then pinChanges (p.after t) l else (p.after t).pair :: pinChanges (p.after t) l

/-- A start condition: `SDA_EFF` falls while the clock is high before and after (`40_pin_microops.md` R131). -/
def isStartCond (p q : Pins) : Bool := p.scl && q.scl && p.eff && !q.eff

/-- A stop condition: `SDA_EFF` rises while the clock is high before and after (R131). -/
def isStopCond (p q : Pins) : Bool := p.scl && q.scl && !p.eff && q.eff

/-- The outputs after a trace. -/
def Pins.run (p : Pins) (l : List Tok) : Pins := l.foldl Pins.after p

/-- The start conditions of a trace that begins with outputs `p`. -/
def countStarts : Pins → List Tok → Nat
  | _, [] => 0
  | p, t :: l => (if isStartCond p (p.after t) then 1 else 0) + countStarts (p.after t) l

/-- The stop conditions of a trace that begins with outputs `p`. -/
def countStops : Pins → List Tok → Nat
  | _, [] => 0
  | p, t :: l => (if isStopCond p (p.after t) then 1 else 0) + countStops (p.after t) l

/-- Between two changes of `SCL_OUT`, and between two of `SDA_EFF`, the trace has a `WAIT` (`10_state.md` R44 I-f,
`41_bus_primitives.md` R153); `cw`, `dw`: a `WAIT` has passed since the last change of the clock, of the data. -/
def edgesApart : Pins → Bool → Bool → List Tok → Bool
  | _, _, _, [] => true
  | p, cw, dw, t :: l =>
    let q := p.after t
    let cEdge := p.scl != q.scl
    let dEdge := p.eff != q.eff
    let waited := t == .w
    (!cEdge || cw) && (!dEdge || dw) && edgesApart q (waited || (cw && !cEdge)) (waited || (dw && !dEdge)) l

end Sys2Proof.Machine
end

