-- ==== Sys2Proof/Safety.lean ====
section
/-! DEFINITION. The terms claims are stated in: the traces the spec writes for its primitives and slots, when a command
can run, and the invariant of the machine (`10_state.md` R23, R36, R44). -/

namespace Sys2Proof.Machine

/-! ## Traces -/

/-- `START` (`41_bus_primitives.md` R141). -/
def startToks : List Tok := [.d1, .c1, .w, .d0, .w, .c0]

/-- `STOP` (R142). -/
def stopToks : List Tok := [.d0, .w, .c1, .w, .d1]

/-- The token of the data line set to `v`. -/
def dataTok (v : Bool) : Tok := if v then .d1 else .d0

/-- `WBIT v` (R143). -/
def bitToks (v : Bool) : List Tok := [dataTok v, .w, .c1, .w, .c0]

/-- Bit `7 - i` of `b` for `i` = 0 .. 7. -/
def msbFirst (b : Byte) : List Bool := [7, 6, 5, 4, 3, 2, 1, 0].map (fun i => b.getLsbD i)

/-- `WBYTE b` (R145). -/
def byteToks (b : Byte) : List Tok := (msbFirst b).flatMap bitToks

/-- `RBIT` that read `v` (R144). -/
def readBitToks (v : Bool) : List Tok := [.w, .c1, .w, sampleTok v, .c0]

/-- `RBYTE` that read the bits `bs` (R146). -/
def readToks (bs : List Bool) : List Tok := [.d1, .i] ++ bs.flatMap readBitToks ++ [.o]

/-- The byte of eight bits, the first one bit 7 (`42_transactions.md` R180 f). -/
def byteOfBits (bs : List Bool) : Byte := bs.foldl (fun sh b => sh.shiftConcat b) 0

/-- `WACK` acknowledged at its `k`-th sample (R147). -/
def ackToks (k : Nat) : List Tok :=
  [.d1, .i, .w, .c1, .w] ++ (List.replicate (k - 1) [Tok.s1, Tok.w]).flatten ++ [.s0, .c0, .o]

/-- `WACK` not acknowledged in `n` samples (R147). -/
def nackToks (n : Nat) : List Tok :=
  [.d1, .i, .w, .c1, .w] ++ (List.replicate (n - 1) [Tok.s1, Tok.w]).flatten ++ [.s1, .c0, .o]

/-- Write slots (`30_encoding.md` R97), each acknowledged at the sample listed beside it. -/
def slotsToks (slots : List (Byte × Nat)) : List Tok :=
  slots.flatMap (fun c => byteToks c.1 ++ ackToks c.2)

/-- The environment's answers to polls that are acknowledged at the samples listed. -/
def ackAnswers (ks : List Nat) : List Bool := ks.flatMap (fun k => List.replicate (k - 1) true ++ [false])

/-- The read slots of a read (R97, R101): each byte's bits, then `MACK`, or `MNACK` after the last. -/
def readSlotsToks : List (List Bool) → List Tok
  | [] => []
  | [bs] => readToks bs ++ bitToks true
  | bs :: rest => readToks bs ++ bitToks false ++ readSlotsToks rest

/-- The level the environment lets the data line have at the `k`-th `SAMPLE` from now, counted from 0. -/
def State.envAt (s : State) (k : Nat) : Bool :=
  match s.answers[k]? with
  | some a => a
  | none => Config.envSda (s.sampleNo + k)

/-- The next `SAMPLE`s are answered with `l`, in that order. -/
def State.willAnswer (s : State) (l : List Bool) : Prop := (List.range l.length).map s.envAt = l

/-- `TXMEM` holds `bs` from index 0 on. -/
def State.holds (s : State) (bs : List Byte) : Prop := ∀ i (h : i < bs.length), Memory.read s.txmem i = some bs[i]

/-- The sample counts of acknowledged polls: each within the bound (R147). -/
def State.pollsOk (s : State) (ks : List Nat) : Prop := ∀ k ∈ ks, 1 ≤ k ∧ k ≤ s.retryN.toNat

/-- The slots of a read before its repeated start: the address+write slot and the register slots (`30_encoding.md` R101,
R102); 0 for what is no read. -/
def selectSlots (i : Instr) : Nat :=
  match i with
  | .rd8 .. => 2
  | .rd16 .. => 3
  | .probe .. | .wr8 .. | .wr16 .. => 0
  | .reservedOp3 .. | .reservedOp4 .. | .reservedOp7 .. | .reservedRsv .. => 0
  | .start | .stop | .wbit _ | .rbit | .wbyte _ | .rbyte | .wack | .mack | .mnack | .turn => 0
  | .sdaLo | .sdaHi | .sclLo | .sclHi | .dirOut | .dirIn | .wait | .sample => 0

/-! ## When a command can run -/

/-- The engine is free, its configuration valid (`10_state.md` R39), and the two lines its own (`60_exceptions.md`
R235): a launched command is accepted and begins. -/
def State.ready (s : State) : Bool := !s.busy && s.cfgValid && !s.pinsTaken

/-- What holds whenever a command has ended (`10_state.md` R23, `43_host_interface.md` R204). -/
def State.ended (s : State) : Bool := !s.busy && s.done && decide (s.phase = .idle) && s.pinsIdle

/-- What no command changes (`42_transactions.md` R170, `60_exceptions.md` R232): the configuration, `LEN`, `TXMEM`,
the host's read ports, what the other agents are about to do, and the lines they pull. -/
def sameOutside (s t : State) : Prop :=
  t.sclPin = s.sclPin ∧ t.sdaPin = s.sdaPin ∧ t.delay = s.delay ∧ t.retryN = s.retryN ∧ t.nBytes = s.nBytes ∧
  t.txmem = s.txmem ∧ t.hRdata = s.hRdata ∧ t.rxRdata = s.rxRdata ∧ t.agenda = s.agenda ∧ t.extPull = s.extPull

/-- The end of a command that was launched with word `w` (`43_host_interface.md` R204): idle pins and position,
`BUSY = 0`, `DONE = 1`, neither refusal flag, the word in `CMD`. -/
def endedWith (w : Word) (t : State) : Prop :=
  t.ended = true ∧ t.cmderr = false ∧ t.cfgerr = false ∧ t.cmd = w

/-- The datapath registers, `PRIM` and `USTEP` overwritten with anything at all (`10_state.md` R25, U10). -/
def withStale (s g : State) : State :=
  { s with
    shreg := g.shreg, bitcnt := g.bitcnt, bytecnt := g.bytecnt, retrycnt := g.retrycnt, ackbit := g.ackbit
    dlycnt := g.dlycnt, prim := g.prim, ustep := g.ustep }

/-- The word of a command word's instruction. -/
def wordOf (i : Instr) : Word :=
  match encode i with
  | .cmd w => w
  | .prim .. => 0
  | .uop _ => 0

/-- The outcome with `CMD` blotted out, to compare two commands that differ in ignored fields only. -/
def blotCmd (o : Out) : Out :=
  match o with
  | .next t => .next { t with cmd := 0 }
  | .fault r => .fault r
  | .refused r => .refused r

/-- The outcome with `LEN` blotted out. -/
def blotLen (o : Out) : Out :=
  match o with
  | .next t => .next { t with nBytes := 0 }
  | .fault r => .fault r
  | .refused r => .refused r

/-! ## The invariant -/

/-- A turn the spec lets an agent take: primitives and micro-operations "cannot be issued by the host"
(`30_encoding.md` R108, `40_pin_microops.md`). -/
def Turn.lawful : Turn → Bool
  | .engine => true
  | .host _ => true
  | .issue (.cmd _) => true
  | .issue (.prim ..) => false
  | .issue (.uop _) => false
  | .rst => true
  | .pull _ => true
  | .release _ => true

/-- The primitives a phase runs (`10_state.md` R27). -/
def Phase.runs : Phase → List Prim
  | .idle => []
  | .start1 => [.start]
  | .addrw => [.wbyte]
  | .ackAddrw => [.wack]
  | .reghi => [.wbyte]
  | .ackReghi => [.wack]
  | .reglo => [.wbyte]
  | .ackReglo => [.wack]
  | .wdata => [.wbyte]
  | .ackWdata => [.wack]
  | .turnp => [.turn]
  | .start2 => [.start]
  | .addrr => [.wbyte]
  | .ackAddrr => [.wack]
  | .rdata => [.rbyte]
  | .mackp => [.mack, .mnack]
  | .stopp => [.stop]

/-- The commands that use a phase (R27), by kind and register-address width. -/
def Phase.usedBy : Phase → Kind → Bool → Bool
  | .idle, _, _ => false
  | .start1, _, _ => true
  | .addrw, _, _ => true
  | .ackAddrw, _, _ => true
  | .reghi, k, w => k != .probe && w
  | .ackReghi, k, w => k != .probe && w
  | .reglo, k, _ => k != .probe
  | .ackReglo, k, _ => k != .probe
  | .wdata, k, _ => k == .write
  | .ackWdata, k, _ => k == .write
  | .turnp, k, _ => k == .read
  | .start2, k, _ => k == .read
  | .addrr, k, _ => k == .read
  | .ackAddrr, k, _ => k == .read
  | .rdata, k, _ => k == .read
  | .mackp, k, _ => k == .read
  | .stopp, _, _ => true

/-- `SCL_OUT` before micro-operation `u` of primitive `p` (R44 I-c; the first start enters with the clock high). -/
def sclBefore (first : Bool) (p : Prim) (u : Nat) : Bool :=
  match p with
  | .start => first || decide (2 ≤ u)
  | .stop => decide (3 ≤ u)
  | .rbyte => decide (4 ≤ u ∧ u ≤ 6)
  | .wack => decide (4 ≤ u ∧ u ≤ 7)
  | .turn => false
  | .wbyte => decide (3 ≤ u ∧ u ≤ 4)
  | .mack => decide (3 ≤ u ∧ u ≤ 4)
  | .mnack => decide (3 ≤ u ∧ u ≤ 4)
  | .wbit => false
  | .rbit => false

/-- `SDA_DIR` before micro-operation `u` of primitive `p` (R44 I-b). -/
def dirBefore (p : Prim) (u : Nat) : Dir :=
  match p with
  | .rbyte => if 2 ≤ u then .inp else .out
  | .wack => if 2 ≤ u then .inp else .out
  | .start => .out
  | .stop => .out
  | .turn => .out
  | .wbyte => .out
  | .mack => .out
  | .mnack => .out
  | .wbit => .out
  | .rbit => .out

/-- `SDA_OUT` before micro-operation `u` of primitive `p`, where the primitive fixes it. -/
def sdaBefore (s : State) (p : Prim) (u : Nat) : Option Bool :=
  match p with
  | .start => some (decide (u ≤ 3))
  | .turn => some true
  | .stop => if u = 0 then none else some false
  | .rbyte => if u = 0 then none else some true
  | .wack => if u = 0 then none else some true
  | .wbyte => if u = 0 then none else some s.dataBit
  | .mack => if u = 0 then none else some false
  | .mnack => if u = 0 then none else some true
  | .wbit => none
  | .rbit => none

/-- The counters before micro-operation `u` of primitive `p` (R24, `42_transactions.md` R180). -/
def countersOk (s : State) (p : Prim) (u : Nat) : Bool :=
  match p with
  | .wbyte => decide (s.bitcnt.toNat < 8)
  | .rbyte => decide (u < 2 ∨ u = 7 ∨ s.bitcnt.toNat < 8)
  | .wack => decide ((u ≠ 5 ∧ u ≠ 6) ∨ s.retrycnt.toNat < s.retryN.toNat)
  | .start => true
  | .stop => true
  | .turn => true
  | .mack => true
  | .mnack => true
  | .wbit => true
  | .rbit => true

/-- A payload phase works on a byte below n (R180 c). -/
def payloadOk (s : State) : Bool :=
  match s.phase with
  | .wdata => decide (s.bytecnt < s.nBytes)
  | .ackWdata => decide (s.bytecnt < s.nBytes)
  | .rdata => decide (s.bytecnt < s.nBytes)
  | .mackp => decide (s.bytecnt < s.nBytes)
  | _ => true

/-- The sequencer, while `BUSY = 1`, stands at a position of the phase graph, the pins being what the position says, and
nobody else pulls the two lines (`60_exceptions.md` R235). -/
def State.running (s : State) : Bool :=
  s.phase.runs.contains s.prim
  && decide (s.ustep.toNat < (primSeq s.prim false).length)
  && s.phase.usedBy s.kind s.w16
  && s.sclOut == sclBefore (decide (s.phase = .start1)) s.prim s.ustep.toNat
  && decide (s.sdaDir = dirBefore s.prim s.ustep.toNat)
  && (match sdaBefore s s.prim s.ustep.toNat with
      | some v => s.sdaOut == v
      | none => true)
  && countersOk s s.prim s.ustep.toNat
  && payloadOk s
  && s.cfgValid && !s.pinsTaken
  && !cmdReserved s.cmd
  && !s.done && !s.cmderr && !s.cfgerr
  && (!s.ackfail || decide (s.phase = .stopp))

/-- The phase that follows the one of `s` (R178): "ok" is `ACKBIT`, i is `BYTECNT`. `IDLE` is left by a launch only. -/
def State.phaseAfter (s : State) : Phase :=
  match s.phase with
  | .idle => .idle
  | .start1 => .addrw
  | .addrw => .ackAddrw
  | .ackAddrw =>
    if s.kind = .probe ∨ s.ackbit = false then .stopp else if s.w16 = true then .reghi else .reglo
  | .reghi => .ackReghi
  | .ackReghi => if s.ackbit = true then .reglo else .stopp
  | .reglo => .ackReglo
  | .ackReglo =>
    if s.ackbit = false then .stopp
    else if s.kind = .read then .turnp
    else if 0 < s.nBytes.toNat then .wdata else .stopp
  | .wdata => .ackWdata
  | .ackWdata =>
    if s.ackbit = false then .stopp else if s.bytecnt.toNat + 1 < s.nBytes.toNat then .wdata else .stopp
  | .turnp => .start2
  | .start2 => .addrr
  | .addrr => .ackAddrr
  | .ackAddrr => if s.ackbit = true ∧ 0 < s.nBytes.toNat then .rdata else .stopp
  | .rdata => .mackp
  | .mackp => if s.bytecnt.toNat + 1 < s.nBytes.toNat then .rdata else .stopp
  | .stopp => .idle

/-- The flags between commands (`10_state.md` R36): at most one error, and none without `DONE`. -/
def State.flagsOk (s : State) : Bool :=
  !(s.ackfail && s.cmderr) && !(s.ackfail && s.cfgerr) && !(s.cmderr && s.cfgerr)
  && (!(s.ackfail || s.cmderr || s.cfgerr) || s.done)

/-- The invariant of the machine: I-a to I-c of R44 and what they rest on, the legal flag combinations of R36, and
the canonical form of both buffers. -/
def State.Inv (s : State) : Bool :=
  s.agenda.all Turn.lawful
  && Memory.wf s.txmem && Memory.wf s.rxmem
  && (if s.busy then s.running else decide (s.phase = .idle) && s.pinsIdle && s.flagsOk)

end Sys2Proof.Machine
end

