-- ==== Sys2Proof/Certificates/Slice0/Obligations.lean ====
section
/-! DEFINITION. The statements for the provers. Each docstring names the rules of spec/ it rests on. -/

open Sys2Proof Sys2Proof.Machine

/-! ## Encoding -/

/-- Decoding an encoded well-formed instruction gives it back (`30_encoding.md` R91, R92, R103, R104, R107, R108). -/
def Obligations.DecodeEncodeAgree : Prop := ∀ i : Instr, i.wf = true → decode (encode i) = .ok i

/-- Every 32-bit word is exactly one command word: encoding what it decodes to gives it back; it is a command unless it
is reserved (R103, R104). -/
def Obligations.EveryCommandWordHasOneMeaning : Prop :=
  ∀ w : Word, encode (decodeCmd w) = .cmd w ∧ (decodeCmd w).wf = true ∧ (decodeCmd w).isCommandWord = true ∧
    (decodeCmd w).isCommand = !cmdReserved w

/-- The worked command words (R111), reserved rows included: fields, word, and `CMDERR` for the reserved ones. -/
def Obligations.WorkedCommandWordsDecode : Prop :=
  decode (.cmd 0x00000200) = .ok (.probe 0x40 0) ∧
  decode (.cmd 0x000003F8) = .ok (.probe 0x7F 0) ∧
  decode (.cmd 0x00000201) = .ok (.wr8 0x40 0x0000) ∧
  decode (.cmd 0x00000602) = .ok (.rd8 0x40 0x0001) ∧
  decode (.cmd 0x00000A02) = .ok (.rd8 0x40 0x0002) ∧
  decode (.cmd 0x000101E1) = .ok (.wr8 0x3C 0x0040) ∧
  decode (.cmd 0x000101E2) = .ok (.rd8 0x3C 0x0040) ∧
  decode (.cmd 0x0048D285) = .ok (.wr16 0x50 0x1234) ∧
  decode (.cmd 0x0048D286) = .ok (.rd16 0x50 0x1234) ∧
  decode (.cmd 0x00000003) = .ok (.reservedOp3 0 0) ∧
  decode (.cmd 0x04000200) = .ok (.reservedRsv 0 0x40 0 1) ∧
  (∀ s : State, s.busy = false →
    (∃ t, exec (.reservedOp3 0 0) s = .next t ∧ t.cmderr = true) ∧
    (∃ t, exec (.reservedRsv 0 0x40 0 1) s = .next t ∧ t.cmderr = true))

/-- The numbers of the primitives and of the micro-operations (R107, R108), word by word. That the operand of `WBIT` and
of `WBYTE` stands beside the number is the model's choice (log 1, DESIGN CHOICE): R108 gives it no place. -/
def Obligations.EnumerationsDecode : Prop :=
  decode (.prim 0 0) = .ok .start ∧ decode (.prim 1 0) = .ok .stop ∧
  decode (.prim 2 0) = .ok (.wbit false) ∧ decode (.prim 2 1) = .ok (.wbit true) ∧ decode (.prim 3 0) = .ok .rbit ∧
  decode (.prim 4 0xA5) = .ok (.wbyte 0xA5) ∧ decode (.prim 5 0) = .ok .rbyte ∧ decode (.prim 6 0) = .ok .wack ∧
  decode (.prim 7 0) = .ok .mack ∧ decode (.prim 8 0) = .ok .mnack ∧ decode (.prim 9 0) = .ok .turn ∧
  decode (.uop 0) = .ok .sdaLo ∧ decode (.uop 1) = .ok .sdaHi ∧ decode (.uop 2) = .ok .sclLo ∧
  decode (.uop 3) = .ok .sclHi ∧ decode (.uop 4) = .ok .dirOut ∧ decode (.uop 5) = .ok .dirIn ∧
  decode (.uop 6) = .ok .wait ∧ decode (.uop 7) = .ok .sample

/-- `PRIM` codes 10 to 15 are no primitive (R108): decoding says so by name, and a turn that issues one is refused. -/
def Obligations.UnusedPrimitiveNumbersAreRefused : Prop :=
  ∀ (code : BitVec 4) (operand : Byte), 10 ≤ code.toNat →
    decode (.prim code operand) = .error (.unusedPrim code) ∧
    ∀ (s : State) (rest : List Turn), s.agenda = .issue (.prim code operand) :: rest →
      step s = .refused (.unusedPrimCode code)

/-- The address+direction byte (`30_encoding.md` R95): `{DEV, rw}`, numerically `(DEV << 1) | rw`, at most 0xFF, and the
rule's examples. -/
def Obligations.AddressByteIsShiftedAddress : Prop :=
  (∀ (dev : DevAddr) (rw : Bool), (adb dev rw).toNat = 2 * dev.toNat + rw.toNat ∧
    (adb dev rw).extractLsb' 1 7 = dev ∧ (adb dev rw).getLsbD 0 = rw ∧
    adb dev rw = (dev.setWidth 8 <<< 1) ||| (if rw then 1 else 0)) ∧
  adb 0x40 false = 0x80 ∧ adb 0x40 true = 0x81 ∧ adb 0x3C false = 0x78 ∧ adb 0x7F true = 0xFF ∧ adb 0x00 false = 0x00

/-! ## The step -/

/-- A step is the next turn of the agenda, in the state with that turn taken off, and adds nothing else: an issued
instruction is `exec` of what it decodes to, a host turn is its access (`43_host_interface.md` R201, R202, R207), the
others are `rst_n` (`70_reset_and_hazards.md` R250) and a line pulled or let go by other means (`60_exceptions.md` R235).
The agenda, that a whole instruction is one turn, and the turns of the lines are the model's choice (logs 2, 3, 17). -/
def Obligations.StepRunsIssuedInstruction : Prop :=
  ∀ (s : State) (rest : List Turn),
    (∀ e i, s.agenda = .issue e :: rest → decode e = .ok i → step s = exec i { s with agenda := rest }) ∧
    (∀ op, s.agenda = .host op :: rest → step s = hostAct op { s with agenda := rest }) ∧
    (∀ idx, s.agenda = .host (.read idx) :: rest → step s = hostRead idx { s with agenda := rest }) ∧
    (∀ idx v, s.agenda = .host (.write idx v) :: rest → step s = hostWrite idx v { s with agenda := rest }) ∧
    (∀ i b, s.agenda = .host (.txWrite i b) :: rest → step s = txWrite i b { s with agenda := rest }) ∧
    (∀ i, s.agenda = .host (.rxRead i) :: rest → step s = rxRead i { s with agenda := rest }) ∧
    (s.agenda = .rst :: rest → step s = .next (resetEngine { s with agenda := rest })) ∧
    (∀ p, s.agenda = .pull p :: rest → step s = pullLine p { s with agenda := rest }) ∧
    (∀ p, s.agenda = .release p :: rest → step s = .next (releaseLine p { s with agenda := rest }))

/-- The engine's turn while `BUSY = 1` is `exec` of the micro-operation the position names, after which the position
moves on (`40_pin_microops.md` R120, `10_state.md` R28). That a step with no turn listed, or with an engine turn first,
is that turn is the model's choice (log 2, DESIGN CHOICE). -/
def Obligations.EngineTurnIssuesNamedMicroOperation : Prop :=
  ∀ (s : State) (u : Uop), s.busy = true → s.pinsTaken = false → s.uopAt = some u →
    (∃ t, exec u.toInstr s = .next t ∧ engineTurn s = afterUop t) ∧
    (s.agenda = [] → step s = engineTurn s) ∧
    (∀ rest, s.agenda = .engine :: rest → step s = engineTurn { s with agenda := rest })

/-- While `BUSY = 0` the engine does nothing (`60_exceptions.md` R245). -/
def Obligations.IdleEngineDoesNothing : Prop :=
  ∀ s : State, s.busy = false → engineTurn s = .next s ∧ (s.agenda = [] → step s = .next s)

/-! ## Level 0 -/

/-- The four latch micro-operations (`40_pin_microops.md` R122 to R125): one latch, one token, nothing else; a data latch
moves `SDA_EFF` only in driven mode, a clock latch is the clock line's pull. -/
def Obligations.LatchMicroOperations : Prop :=
  ∀ s : State,
    exec .sdaLo s = .next { s with sdaOut := false, trace := s.trace ++ [.d0] } ∧
    exec .sdaHi s = .next { s with sdaOut := true, trace := s.trace ++ [.d1] } ∧
    exec .sclLo s = .next { s with sclOut := false, trace := s.trace ++ [.c0] } ∧
    exec .sclHi s = .next { s with sclOut := true, trace := s.trace ++ [.c1] } ∧
    (s.sdaDir = .out → ∀ env, State.sdaLine { s with sdaOut := false, trace := s.trace ++ [.d0] } env = false) ∧
    (s.sdaDir = .inp → ∀ env, State.sdaLine { s with sdaOut := false, trace := s.trace ++ [.d0] } env = env) ∧
    (∀ env, State.sdaLine { s with sdaOut := true, trace := s.trace ++ [.d1] } env = env)

/-- The two direction micro-operations (R126, R129): the direction bit, one token, nothing else; in input mode the line
is released, and going back to driven mode with the latch at 1 moves nothing. -/
def Obligations.DirectionMicroOperations : Prop :=
  ∀ s : State,
    exec .dirOut s = .next { s with sdaDir := .out, trace := s.trace ++ [.o] } ∧
    exec .dirIn s = .next { s with sdaDir := .inp, trace := s.trace ++ [.i] } ∧
    State.sdaEff { s with sdaDir := .inp, trace := s.trace ++ [.i] } = true ∧
    (s.sdaOut = true → State.sdaEff { s with sdaDir := .out, trace := s.trace ++ [.o] } = s.sdaEff)

/-- `WAIT` (R127): the delay counter has run to 0, one token, nothing else, whatever `DELAY` is; `TURN`
(`41_bus_primitives.md` R150) is one `WAIT`. -/
def Obligations.WaitOnlyRunsDelayCounter : Prop :=
  ∀ s : State,
    exec .wait s = .next { s with dlycnt := 0, trace := s.trace ++ [.w] } ∧
    exec .turn s = .next { s with dlycnt := 0, trace := s.trace ++ [.w] }

/-- `SAMPLE` (R128): the result is `line(SDA_PIN) = SDA_EFF and env_sda`; no latch changes; in input mode the result is
the environment's. In states where the host or other hardware pulls `SDA_PIN`, or the two pins are equal, the spec is
silent, and that the result is this formula, those pulls left out, is the model's choice (log 31, DESIGN CHOICE). -/
def Obligations.SampleReadsDataLine : Prop :=
  ∀ s : State,
    exec .sample s = .next { s with
      bit := s.sdaEff && s.envAt 0
      answers := s.answers.tail
      sampleNo := s.sampleNo + 1
      trace := s.trace ++ [if s.sdaEff && s.envAt 0 then .s1 else .s0] } ∧
    (s.sdaDir = .inp → (s.sdaEff && s.envAt 0) = s.envAt 0)

/-! ## Level 1 -/

/-- `START` (`41_bus_primitives.md` R141): the trace `D1 C1 w D0 w C0`, both latches 0 after it, no sample taken, nothing
else changed; if the data line was released and the clock was high, or was low, the engine-output trace has exactly one
start condition and no stop condition, and the pin-change trace (`00_scope.md` R13) is the clock's rise if it was low,
the data line's fall, the clock's fall. -/
def Obligations.StartSequence : Prop :=
  ∀ s : State,
    exec .start s = .next { s with
      sclOut := false, sdaOut := false, dlycnt := 0
      trace := s.trace ++ [.d1, .c1, .w, .d0, .w, .c0] } ∧
    (s.sdaDir = .out → s.sdaOut = true → countStarts s.pins startToks = 1 ∧ countStops s.pins startToks = 0 ∧
      pinChanges s.pins startToks = (if s.sclOut then [] else [(true, true)]) ++ [(true, false), (false, false)])

/-- `STOP` (R142): the trace `D0 w C1 w D1`, both latches 1 after it, nothing else changed; the clock having been low, one
stop condition, and no start condition, in its last token, and the pin-change trace (`00_scope.md` R13) is the data
line's fall if it was released, the clock's rise, the data line's rise. -/
def Obligations.StopSequence : Prop :=
  ∀ s : State,
    exec .stop s = .next { s with
      sclOut := true, sdaOut := true, dlycnt := 0
      trace := s.trace ++ [.d0, .w, .c1, .w, .d1] } ∧
    (s.sdaDir = .out → s.sclOut = false → countStops s.pins stopToks = 1 ∧ countStarts s.pins stopToks = 0 ∧
      countStops s.pins [.d0, .w, .c1, .w] = 0 ∧
      pinChanges s.pins stopToks = (if s.sdaOut then [(false, false)] else []) ++ [(true, false), (true, true)])

/-- `WBIT v`, `MACK = WBIT 0`, `MNACK = WBIT 1` (R143, R148, R149): `Dv w C1 w C0`, `SCL_OUT = 0`, `SDA_OUT = v`. -/
def Obligations.BitWriters : Prop :=
  ∀ (s : State) (v : Bool),
    exec (.wbit v) s = .next { s with
      sclOut := false, sdaOut := v, dlycnt := 0
      trace := s.trace ++ [if v then .d1 else .d0, .w, .c1, .w, .c0] } ∧
    exec .mack s = exec (.wbit false) s ∧ exec .mnack s = exec (.wbit true) s ∧
    (∃ t, exec .mack s = .next t ∧ t.sdaOut = false) ∧ (∃ t, exec .mnack s = .next t ∧ t.sdaOut = true)

/-- `RBIT` (R144): `w C1 w sB C0`, B being `SDA_EFF and env_sda` at the sample, in input mode the environment's. That it
is this where the host or other hardware pulls `SDA_PIN`, or with two equal pins, is the model's choice (log 31, DESIGN
CHOICE). -/
def Obligations.BitReader : Prop :=
  ∀ s : State,
    exec .rbit s = .next { s with
      sclOut := false, dlycnt := 0, bit := s.sdaEff && s.envAt 0, answers := s.answers.tail
      sampleNo := s.sampleNo + 1
      trace := s.trace ++ [.w, .c1, .w, if s.sdaEff && s.envAt 0 then .s1 else .s0, .c0] } ∧
    (s.sdaDir = .inp → (s.sdaEff && s.envAt 0) = s.envAt 0)

/-- `WBYTE b` (R145): eight groups `Dv w C1 w C0`, bit 7 first, 40 micro-operations of which 16 are `WAIT`; `SCL_OUT = 0`,
`SDA_OUT = b[0]`, `BITCNT = 8`. -/
def Obligations.WriteByteSendsMostSignificantFirst : Prop :=
  ∀ (s : State) (b : Byte),
    ∃ tr : List Tok,
      exec (.wbyte b) s = .next { s with
        shreg := b, bitcnt := 8, sclOut := false, sdaOut := b.getLsbD 0, dlycnt := 0, trace := s.trace ++ tr } ∧
      tr.length = 40 ∧ tr.count .w = 16 ∧
      ∀ i < 8, (tr.drop (5 * i)).take 5 = [if b.getLsbD (7 - i) then .d1 else .d0, .w, .c1, .w, .c0]

/-- `RBYTE` (R146): `D1 I`, eight groups `w C1 w sB C0`, `O`: 43 micro-operations, 16 `WAIT`, 8 `SAMPLE`; bit `7 - i` of the
result is the `i`-th answer, so 0xFF if the environment does not pull; `SCL_OUT = 0`, `SDA_OUT = 1`, `SDA_DIR = OUT`. That it
reads the environment alone where the host or other hardware pulls `SDA_PIN`, or with two equal pins, is the model's
choice (log 31, DESIGN CHOICE). -/
def Obligations.ReadByteAssemblesMostSignificantFirst : Prop :=
  ∀ s : State,
    ∃ (tr : List Tok) (b : Byte),
      exec .rbyte s = .next { s with
        shreg := b, bitcnt := 8, sclOut := false, sdaOut := true, sdaDir := .out, dlycnt := 0, bit := s.envAt 7
        answers := s.answers.drop 8, sampleNo := s.sampleNo + 8, trace := s.trace ++ tr } ∧
      (∀ i < 8, b.getLsbD (7 - i) = s.envAt i) ∧
      ((∀ i < 8, s.envAt i = true) → b = 0xFF) ∧
      tr.length = 43 ∧ tr.count .w = 16 ∧ tr.count .s0 + tr.count .s1 = 8 ∧
      tr.take 2 = [.d1, .i] ∧ tr.drop 42 = [.o] ∧
      ∀ i < 8, (tr.drop (2 + 5 * i)).take 5 = [.w, .c1, .w, if s.envAt i then .s1 else .s0, .c0]

/-- `WACK` (R147) when sample `k`, within the bound, is the first to read 0: `k` samples, result 1, `6 + 2k`
micro-operations, the clock lowered and driven mode restored. That it samples the environment alone where the host
or other hardware pulls `SDA_PIN`, or with two equal pins, is the model's choice (log 31, DESIGN CHOICE). -/
def Obligations.WackStopsAtFirstZero : Prop :=
  ∀ (s : State) (k : Nat), 1 ≤ k → k ≤ s.retryN.toNat → (∀ i < k - 1, s.envAt i = true) → s.envAt (k - 1) = false →
    ∃ tr : List Tok,
      exec .wack s = .next { s with
        sclOut := false, sdaOut := true, sdaDir := .out, dlycnt := 0, bit := false, ackbit := true
        retrycnt := BitVec.ofNat 8 k, answers := s.answers.drop k, sampleNo := s.sampleNo + k
        trace := s.trace ++ tr } ∧
      tr = [.d1, .i, .w, .c1, .w] ++ (List.replicate (k - 1) [Tok.s1, Tok.w]).flatten ++ [.s0, .c0, .o] ∧
      tr.length = 6 + 2 * k ∧ tr.count .w = 2 + (k - 1) ∧ tr.count .s0 + tr.count .s1 = k

/-- `WACK` (R147) when all `N` samples read 1: `N` samples and no more, result 0, the same end. That it samples
the environment alone where the host or other hardware pulls `SDA_PIN`, or with two equal pins, is the model's choice
(log 31, DESIGN CHOICE). -/
def Obligations.WackGivesUpAfterBound : Prop :=
  ∀ s : State, 1 ≤ s.retryN.toNat → (∀ i < s.retryN.toNat, s.envAt i = true) →
    ∃ tr : List Tok,
      exec .wack s = .next { s with
        sclOut := false, sdaOut := true, sdaDir := .out, dlycnt := 0, bit := true, ackbit := false
        retrycnt := s.retryN, answers := s.answers.drop s.retryN.toNat, sampleNo := s.sampleNo + s.retryN.toNat
        trace := s.trace ++ tr } ∧
      tr = [.d1, .i, .w, .c1, .w] ++ (List.replicate (s.retryN.toNat - 1) [Tok.s1, Tok.w]).flatten ++ [.s1, .c0, .o] ∧
      tr.length = 6 + 2 * s.retryN.toNat ∧ tr.count .s0 = 0 ∧ tr.count .s1 = s.retryN.toNat

/-! ## Launch, refusals, completion -/

/-- The launch (`43_host_interface.md` R203): a write of `CMD`, in the rule's order, in one step. Accepted, the engine is
busy at the first micro-operation of `START`, no flag set; refused, it is not busy, `DONE` and one error flag are set,
and nothing else has happened. A read of `STATUS` then sees one or the other. The two lines are taken to be the
engine's own where it is accepted (`20_memory.md` R65); otherwise LinesDrivenByOthersFault. -/
def Obligations.LaunchDecidesInOrder : Prop :=
  ∀ (s : State) (w : Word),
    (s.busy = true → hostWrite 3 w s = .fault .reentrantLaunch) ∧
    (s.busy = false → cmdReserved w = true → hostWrite 3 w s = .next { s with
      cmd := w, done := true, ackfail := false, cmderr := true, cfgerr := false, rxCount := 0 }) ∧
    (s.busy = false → cmdReserved w = false → s.cfgValid = false → hostWrite 3 w s = .next { s with
      cmd := w, done := true, ackfail := false, cmderr := false, cfgerr := true, rxCount := 0 }) ∧
    (s.busy = false → cmdReserved w = false → s.cfgValid = true → s.pinsTaken = false → hostWrite 3 w s = .next { s with
      cmd := w, busy := true, done := false, ackfail := false, cmderr := false, cfgerr := false, rxCount := 0
      phase := .start1, prim := .start, ustep := 0 }) ∧
    (cmdReserved w = (cmdRsv w != 0 || cmdOp w == 3 || cmdOp w == 4 || cmdOp w == 7)) ∧
    (∀ t, hostWrite 3 w s = .next t → t.statusWord = 1 ∨ t.statusWord = 0x0A ∨ t.statusWord = 0x12)

/-- A reserved command word (`30_encoding.md` R104), `BUSY = 0`: stored and readable, `CMDERR` and `DONE` set, the other
flags and `RXCOUNT` cleared, and nothing else changed: no pin activity, no position, no buffer. -/
def Obligations.ReservedWordsAreRefused : Prop :=
  ∀ (s : State) (op : BitVec 3) (dev : DevAddr) (reg : RegAddr) (rsv : BitVec 6), s.busy = false →
    let refusedAs (w : Word) : State :=
      { s with cmd := w, done := true, ackfail := false, cmderr := true, cfgerr := false, rxCount := 0 }
    exec (.reservedOp3 dev reg) s = .next (refusedAs (cmdWord 0 reg dev 3)) ∧
    exec (.reservedOp4 dev reg) s = .next (refusedAs (cmdWord 0 reg dev 4)) ∧
    exec (.reservedOp7 dev reg) s = .next (refusedAs (cmdWord 0 reg dev 7)) ∧
    (rsv ≠ 0 → exec (.reservedRsv op dev reg rsv) s = .next (refusedAs (cmdWord rsv reg dev op))) ∧
    (∀ w, (refusedAs w).hostReg 3 = w ∧ (refusedAs w).statusWord = 0x0A)

/-- `CFGVALID` (`10_state.md` R39) and the refusal of a command without it (`60_exceptions.md` R234): `CFGERR` and `DONE`,
the word stored, nothing else changed. -/
def Obligations.InvalidConfigurationIsRefused : Prop :=
  (∀ s : State, s.cfgValid = true ↔ s.sclPin ≠ s.sdaPin ∧ s.sclPin.toNat < Config.npins ∧
    s.sdaPin.toNat < Config.npins ∧ 1 ≤ s.retryN.toNat) ∧
  ∀ (s : State) (i : Instr), i.isCommand = true → s.busy = false → s.cfgValid = false →
    exec i s = .next { s with
      cmd := wordOf i, done := true, ackfail := false, cmderr := false, cfgerr := true, rxCount := 0 }

/-- A command word launched while `BUSY = 1` (`43_host_interface.md` R206, `60_exceptions.md` R235), whatever it is. -/
def Obligations.ReentrantLaunchFaults : Prop :=
  ∀ (s : State) (i : Instr), i.isCommandWord = true → s.busy = true → exec i s = .fault .reentrantLaunch

/-- Lines pulled by the host or other hardware (R235, reason PINS_DRIVEN_BY_OTHERS; `20_memory.md` R65): a fault of the
command or of the write of `CMD` that would make `BUSY` 1, of an engine turn, and of the pull itself while `BUSY = 1`.
While `BUSY = 0`, or on another line, a pull adds its line to those pulled, and letting go takes it off; nothing else
changes. When the fault is raised, and the list of lines, are the model's choice (log 17, DESIGN CHOICE). -/
def Obligations.LinesDrivenByOthersFault : Prop :=
  (∀ (s : State) (i : Instr), i.isCommand = true → s.busy = false → s.cfgValid = true → s.pinsTaken = true →
    exec i s = .fault .pinsDrivenByOthers) ∧
  (∀ (s : State) (w : Word), s.busy = false → cmdReserved w = false → s.cfgValid = true → s.pinsTaken = true →
    hostWrite 3 w s = .fault .pinsDrivenByOthers) ∧
  (∀ s : State, s.busy = true → s.pinsTaken = true → engineTurn s = .fault .pinsDrivenByOthers) ∧
  (∀ (s : State) (p : Nat), s.busy = true → (p = s.sclPin.toNat ∨ p = s.sdaPin.toNat) →
    pullLine p s = .fault .pinsDrivenByOthers) ∧
  (∀ (s : State) (p : Nat), s.busy = false ∨ (p ≠ s.sclPin.toNat ∧ p ≠ s.sdaPin.toNat ∧ s.pinsTaken = false) →
    ∃ l, pullLine p s = .next { s with extPull := l } ∧ ∀ q, q ∈ l ↔ q = p ∨ q ∈ s.extPull) ∧
  (∀ (s : State) (p : Nat), ∃ l, releaseLine p s = { s with extPull := l } ∧ ∀ q, q ∈ l ↔ q ≠ p ∧ q ∈ s.extPull)

/-! ## Level 2 -/

/-- `PROBE` (`42_transactions.md` R171): `START`, the address+write slot, `STOP`; `ACKFAIL = 0` iff one of the first `N`
samples reads 0, at sample `k`; both buffers untouched, `RXCOUNT = 0`. -/
def Obligations.ProbeAnswersPresence : Prop :=
  ∀ (s : State) (dev : DevAddr) (reg : RegAddr), s.ready = true →
    (∀ k, 1 ≤ k → k ≤ s.retryN.toNat → (∀ i < k - 1, s.envAt i = true) → s.envAt (k - 1) = false →
      ∃ t, exec (.probe dev reg) s = .next t ∧ t.ackfail = false ∧ endedWith (wordOf (.probe dev reg)) t ∧
        sameOutside s t ∧ t.rxmem = s.rxmem ∧ t.rxCount = 0 ∧
        t.answers = s.answers.drop k ∧ t.sampleNo = s.sampleNo + k ∧
        t.trace = s.trace ++ (startToks ++ byteToks (adb dev false) ++ ackToks k ++ stopToks)) ∧
    ((∀ i < s.retryN.toNat, s.envAt i = true) →
      ∃ t, exec (.probe dev reg) s = .next t ∧ t.ackfail = true ∧ endedWith (wordOf (.probe dev reg)) t ∧
        sameOutside s t ∧ t.rxmem = s.rxmem ∧ t.rxCount = 0 ∧
        t.answers = s.answers.drop s.retryN.toNat ∧ t.sampleNo = s.sampleNo + s.retryN.toNat ∧
        t.trace = s.trace ++ (startToks ++ byteToks (adb dev false) ++ nackToks s.retryN.toNat ++ stopToks))

/-- `WR8` and `WR16` when every slot is acknowledged (R172, R173, `30_encoding.md` R99, R100): the address slot, the one or
two register slots, high byte first, the `n` payload bytes in order, each slot polled once per listed count, `STOP`;
Success; `TXMEM`, `RXMEM` untouched, `RXCOUNT = 0`. `n = 0` is included. -/
def Obligations.WriteDeliversPayload : Prop :=
  ∀ (s : State) (dev : DevAddr) (reg : RegAddr) (bs : List Byte) (ks : List Nat), s.ready = true →
    bs.length = s.nBytes.toNat → s.holds bs → s.pollsOk ks → s.willAnswer (ackAnswers ks) →
    (ks.length = 2 + bs.length →
      ∃ t, exec (.wr8 dev reg) s = .next t ∧ t.ackfail = false ∧ endedWith (wordOf (.wr8 dev reg)) t ∧
        sameOutside s t ∧ t.rxmem = s.rxmem ∧ t.rxCount = 0 ∧
        t.answers = s.answers.drop (ackAnswers ks).length ∧
        t.trace = s.trace ++ (startToks ++ slotsToks ((adb dev false :: regLo reg :: bs).zip ks) ++ stopToks)) ∧
    (ks.length = 3 + bs.length →
      ∃ t, exec (.wr16 dev reg) s = .next t ∧ t.ackfail = false ∧ endedWith (wordOf (.wr16 dev reg)) t ∧
        sameOutside s t ∧ t.rxmem = s.rxmem ∧ t.rxCount = 0 ∧
        t.answers = s.answers.drop (ackAnswers ks).length ∧
        t.trace = s.trace ++
          (startToks ++ slotsToks ((adb dev false :: regHi reg :: regLo reg :: bs).zip ks) ++ stopToks))

/-- `WR8` and `WR16` when the slots before slot `j` are acknowledged and slot `j` is not (`60_exceptions.md` R232): slot `j`
is sent in full with `N` samples, no later slot is started, `STOP` closes the frame, `ACKFAIL = 1`. Only the payload
bytes up to slot `j` need have been written. -/
def Obligations.WriteAbortsAtFailedSlot : Prop :=
  ∀ (s : State) (dev : DevAddr) (reg : RegAddr) (bs : List Byte) (ks : List Nat), s.ready = true →
    bs.length ≤ s.nBytes.toNat → s.holds bs → s.pollsOk ks →
    s.willAnswer (ackAnswers ks ++ List.replicate s.retryN.toNat true) →
    (∀ b, (adb dev false :: regLo reg :: bs)[ks.length]? = some b →
      ∃ t, exec (.wr8 dev reg) s = .next t ∧ t.ackfail = true ∧ endedWith (wordOf (.wr8 dev reg)) t ∧
        sameOutside s t ∧ t.rxmem = s.rxmem ∧ t.rxCount = 0 ∧
        t.trace = s.trace ++ (startToks ++ slotsToks ((adb dev false :: regLo reg :: bs).zip ks) ++
          byteToks b ++ nackToks s.retryN.toNat ++ stopToks)) ∧
    (∀ b, (adb dev false :: regHi reg :: regLo reg :: bs)[ks.length]? = some b →
      ∃ t, exec (.wr16 dev reg) s = .next t ∧ t.ackfail = true ∧ endedWith (wordOf (.wr16 dev reg)) t ∧
        sameOutside s t ∧ t.rxmem = s.rxmem ∧ t.rxCount = 0 ∧
        t.trace = s.trace ++ (startToks ++ slotsToks ((adb dev false :: regHi reg :: regLo reg :: bs).zip ks) ++
          byteToks b ++ nackToks s.retryN.toNat ++ stopToks))

/-- A write that comes to a payload byte nothing has written faults (`20_memory.md` R64), after every slot before it was
acknowledged. -/
def Obligations.WriteOfUnwrittenByteFaults : Prop :=
  ∀ (s : State) (dev : DevAddr) (reg : RegAddr) (bs : List Byte) (ks : List Nat), s.ready = true →
    bs.length < s.nBytes.toNat → s.holds bs → Memory.read s.txmem bs.length = none → s.pollsOk ks →
    s.willAnswer (ackAnswers ks) →
    (ks.length = 2 + bs.length → exec (.wr8 dev reg) s = .fault .txUnwritten) ∧
    (ks.length = 3 + bs.length → exec (.wr16 dev reg) s = .fault .txUnwritten)

/-- `RD8` and `RD16` when every addressing slot is acknowledged (`42_transactions.md` R174, R175, `30_encoding.md` R101,
R102): the register is selected, `TURN`, the repeated start, the address+read slot, then a read slot for each of the
`n` bytes, `MACK` after each but the last and `MNACK` after the last; `RXMEM[i]` is the byte of the `i`-th eight answers,
the other indexes keep what they held, `RXCOUNT = n`, Success. `n = 0` and `n = 1` are included. -/
def Obligations.ReadFillsReceiveBuffer : Prop :=
  ∀ (s : State) (dev : DevAddr) (reg : RegAddr) (data : List (List Bool)) (ks : List Nat) (k : Nat), s.ready = true →
    data.length = s.nBytes.toNat → (∀ bs ∈ data, bs.length = 8) → s.pollsOk (ks ++ [k]) →
    s.willAnswer (ackAnswers (ks ++ [k]) ++ data.flatten) →
    (ks.length = 2 →
      ∃ t, exec (.rd8 dev reg) s = .next t ∧ t.ackfail = false ∧ endedWith (wordOf (.rd8 dev reg)) t ∧
        sameOutside s t ∧ t.rxCount = s.nBytes ∧
        (∀ i (h : i < data.length), Memory.read t.rxmem i = some (byteOfBits data[i])) ∧
        (∀ a, s.nBytes.toNat ≤ a → Memory.read t.rxmem a = Memory.read s.rxmem a) ∧
        t.trace = s.trace ++ (startToks ++ slotsToks ([adb dev false, regLo reg].zip ks) ++ [.w] ++ startToks ++
          slotsToks [(adb dev true, k)] ++ readSlotsToks data ++ stopToks)) ∧
    (ks.length = 3 →
      ∃ t, exec (.rd16 dev reg) s = .next t ∧ t.ackfail = false ∧ endedWith (wordOf (.rd16 dev reg)) t ∧
        sameOutside s t ∧ t.rxCount = s.nBytes ∧
        (∀ i (h : i < data.length), Memory.read t.rxmem i = some (byteOfBits data[i])) ∧
        (∀ a, s.nBytes.toNat ≤ a → Memory.read t.rxmem a = Memory.read s.rxmem a) ∧
        t.trace = s.trace ++ (startToks ++ slotsToks ([adb dev false, regHi reg, regLo reg].zip ks) ++ [.w] ++ startToks ++
          slotsToks [(adb dev true, k)] ++ readSlotsToks data ++ stopToks))

/-- `RD8` and `RD16` when an addressing slot is not acknowledged (`60_exceptions.md` R232): a register-select slot, before
any repeated start, or the address+read slot, after it; `ACKFAIL = 1`, `RXMEM` untouched, `RXCOUNT = 0`. -/
def Obligations.ReadAbortsInAddressing : Prop :=
  ∀ (s : State) (dev : DevAddr) (reg : RegAddr) (ks : List Nat), s.ready = true → s.pollsOk ks →
    s.willAnswer (ackAnswers ks ++ List.replicate s.retryN.toNat true) →
    let failed (i : Instr) (tr : List Tok) : Prop :=
      ∃ t, exec i s = .next t ∧ t.ackfail = true ∧ endedWith (wordOf i) t ∧ sameOutside s t ∧ t.rxmem = s.rxmem ∧
        t.rxCount = 0 ∧ t.trace = s.trace ++ (tr ++ nackToks s.retryN.toNat ++ stopToks)
    (∀ b, [adb dev false, regLo reg][ks.length]? = some b → failed (.rd8 dev reg)
      (startToks ++ slotsToks ([adb dev false, regLo reg].zip ks) ++ byteToks b)) ∧
    (ks.length = 2 → failed (.rd8 dev reg)
      (startToks ++ slotsToks ([adb dev false, regLo reg].zip ks) ++ [.w] ++ startToks ++ byteToks (adb dev true))) ∧
    (∀ b, [adb dev false, regHi reg, regLo reg][ks.length]? = some b → failed (.rd16 dev reg)
      (startToks ++ slotsToks ([adb dev false, regHi reg, regLo reg].zip ks) ++ byteToks b)) ∧
    (ks.length = 3 → failed (.rd16 dev reg)
      (startToks ++ slotsToks ([adb dev false, regHi reg, regLo reg].zip ks) ++ [.w] ++ startToks ++
        byteToks (adb dev true)))

/-- Every command that begins ends, whatever the environment answers (`00_scope.md` R17, `42_transactions.md` R177, R178):
`PROBE`, `RD8`, `RD16` always; `WR8`, `WR16` when the payload has been written. -/
def Obligations.CommandsEndInEveryEnvironment : Prop :=
  ∀ (s : State) (dev : DevAddr) (reg : RegAddr), s.ready = true →
    (∃ t, exec (.probe dev reg) s = .next t ∧ endedWith (wordOf (.probe dev reg)) t) ∧
    (∃ t, exec (.rd8 dev reg) s = .next t ∧ endedWith (wordOf (.rd8 dev reg)) t) ∧
    (∃ t, exec (.rd16 dev reg) s = .next t ∧ endedWith (wordOf (.rd16 dev reg)) t) ∧
    ((∀ i < s.nBytes.toNat, Memory.read s.txmem i ≠ none) →
      (∃ t, exec (.wr8 dev reg) s = .next t ∧ endedWith (wordOf (.wr8 dev reg)) t) ∧
      (∃ t, exec (.wr16 dev reg) s = .next t ∧ endedWith (wordOf (.wr16 dev reg)) t))

/-- The frame of every command word that answers a next state: configuration, `LEN`, `TXMEM`, the ports and the other
agents unchanged; `RXMEM` unchanged but by a successful read, and then only below `n`; `RXCOUNT` is `n` after a
successful read, else 0 (`10_state.md` R37, `20_memory.md` R63, `60_exceptions.md` R232 to R234). -/
def Obligations.CommandFrame : Prop :=
  ∀ (s t : State) (i : Instr), i.isCommandWord = true → i.wf = true → exec i s = .next t →
    sameOutside s t ∧ t.cmd = wordOf i ∧ t.busy = false ∧ t.done = true ∧
    (∀ a, s.nBytes.toNat ≤ a → Memory.read t.rxmem a = Memory.read s.rxmem a) ∧
    (i.isRead = true ∧ t.ackfail = false ∧ t.cfgerr = false → t.rxCount = s.nBytes ∧
      ∀ a < s.nBytes.toNat, Memory.read t.rxmem a ≠ none) ∧
    (i.isRead = false ∨ t.ackfail = true ∨ t.cfgerr = true → t.rxmem = s.rxmem ∧ t.rxCount = 0)

/-- Ignored fields (`30_encoding.md` R105): `REG` and `LEN` by `PROBE`, `REG[15:8]` by `WR8` and `RD8`; they change `CMD`
and `LEN` themselves and nothing else, not even the outcome's kind. -/
def Obligations.IgnoredFieldsHaveNoEffect : Prop :=
  ∀ (s : State) (dev : DevAddr) (reg reg' : RegAddr) (n : Len),
    blotCmd (exec (.probe dev reg) s) = blotCmd (exec (.probe dev reg') s) ∧
    blotLen (exec (.probe dev reg) s) = blotLen (exec (.probe dev reg) { s with nBytes := n }) ∧
    (regLo reg = regLo reg' →
      blotCmd (exec (.wr8 dev reg) s) = blotCmd (exec (.wr8 dev reg') s) ∧
      blotCmd (exec (.rd8 dev reg) s) = blotCmd (exec (.rd8 dev reg') s))

/-- No command reads a datapath register, `PRIM` or `USTEP` before it has written it (`10_state.md` R25): whatever they held
at the launch, the outcome is the same. -/
def Obligations.StaleDatapathIsNeverRead : Prop :=
  ∀ (s g : State) (i : Instr), i.isCommand = true → s.ready = true → exec i (withStale s g) = exec i s

/-! ## Traces -/

/-- `STOP` on every path (`42_transactions.md` R177, R183 b): a command that begins with the pins idle ends with `STOP`,
which holds the only stop condition of its trace; a refused command issues nothing. -/
def Obligations.OnlyStopIsTheLast : Prop :=
  (∀ (s t : State) (i : Instr), i.isCommand = true → s.ready = true → s.pinsIdle = true → exec i s = .next t →
    t.pinsIdle = true ∧ ∃ tr, t.trace = s.trace ++ (tr ++ stopToks) ∧ countStops s.pins tr = 0 ∧
      countStops s.pins (tr ++ stopToks) = 1) ∧
  (∀ (s t : State) (i : Instr), i.isCommandWord = true → exec i s = .next t → (t.cmderr = true ∨ t.cfgerr = true) →
    t.trace = s.trace ∧ t.pins = s.pins)

/-- Start conditions (R183 a): one, and a second exactly in a read that gets to its repeated start, which every
successful read does. `ks` are the samples at which the slots before the failed one were acknowledged: a failed read
has two start conditions exactly if all its register-select slots were, so that it failed in the address+read slot. -/
def Obligations.StartConditionsCounted : Prop :=
  ∀ (s t : State) (i : Instr), i.isCommand = true → s.ready = true → s.pinsIdle = true → exec i s = .next t →
    ∃ tr, t.trace = s.trace ++ tr ∧
      (i.isRead = false → countStarts s.pins tr = 1) ∧
      (i.isRead = true → t.ackfail = false → countStarts s.pins tr = 2) ∧
      (i.isRead = true → t.ackfail = true →
        ∃ ks, s.pollsOk ks ∧ s.willAnswer (ackAnswers ks ++ List.replicate s.retryN.toNat true) ∧
          ks.length ≤ selectSlots i ∧ countStarts s.pins tr = if ks.length = selectSlots i then 2 else 1)

/-- No glitch shorter than a delay unit (R183 c, `41_bus_primitives.md` R153, `10_state.md` R44 I-f): between two changes of
`SCL_OUT`, and between two of `SDA_EFF`, at least one `WAIT`, even if both lines changed just before the command. -/
def Obligations.EdgesAreSeparatedByWaits : Prop :=
  ∀ (s t : State) (i : Instr), i.isCommand = true → s.ready = true → s.pinsIdle = true → exec i s = .next t →
    ∃ tr, t.trace = s.trace ++ tr ∧ edgesApart s.pins false false tr = true

/-- The sizes of the commands in micro-operations, `WAIT`s and `SAMPLE`s, every acknowledge at its first sample (R182). -/
def Obligations.SizesWithImmediateAcknowledge : Prop :=
  let size (i : Instr) (s : State) (m w p : Nat) : Prop :=
    ∃ t tr, exec i s = .next t ∧ t.trace = s.trace ++ tr ∧ tr.length = m ∧ tr.count .w = w ∧
      tr.count .s0 + tr.count .s1 = p
  ∀ (s : State) (dev : DevAddr) (reg : RegAddr) (n : Nat), s.ready = true → s.nBytes.toNat = n →
    (s.envAt 0 = false → size (.probe dev reg) s 59 22 1) ∧
    ((∀ j < 2 + n, s.envAt j = false) → (∀ i < n, Memory.read s.txmem i ≠ none) →
      size (.wr8 dev reg) s (107 + 48 * n) (40 + 18 * n) (2 + n)) ∧
    ((∀ j < 3 + n, s.envAt j = false) → (∀ i < n, Memory.read s.txmem i ≠ none) →
      size (.wr16 dev reg) s (155 + 48 * n) (58 + 18 * n) (3 + n)) ∧
    ((∀ j < 3, s.envAt j = false) → size (.rd8 dev reg) s (162 + 48 * n) (61 + 18 * n) (3 + 8 * n)) ∧
    ((∀ j < 4, s.envAt j = false) → size (.rd16 dev reg) s (210 + 48 * n) (79 + 18 * n) (4 + 8 * n))

/-- No command is longer than its worst case (R178, R182): every slot polled `N` times. -/
def Obligations.CommandLengthIsBounded : Prop :=
  ∀ (s t : State) (i : Instr), i.isCommand = true → s.ready = true → exec i s = .next t →
    t.trace.length ≤ s.trace.length + 18 + (4 + s.nBytes.toNat) * (48 + 2 * s.retryN.toNat)

/-! ## The sequencer -/

/-- The machine one micro-operation at a time, from the host's write of the command word, comes to the outcome that the
command's pseudocode gives, in one step for the launch and one for each micro-operation (`40_pin_microops.md` R120,
`43_host_interface.md` R203, `42_transactions.md` R171 to R175, R178). That the host's write stands on an agenda, and that
the whole command is one step, are the model's choice (logs 2, 3, DESIGN CHOICE). -/
def Obligations.MicroStepsRefineWholeCommand : Prop :=
  ∀ (s : State) (i : Instr), i.isCommandWord = true → i.wf = true → s.agenda = [] →
    ∃ k, Host.Core.run Sys2Proof.core k { s with agenda := [.host (.write 3 (wordOf i))] } = exec i s ∧
      ∀ t, exec i s = .next t → s.trace.length + k = t.trace.length + 1

/-- The phase graph (`42_transactions.md` R178): an engine turn stays in its phase, or, its micro-operation being the last of
the primitive, goes to the phase the graph gives; a payload phase is entered at index 0 or at the next one, and leaving
`RDATA` stores byte i and sets `RXCOUNT` to i + 1. Which `USTEP` is the last is the model's numbering, the steps in which
the updates are made are its choice (logs 15, 16, DESIGN CHOICE). -/
def Obligations.PhaseGraphIsFollowed : Prop :=
  ∀ s t : State, s.Inv = true → s.busy = true → engineTurn s = .next t →
    (t.phase = s.phase ∧ t.rxmem = s.rxmem ∧ t.rxCount = s.rxCount ∧ t.bytecnt = s.bytecnt) ∨
    (s.ustep.toNat + 1 = (primSeq s.prim false).length ∧ t.phase = s.phaseAfter ∧
      (s.phase = .ackReglo ∨ s.phase = .ackAddrr → t.phase = .wdata ∨ t.phase = .rdata → t.bytecnt = 0) ∧
      (s.phase = .ackWdata ∨ s.phase = .mackp → t.phase = .wdata ∨ t.phase = .rdata →
        t.bytecnt.toNat = s.bytecnt.toNat + 1) ∧
      (s.phase = .rdata → Memory.read t.rxmem s.bytecnt.toNat = some s.shreg ∧
        t.rxCount.toNat = s.bytecnt.toNat + 1))

/-- Completion (`43_host_interface.md` R204): with the last micro-operation of `STOP`, in the same step, `BUSY` falls, `DONE`
rises and the position is `IDLE`; `ACKFAIL`, `RXCOUNT`, both buffers and the configuration keep their values. That this micro-operation has `USTEP = 4` is
the model's numbering (log 15, DESIGN CHOICE). -/
def Obligations.CompletionInLastMicroOperationOfStop : Prop :=
  ∀ s : State, s.busy = true → s.pinsTaken = false → s.phase = .stopp → s.prim = .stop → s.ustep = 4 →
    ∃ t, engineTurn s = .next t ∧ t.busy = false ∧ t.done = true ∧ t.phase = .idle ∧ t.sdaOut = true ∧
      t.sclOut = s.sclOut ∧ t.sdaDir = s.sdaDir ∧ t.ackfail = s.ackfail ∧ t.cmderr = s.cmderr ∧ t.cfgerr = s.cfgerr ∧
      t.rxCount = s.rxCount ∧ t.rxmem = s.rxmem ∧ t.cmd = s.cmd ∧ sameOutside s t ∧ t.trace = s.trace ++ [.d1]

/-- AcknowledgeFailure, entry (`60_exceptions.md` R232), one micro-operation at a time: after the last micro-operation of a
`WACK` that was not acknowledged the position is the first of `STOP` and `ACKFAIL = 1`, and nothing else has changed but
the direction bit that micro-operation restores. That `WACK` ends with `USTEP = 8` is the model's numbering, and that
`ACKFAIL` rises in that same step its choice (logs 15, 16, DESIGN CHOICE). -/
def Obligations.FailedAcknowledgeEntersStop : Prop :=
  ∀ s : State, s.busy = true → s.pinsTaken = false → s.prim = .wack → s.ustep = 8 → s.ackbit = false →
    (s.phase = .ackAddrw ∨ s.phase = .ackReghi ∨ s.phase = .ackReglo ∨ s.phase = .ackWdata ∨ s.phase = .ackAddrr) →
    engineTurn s = .next { s with
      sdaDir := .out, ackfail := true, phase := .stopp, prim := .stop, ustep := 0, trace := s.trace ++ [.o] }

/-- No engine turn changes the configuration, `LEN`, `CMD`, `TXMEM`, the ports, the agenda or the lines others pull
(`40_pin_microops.md` R130, `20_memory.md` R62, R75), and `RXMEM` only at index `BYTECNT`, at the end of a read byte. -/
def Obligations.EngineTurnFrame : Prop :=
  ∀ s t : State, engineTurn s = .next t →
    sameOutside s t ∧ t.cmd = s.cmd ∧ t.cmderr = s.cmderr ∧ t.cfgerr = s.cfgerr ∧
    (∀ a, a ≠ s.bytecnt.toNat → Memory.read t.rxmem a = Memory.read s.rxmem a) ∧
    (s.phase ≠ .rdata → t.rxmem = s.rxmem ∧ t.rxCount = s.rxCount)

/-! ## Invariants -/

/-- The invariant holds at reset. -/
def Obligations.ResetSatisfiesInvariant : Prop := State.reset.Inv = true

/-- Every step keeps the invariant (`10_state.md` R23, R36, R44; R24, R27, R180 for the position and the counters; nobody
else on the two lines while `BUSY = 1`, `60_exceptions.md` R235; the canonical form of both buffers). The positions are
in the model's numbering, the moments of the updates and of R235's fault its choice (logs 15, 16, 17, DESIGN CHOICE). -/
def Obligations.StepKeepsInvariant : Prop := ∀ s t : State, s.Inv = true → step s = .next t → t.Inv = true

/-- A running engine always has a next micro-operation (`93_implementation_defined.md` U21): from the invariant no step ends in
the fault of a position no rule enters. -/
def Obligations.RunningEngineIsNeverLost : Prop := ∀ s : State, s.Inv = true → step s ≠ .fault .sequencerLost

/-- `SDA_EFF` changes while `SCL_OUT = 1` only at micro-operation 4 of `START`, 1 to 0, and at micro-operation 5 of `STOP`, 0 to
1 (R44 I-d). That these are `USTEP` 3 and 4 is the model's numbering (log 15, DESIGN CHOICE). -/
def Obligations.DataMovesUnderHighClockOnlyInFraming : Prop :=
  ∀ s t : State, s.Inv = true → s.busy = true → engineTurn s = .next t → s.sclOut = true → t.sclOut = true →
    s.sdaEff ≠ t.sdaEff →
    (s.prim = .start ∧ s.ustep = 3 ∧ s.sdaEff = true) ∨ (s.prim = .stop ∧ s.ustep = 4 ∧ s.sdaEff = false)

/-- `SAMPLE` is issued only with the data line released and the clock high (R44 I-e). -/
def Obligations.SampleOnlyUnderHighClock : Prop :=
  ∀ s : State, s.Inv = true → s.busy = true → s.uopAt = some .sample → s.sdaDir = .inp ∧ s.sclOut = true

/-- `SDA_EFF`, `SCL_EFF` and the pulls (R22): the engine pulls its two lines as the rule says, two distinct lines or, in
every state of the invariant, any two, and no other line of the bank; in input mode it releases the data line whatever
the latch holds. -/
def Obligations.EngineDrivesOnlyItsTwoLines : Prop :=
  ∀ s : State,
    (s.sdaEff = false ↔ s.sdaDir = .out ∧ s.sdaOut = false) ∧ s.sclEff = s.sclOut ∧
    (s.sclPin ≠ s.sdaPin ∨ s.Inv = true →
      (s.pullsLow s.sdaPin.toNat = true ↔ s.sdaEff = false) ∧ (s.pullsLow s.sclPin.toNat = true ↔ s.sclEff = false)) ∧
    (∀ p, p ≠ s.sdaPin.toNat → p ≠ s.sclPin.toNat → s.pullsLow p = false) ∧
    (s.sdaDir = .inp → s.sdaEff = true)

/-- The level of a line (`40_pin_microops.md` R121): 0 iff some agent pulls it low; for the two lines, the rule's formulas. -/
def Obligations.LineIsWiredAnd : Prop :=
  ∀ (s : State) (env : Nat → Bool) (p : Nat),
    (s.line env p = false ↔ s.pullsLow p = true ∨ env p = false ∨ p ∈ s.extPull) ∧
    (s.sclPin ≠ s.sdaPin → s.pinsTaken = false →
      s.line env s.sdaPin.toNat = s.sdaLine (env s.sdaPin.toNat) ∧
      s.line env s.sclPin.toNat = (s.sclOut && env s.sclPin.toNat))

/-! ## The host -/

/-- `HostRead(idx)` (`43_host_interface.md` R201, `10_state.md` R30 to R38): the register's fields in their places, reserved
bits and indexes 0, no side effect; while `BUSY = 1` only `STATUS`. -/
def Obligations.HostReadReturnsRegister : Prop :=
  ∀ (s : State) (idx : Nat),
    (s.busy = false ∨ idx = 5 → hostRead idx s = .next { s with hRdata := s.hostReg idx }) ∧
    (s.busy = true → idx ≠ 5 → ∃ f, hostRead idx s = .fault f) ∧
    (s.hostReg 0).toNat = s.sclPin.toNat + 2 ^ 8 * s.sdaPin.toNat ∧
    (s.hostReg 1).toNat = s.delay.toNat ∧ (s.hostReg 2).toNat = s.retryN.toNat ∧ s.hostReg 3 = s.cmd ∧
    (s.hostReg 4).toNat = s.nBytes.toNat ∧
    (s.hostReg 5).toNat = s.busy.toNat + 2 * s.done.toNat + 4 * s.ackfail.toNat + 8 * s.cmderr.toNat + 16 * s.cfgerr.toNat ∧
    (s.hostReg 6).toNat = s.rxCount.toNat ∧ (7 ≤ idx → s.hostReg idx = 0)

/-- `HostWrite(idx, v)` for the configuration registers and `LEN` while `BUSY = 0` (R202): the named fields are stored and
read back, reserved bits dropped; writes of `STATUS`, `RXCOUNT` and reserved indexes are ignored; with the pins idle no
line is pulled before or after. -/
def Obligations.HostWriteStoresNamedFields : Prop :=
  ∀ (s : State) (v : Word), s.busy = false →
    hostWrite 0 v s = .next { s with sclPin := v.extractLsb' 0 8, sdaPin := v.extractLsb' 8 8 } ∧
    hostWrite 1 v s = .next { s with delay := v.extractLsb' 0 16 } ∧
    hostWrite 2 v s = .next { s with retryN := v.extractLsb' 0 8 } ∧
    hostWrite 4 v s = .next { s with nBytes := v.extractLsb' 0 16 } ∧
    (∀ idx, 5 ≤ idx → hostWrite idx v s = .next s) ∧
    (∀ t, hostWrite 0 v s = .next t → t.hostReg 0 = v &&& 0x0000FFFF) ∧
    (∀ t, hostWrite 1 v s = .next t → t.hostReg 1 = v &&& 0x0000FFFF) ∧
    (∀ t, hostWrite 2 v s = .next t → t.hostReg 2 = v &&& 0x000000FF) ∧
    (∀ t, hostWrite 4 v s = .next t → t.hostReg 4 = v &&& 0x0000FFFF) ∧
    (s.pinsIdle = true → ∀ idx t p, idx ≠ 3 → hostWrite idx v s = .next t → s.pullsLow p = false ∧ t.pullsLow p = false)

/-- Host accesses while `BUSY = 1` (R206, `60_exceptions.md` R235): all but a read of `STATUS` fault, each under its name; for a
write of `STATUS`, `RXCOUNT` or a reserved index the rules have no name, and the model's own is used (log 12, DESIGN
CHOICE); that a read of `RXCOUNT` is RX_READ_WHILE_BUSY is read from U5 and vector T23 (log 13, DEDUCED). -/
def Obligations.BusyHostAccessFaults : Prop :=
  ∀ (s : State) (v : Word) (i : BitVec 16) (b : Byte), s.busy = true →
    hostWrite 0 v s = .fault .cfgWriteWhileBusy ∧ hostWrite 1 v s = .fault .cfgWriteWhileBusy ∧
    hostWrite 2 v s = .fault .cfgWriteWhileBusy ∧ hostWrite 3 v s = .fault .reentrantLaunch ∧
    hostWrite 4 v s = .fault .lenWriteWhileBusy ∧ (∀ idx, 5 ≤ idx → hostWrite idx v s = .fault .regWriteWhileBusy) ∧
    txWrite i b s = .fault .txWriteWhileBusy ∧ rxRead i s = .fault .rxReadWhileBusy ∧
    hostRead 6 s = .fault .rxReadWhileBusy ∧
    (∀ idx, idx ≠ 5 → idx ≠ 6 → hostRead idx s = .fault .regReadWhileBusy) ∧
    hostRead 5 s = .next { s with hRdata := s.statusWord }

/-- The buffer ports while `BUSY = 0` (R207): a byte written at an index below 65535 is what the engine reads there, and every
other byte is as before; index 65535 is ignored; the receive port gives `RXMEM[i]` below `RXCOUNT`, and changes nothing
but itself. -/
def Obligations.BufferPorts : Prop :=
  ∀ (s : State) (i : BitVec 16) (b : Byte), s.busy = false →
    (i.toNat < 65535 → ∃ m, txWrite i b s = .next { s with txmem := m } ∧ Memory.read m i.toNat = some b ∧
      ∀ a, a ≠ i.toNat → Memory.read m a = Memory.read s.txmem a) ∧
    (i.toNat = 65535 → txWrite i b s = .next s) ∧
    (∀ c, i < s.rxCount → Memory.read s.rxmem i.toNat = some c → rxRead i s = .next { s with rxRdata := c }) ∧
    (¬ i < s.rxCount → ∃ c, rxRead i s = .next { s with rxRdata := c, freeNo := s.freeNo + 1 })

/-- `rst_n` at any time (`70_reset_and_hazards.md` R250, R251, `10_state.md` R42): a command is abandoned without `STOP` and
without `DONE`; the engine is as after reset, no buffer byte holds a value, no line is pulled, and a command launched then is
refused with `CFGERR`. -/
def Obligations.ResetAbandonsCommand : Prop :=
  ∀ (s : State) (rest : List Turn), s.agenda = .rst :: rest →
    ∃ t, step s = .next t ∧ t.busy = false ∧ t.done = false ∧ t.statusWord = 0 ∧ t.phase = .idle ∧ t.pinsIdle = true ∧
      t.sclPin = 0 ∧ t.sdaPin = 0 ∧ t.delay = 0 ∧ t.retryN = 10 ∧ t.cmd = 0 ∧ t.nBytes = 0 ∧ t.rxCount = 0 ∧
      t.txmem = [] ∧ t.rxmem = [] ∧ t.trace = s.trace ∧ (∀ p, t.pullsLow p = false) ∧ t.agenda = rest ∧
      (∀ w, cmdReserved w = false → ∃ u, hostWrite 3 w t = .next u ∧ u.statusWord = 0x12)

/-- The values the spec gives for reset (`10_state.md` R42), in `State.reset`; the values of the registers it leaves unspecified
are no part of this. -/
def Obligations.ResetValues : Prop :=
  State.reset.sclOut = true ∧ State.reset.sdaOut = true ∧ State.reset.sdaDir = .out ∧ State.reset.phase = .idle ∧
  State.reset.hostReg 0 = 0 ∧ State.reset.hostReg 1 = 0 ∧ State.reset.hostReg 2 = 0x0000000A ∧
  State.reset.hostReg 3 = 0 ∧ State.reset.hostReg 4 = 0 ∧ State.reset.hostReg 5 = 0 ∧ State.reset.hostReg 6 = 0 ∧
  (∀ a, Memory.read State.reset.txmem a = none ∧ Memory.read State.reset.rxmem a = none) ∧
  State.reset.cfgValid = false ∧ (∀ p, State.reset.pullsLow p = false)

/-- The sensor client's conversions (`44_client_contracts.md` R221, R222), at the boundary, with the rules' examples. -/
def Obligations.SensorConversions : Prop :=
  (∀ hi lo : Byte, shuntMicrovolts hi lo =
    (if 128 ≤ hi.toNat then (256 * hi.toNat + lo.toNat : Int) - 65536 else (256 * hi.toNat + lo.toNat : Int)) * 10) ∧
  (∀ hi lo : Byte, busMillivolts hi lo = (256 * hi.toNat + lo.toNat) / 8 * 4) ∧
  shuntMicrovolts 0x00 0x64 = 1000 ∧ shuntMicrovolts 0xFF 0x9C = -1000 ∧ shuntMicrovolts 0x7F 0xFF = 327670 ∧
  shuntMicrovolts 0x80 0x00 = -327680 ∧ shuntMicrovolts 0x00 0x00 = 0 ∧
  busMillivolts 0x10 0x00 = 2048 ∧ busMillivolts 0xFF 0xFF = 32764 ∧ busMillivolts 0x00 0x07 = 0 ∧
  busMillivolts 0x00 0x08 = 4
end

