-- ==== Sys2Proof/Laws/Decode.lean ====
section
/-! SUPPORT. The fields of a command word (`30_encoding.md` R91): each reads back what it was built from. -/

namespace Sys2Proof

/-- The bits of a command word, field by field. -/
theorem getLsbD_cmdWord (rsv : BitVec 6) (reg : RegAddr) (dev : DevAddr) (op : BitVec 3) (i : Nat) :
    (cmdWord rsv reg dev op).getLsbD i =
      if i < 3 then op.getLsbD i
      else if i - 3 < 7 then dev.getLsbD (i - 3)
      else if i - 3 - 7 < 16 then reg.getLsbD (i - 3 - 7)
      else rsv.getLsbD (i - 3 - 7 - 16) := by
  refine (BitVec.getLsbD_append (x := rsv ++ reg ++ dev) (y := op)).trans ?_
  rw [BitVec.getLsbD_append, BitVec.getLsbD_append]

@[simp] theorem cmdOp_cmdWord (rsv : BitVec 6) (reg : RegAddr) (dev : DevAddr) (op : BitVec 3) :
    cmdOp (cmdWord rsv reg dev op) = op := by
  apply BitVec.eq_of_getLsbD_eq
  intro i hi
  rw [cmdOp, BitVec.getLsbD_extractLsb', getLsbD_cmdWord]
  simp [hi]

@[simp] theorem cmdDev_cmdWord (rsv : BitVec 6) (reg : RegAddr) (dev : DevAddr) (op : BitVec 3) :
    cmdDev (cmdWord rsv reg dev op) = dev := by
  apply BitVec.eq_of_getLsbD_eq
  intro i hi
  rw [cmdDev, BitVec.getLsbD_extractLsb', getLsbD_cmdWord]
  simp [hi]

@[simp] theorem cmdReg_cmdWord (rsv : BitVec 6) (reg : RegAddr) (dev : DevAddr) (op : BitVec 3) :
    cmdReg (cmdWord rsv reg dev op) = reg := by
  apply BitVec.eq_of_getLsbD_eq
  intro i hi
  rw [cmdReg, BitVec.getLsbD_extractLsb', getLsbD_cmdWord, if_neg (by omega), if_neg (by omega),
    if_pos (by omega), show 10 + i - 3 - 7 = i by omega]
  simp [hi]

@[simp] theorem cmdRsv_cmdWord (rsv : BitVec 6) (reg : RegAddr) (dev : DevAddr) (op : BitVec 3) :
    cmdRsv (cmdWord rsv reg dev op) = rsv := by
  apply BitVec.eq_of_getLsbD_eq
  intro i hi
  rw [cmdRsv, BitVec.getLsbD_extractLsb', getLsbD_cmdWord, if_neg (by omega), if_neg (by omega),
    if_neg (by omega), show 26 + i - 3 - 7 - 16 = i by omega]
  simp [hi]

/-- A command word is its four fields. -/
theorem cmdWord_fields (w : Word) : cmdWord (cmdRsv w) (cmdReg w) (cmdDev w) (cmdOp w) = w := by
  apply BitVec.eq_of_getLsbD_eq
  intro i hi
  rw [getLsbD_cmdWord]
  simp only [cmdRsv, cmdReg, cmdDev, cmdOp, BitVec.getLsbD_extractLsb']
  split
  · next h => simp [h]
  · split
    · next h => simp [h, show 3 + (i - 3) = i by omega]
    · split
      · next h => simp [h, show 10 + (i - 3 - 7) = i by omega]
      · simp [show i - 3 - 7 - 16 < 6 by omega, show 26 + (i - 3 - 7 - 16) = i by omega]

/-- A reserved word: `RSV` not 0, or `OP` one of 3, 4, 7 (`30_encoding.md` R104). -/
theorem cmdReserved_cmdWord (rsv : BitVec 6) (reg : RegAddr) (dev : DevAddr) (op : BitVec 3) :
    cmdReserved (cmdWord rsv reg dev op) = (rsv != 0 || op == 3 || op == 4 || op == 7) := by
  simp only [cmdReserved, cmdRsv_cmdWord, cmdOp_cmdWord]

end Sys2Proof
end

