-- ==== Sys2Proof/Laws/State.lean ====
section
/-! SUPPORT. What every update does to every field of State: one lemma per field per update, true by rfl. -/

namespace Sys2Proof.Machine

/-! `sdaLo` -/

@[simp] theorem sdaLo_sclOut (s : State) : (sdaLo s).sclOut = s.sclOut := rfl
@[simp] theorem sdaLo_sdaOut (s : State) : (sdaLo s).sdaOut = false := rfl
@[simp] theorem sdaLo_sdaDir (s : State) : (sdaLo s).sdaDir = s.sdaDir := rfl
@[simp] theorem sdaLo_shreg (s : State) : (sdaLo s).shreg = s.shreg := rfl
@[simp] theorem sdaLo_bitcnt (s : State) : (sdaLo s).bitcnt = s.bitcnt := rfl
@[simp] theorem sdaLo_bytecnt (s : State) : (sdaLo s).bytecnt = s.bytecnt := rfl
@[simp] theorem sdaLo_retrycnt (s : State) : (sdaLo s).retrycnt = s.retrycnt := rfl
@[simp] theorem sdaLo_ackbit (s : State) : (sdaLo s).ackbit = s.ackbit := rfl
@[simp] theorem sdaLo_dlycnt (s : State) : (sdaLo s).dlycnt = s.dlycnt := rfl
@[simp] theorem sdaLo_phase (s : State) : (sdaLo s).phase = s.phase := rfl
@[simp] theorem sdaLo_prim (s : State) : (sdaLo s).prim = s.prim := rfl
@[simp] theorem sdaLo_ustep (s : State) : (sdaLo s).ustep = s.ustep := rfl
@[simp] theorem sdaLo_sclPin (s : State) : (sdaLo s).sclPin = s.sclPin := rfl
@[simp] theorem sdaLo_sdaPin (s : State) : (sdaLo s).sdaPin = s.sdaPin := rfl
@[simp] theorem sdaLo_delay (s : State) : (sdaLo s).delay = s.delay := rfl
@[simp] theorem sdaLo_retryN (s : State) : (sdaLo s).retryN = s.retryN := rfl
@[simp] theorem sdaLo_cmd (s : State) : (sdaLo s).cmd = s.cmd := rfl
@[simp] theorem sdaLo_nBytes (s : State) : (sdaLo s).nBytes = s.nBytes := rfl
@[simp] theorem sdaLo_busy (s : State) : (sdaLo s).busy = s.busy := rfl
@[simp] theorem sdaLo_done (s : State) : (sdaLo s).done = s.done := rfl
@[simp] theorem sdaLo_ackfail (s : State) : (sdaLo s).ackfail = s.ackfail := rfl
@[simp] theorem sdaLo_cmderr (s : State) : (sdaLo s).cmderr = s.cmderr := rfl
@[simp] theorem sdaLo_cfgerr (s : State) : (sdaLo s).cfgerr = s.cfgerr := rfl
@[simp] theorem sdaLo_rxCount (s : State) : (sdaLo s).rxCount = s.rxCount := rfl
@[simp] theorem sdaLo_txmem (s : State) : (sdaLo s).txmem = s.txmem := rfl
@[simp] theorem sdaLo_rxmem (s : State) : (sdaLo s).rxmem = s.rxmem := rfl
@[simp] theorem sdaLo_hRdata (s : State) : (sdaLo s).hRdata = s.hRdata := rfl
@[simp] theorem sdaLo_rxRdata (s : State) : (sdaLo s).rxRdata = s.rxRdata := rfl
@[simp] theorem sdaLo_agenda (s : State) : (sdaLo s).agenda = s.agenda := rfl
@[simp] theorem sdaLo_answers (s : State) : (sdaLo s).answers = s.answers := rfl
@[simp] theorem sdaLo_sampleNo (s : State) : (sdaLo s).sampleNo = s.sampleNo := rfl
@[simp] theorem sdaLo_freeNo (s : State) : (sdaLo s).freeNo = s.freeNo := rfl
@[simp] theorem sdaLo_bit (s : State) : (sdaLo s).bit = s.bit := rfl
@[simp] theorem sdaLo_trace (s : State) : (sdaLo s).trace = s.trace ++ [.d0] := rfl
@[simp] theorem sdaLo_extPull (s : State) : (sdaLo s).extPull = s.extPull := rfl

/-! `sdaHi` -/

@[simp] theorem sdaHi_sclOut (s : State) : (sdaHi s).sclOut = s.sclOut := rfl
@[simp] theorem sdaHi_sdaOut (s : State) : (sdaHi s).sdaOut = true := rfl
@[simp] theorem sdaHi_sdaDir (s : State) : (sdaHi s).sdaDir = s.sdaDir := rfl
@[simp] theorem sdaHi_shreg (s : State) : (sdaHi s).shreg = s.shreg := rfl
@[simp] theorem sdaHi_bitcnt (s : State) : (sdaHi s).bitcnt = s.bitcnt := rfl
@[simp] theorem sdaHi_bytecnt (s : State) : (sdaHi s).bytecnt = s.bytecnt := rfl
@[simp] theorem sdaHi_retrycnt (s : State) : (sdaHi s).retrycnt = s.retrycnt := rfl
@[simp] theorem sdaHi_ackbit (s : State) : (sdaHi s).ackbit = s.ackbit := rfl
@[simp] theorem sdaHi_dlycnt (s : State) : (sdaHi s).dlycnt = s.dlycnt := rfl
@[simp] theorem sdaHi_phase (s : State) : (sdaHi s).phase = s.phase := rfl
@[simp] theorem sdaHi_prim (s : State) : (sdaHi s).prim = s.prim := rfl
@[simp] theorem sdaHi_ustep (s : State) : (sdaHi s).ustep = s.ustep := rfl
@[simp] theorem sdaHi_sclPin (s : State) : (sdaHi s).sclPin = s.sclPin := rfl
@[simp] theorem sdaHi_sdaPin (s : State) : (sdaHi s).sdaPin = s.sdaPin := rfl
@[simp] theorem sdaHi_delay (s : State) : (sdaHi s).delay = s.delay := rfl
@[simp] theorem sdaHi_retryN (s : State) : (sdaHi s).retryN = s.retryN := rfl
@[simp] theorem sdaHi_cmd (s : State) : (sdaHi s).cmd = s.cmd := rfl
@[simp] theorem sdaHi_nBytes (s : State) : (sdaHi s).nBytes = s.nBytes := rfl
@[simp] theorem sdaHi_busy (s : State) : (sdaHi s).busy = s.busy := rfl
@[simp] theorem sdaHi_done (s : State) : (sdaHi s).done = s.done := rfl
@[simp] theorem sdaHi_ackfail (s : State) : (sdaHi s).ackfail = s.ackfail := rfl
@[simp] theorem sdaHi_cmderr (s : State) : (sdaHi s).cmderr = s.cmderr := rfl
@[simp] theorem sdaHi_cfgerr (s : State) : (sdaHi s).cfgerr = s.cfgerr := rfl
@[simp] theorem sdaHi_rxCount (s : State) : (sdaHi s).rxCount = s.rxCount := rfl
@[simp] theorem sdaHi_txmem (s : State) : (sdaHi s).txmem = s.txmem := rfl
@[simp] theorem sdaHi_rxmem (s : State) : (sdaHi s).rxmem = s.rxmem := rfl
@[simp] theorem sdaHi_hRdata (s : State) : (sdaHi s).hRdata = s.hRdata := rfl
@[simp] theorem sdaHi_rxRdata (s : State) : (sdaHi s).rxRdata = s.rxRdata := rfl
@[simp] theorem sdaHi_agenda (s : State) : (sdaHi s).agenda = s.agenda := rfl
@[simp] theorem sdaHi_answers (s : State) : (sdaHi s).answers = s.answers := rfl
@[simp] theorem sdaHi_sampleNo (s : State) : (sdaHi s).sampleNo = s.sampleNo := rfl
@[simp] theorem sdaHi_freeNo (s : State) : (sdaHi s).freeNo = s.freeNo := rfl
@[simp] theorem sdaHi_bit (s : State) : (sdaHi s).bit = s.bit := rfl
@[simp] theorem sdaHi_trace (s : State) : (sdaHi s).trace = s.trace ++ [.d1] := rfl
@[simp] theorem sdaHi_extPull (s : State) : (sdaHi s).extPull = s.extPull := rfl

/-! `sclLo` -/

@[simp] theorem sclLo_sclOut (s : State) : (sclLo s).sclOut = false := rfl
@[simp] theorem sclLo_sdaOut (s : State) : (sclLo s).sdaOut = s.sdaOut := rfl
@[simp] theorem sclLo_sdaDir (s : State) : (sclLo s).sdaDir = s.sdaDir := rfl
@[simp] theorem sclLo_shreg (s : State) : (sclLo s).shreg = s.shreg := rfl
@[simp] theorem sclLo_bitcnt (s : State) : (sclLo s).bitcnt = s.bitcnt := rfl
@[simp] theorem sclLo_bytecnt (s : State) : (sclLo s).bytecnt = s.bytecnt := rfl
@[simp] theorem sclLo_retrycnt (s : State) : (sclLo s).retrycnt = s.retrycnt := rfl
@[simp] theorem sclLo_ackbit (s : State) : (sclLo s).ackbit = s.ackbit := rfl
@[simp] theorem sclLo_dlycnt (s : State) : (sclLo s).dlycnt = s.dlycnt := rfl
@[simp] theorem sclLo_phase (s : State) : (sclLo s).phase = s.phase := rfl
@[simp] theorem sclLo_prim (s : State) : (sclLo s).prim = s.prim := rfl
@[simp] theorem sclLo_ustep (s : State) : (sclLo s).ustep = s.ustep := rfl
@[simp] theorem sclLo_sclPin (s : State) : (sclLo s).sclPin = s.sclPin := rfl
@[simp] theorem sclLo_sdaPin (s : State) : (sclLo s).sdaPin = s.sdaPin := rfl
@[simp] theorem sclLo_delay (s : State) : (sclLo s).delay = s.delay := rfl
@[simp] theorem sclLo_retryN (s : State) : (sclLo s).retryN = s.retryN := rfl
@[simp] theorem sclLo_cmd (s : State) : (sclLo s).cmd = s.cmd := rfl
@[simp] theorem sclLo_nBytes (s : State) : (sclLo s).nBytes = s.nBytes := rfl
@[simp] theorem sclLo_busy (s : State) : (sclLo s).busy = s.busy := rfl
@[simp] theorem sclLo_done (s : State) : (sclLo s).done = s.done := rfl
@[simp] theorem sclLo_ackfail (s : State) : (sclLo s).ackfail = s.ackfail := rfl
@[simp] theorem sclLo_cmderr (s : State) : (sclLo s).cmderr = s.cmderr := rfl
@[simp] theorem sclLo_cfgerr (s : State) : (sclLo s).cfgerr = s.cfgerr := rfl
@[simp] theorem sclLo_rxCount (s : State) : (sclLo s).rxCount = s.rxCount := rfl
@[simp] theorem sclLo_txmem (s : State) : (sclLo s).txmem = s.txmem := rfl
@[simp] theorem sclLo_rxmem (s : State) : (sclLo s).rxmem = s.rxmem := rfl
@[simp] theorem sclLo_hRdata (s : State) : (sclLo s).hRdata = s.hRdata := rfl
@[simp] theorem sclLo_rxRdata (s : State) : (sclLo s).rxRdata = s.rxRdata := rfl
@[simp] theorem sclLo_agenda (s : State) : (sclLo s).agenda = s.agenda := rfl
@[simp] theorem sclLo_answers (s : State) : (sclLo s).answers = s.answers := rfl
@[simp] theorem sclLo_sampleNo (s : State) : (sclLo s).sampleNo = s.sampleNo := rfl
@[simp] theorem sclLo_freeNo (s : State) : (sclLo s).freeNo = s.freeNo := rfl
@[simp] theorem sclLo_bit (s : State) : (sclLo s).bit = s.bit := rfl
@[simp] theorem sclLo_trace (s : State) : (sclLo s).trace = s.trace ++ [.c0] := rfl
@[simp] theorem sclLo_extPull (s : State) : (sclLo s).extPull = s.extPull := rfl

/-! `sclHi` -/

@[simp] theorem sclHi_sclOut (s : State) : (sclHi s).sclOut = true := rfl
@[simp] theorem sclHi_sdaOut (s : State) : (sclHi s).sdaOut = s.sdaOut := rfl
@[simp] theorem sclHi_sdaDir (s : State) : (sclHi s).sdaDir = s.sdaDir := rfl
@[simp] theorem sclHi_shreg (s : State) : (sclHi s).shreg = s.shreg := rfl
@[simp] theorem sclHi_bitcnt (s : State) : (sclHi s).bitcnt = s.bitcnt := rfl
@[simp] theorem sclHi_bytecnt (s : State) : (sclHi s).bytecnt = s.bytecnt := rfl
@[simp] theorem sclHi_retrycnt (s : State) : (sclHi s).retrycnt = s.retrycnt := rfl
@[simp] theorem sclHi_ackbit (s : State) : (sclHi s).ackbit = s.ackbit := rfl
@[simp] theorem sclHi_dlycnt (s : State) : (sclHi s).dlycnt = s.dlycnt := rfl
@[simp] theorem sclHi_phase (s : State) : (sclHi s).phase = s.phase := rfl
@[simp] theorem sclHi_prim (s : State) : (sclHi s).prim = s.prim := rfl
@[simp] theorem sclHi_ustep (s : State) : (sclHi s).ustep = s.ustep := rfl
@[simp] theorem sclHi_sclPin (s : State) : (sclHi s).sclPin = s.sclPin := rfl
@[simp] theorem sclHi_sdaPin (s : State) : (sclHi s).sdaPin = s.sdaPin := rfl
@[simp] theorem sclHi_delay (s : State) : (sclHi s).delay = s.delay := rfl
@[simp] theorem sclHi_retryN (s : State) : (sclHi s).retryN = s.retryN := rfl
@[simp] theorem sclHi_cmd (s : State) : (sclHi s).cmd = s.cmd := rfl
@[simp] theorem sclHi_nBytes (s : State) : (sclHi s).nBytes = s.nBytes := rfl
@[simp] theorem sclHi_busy (s : State) : (sclHi s).busy = s.busy := rfl
@[simp] theorem sclHi_done (s : State) : (sclHi s).done = s.done := rfl
@[simp] theorem sclHi_ackfail (s : State) : (sclHi s).ackfail = s.ackfail := rfl
@[simp] theorem sclHi_cmderr (s : State) : (sclHi s).cmderr = s.cmderr := rfl
@[simp] theorem sclHi_cfgerr (s : State) : (sclHi s).cfgerr = s.cfgerr := rfl
@[simp] theorem sclHi_rxCount (s : State) : (sclHi s).rxCount = s.rxCount := rfl
@[simp] theorem sclHi_txmem (s : State) : (sclHi s).txmem = s.txmem := rfl
@[simp] theorem sclHi_rxmem (s : State) : (sclHi s).rxmem = s.rxmem := rfl
@[simp] theorem sclHi_hRdata (s : State) : (sclHi s).hRdata = s.hRdata := rfl
@[simp] theorem sclHi_rxRdata (s : State) : (sclHi s).rxRdata = s.rxRdata := rfl
@[simp] theorem sclHi_agenda (s : State) : (sclHi s).agenda = s.agenda := rfl
@[simp] theorem sclHi_answers (s : State) : (sclHi s).answers = s.answers := rfl
@[simp] theorem sclHi_sampleNo (s : State) : (sclHi s).sampleNo = s.sampleNo := rfl
@[simp] theorem sclHi_freeNo (s : State) : (sclHi s).freeNo = s.freeNo := rfl
@[simp] theorem sclHi_bit (s : State) : (sclHi s).bit = s.bit := rfl
@[simp] theorem sclHi_trace (s : State) : (sclHi s).trace = s.trace ++ [.c1] := rfl
@[simp] theorem sclHi_extPull (s : State) : (sclHi s).extPull = s.extPull := rfl

/-! `dirOut` -/

@[simp] theorem dirOut_sclOut (s : State) : (dirOut s).sclOut = s.sclOut := rfl
@[simp] theorem dirOut_sdaOut (s : State) : (dirOut s).sdaOut = s.sdaOut := rfl
@[simp] theorem dirOut_sdaDir (s : State) : (dirOut s).sdaDir = .out := rfl
@[simp] theorem dirOut_shreg (s : State) : (dirOut s).shreg = s.shreg := rfl
@[simp] theorem dirOut_bitcnt (s : State) : (dirOut s).bitcnt = s.bitcnt := rfl
@[simp] theorem dirOut_bytecnt (s : State) : (dirOut s).bytecnt = s.bytecnt := rfl
@[simp] theorem dirOut_retrycnt (s : State) : (dirOut s).retrycnt = s.retrycnt := rfl
@[simp] theorem dirOut_ackbit (s : State) : (dirOut s).ackbit = s.ackbit := rfl
@[simp] theorem dirOut_dlycnt (s : State) : (dirOut s).dlycnt = s.dlycnt := rfl
@[simp] theorem dirOut_phase (s : State) : (dirOut s).phase = s.phase := rfl
@[simp] theorem dirOut_prim (s : State) : (dirOut s).prim = s.prim := rfl
@[simp] theorem dirOut_ustep (s : State) : (dirOut s).ustep = s.ustep := rfl
@[simp] theorem dirOut_sclPin (s : State) : (dirOut s).sclPin = s.sclPin := rfl
@[simp] theorem dirOut_sdaPin (s : State) : (dirOut s).sdaPin = s.sdaPin := rfl
@[simp] theorem dirOut_delay (s : State) : (dirOut s).delay = s.delay := rfl
@[simp] theorem dirOut_retryN (s : State) : (dirOut s).retryN = s.retryN := rfl
@[simp] theorem dirOut_cmd (s : State) : (dirOut s).cmd = s.cmd := rfl
@[simp] theorem dirOut_nBytes (s : State) : (dirOut s).nBytes = s.nBytes := rfl
@[simp] theorem dirOut_busy (s : State) : (dirOut s).busy = s.busy := rfl
@[simp] theorem dirOut_done (s : State) : (dirOut s).done = s.done := rfl
@[simp] theorem dirOut_ackfail (s : State) : (dirOut s).ackfail = s.ackfail := rfl
@[simp] theorem dirOut_cmderr (s : State) : (dirOut s).cmderr = s.cmderr := rfl
@[simp] theorem dirOut_cfgerr (s : State) : (dirOut s).cfgerr = s.cfgerr := rfl
@[simp] theorem dirOut_rxCount (s : State) : (dirOut s).rxCount = s.rxCount := rfl
@[simp] theorem dirOut_txmem (s : State) : (dirOut s).txmem = s.txmem := rfl
@[simp] theorem dirOut_rxmem (s : State) : (dirOut s).rxmem = s.rxmem := rfl
@[simp] theorem dirOut_hRdata (s : State) : (dirOut s).hRdata = s.hRdata := rfl
@[simp] theorem dirOut_rxRdata (s : State) : (dirOut s).rxRdata = s.rxRdata := rfl
@[simp] theorem dirOut_agenda (s : State) : (dirOut s).agenda = s.agenda := rfl
@[simp] theorem dirOut_answers (s : State) : (dirOut s).answers = s.answers := rfl
@[simp] theorem dirOut_sampleNo (s : State) : (dirOut s).sampleNo = s.sampleNo := rfl
@[simp] theorem dirOut_freeNo (s : State) : (dirOut s).freeNo = s.freeNo := rfl
@[simp] theorem dirOut_bit (s : State) : (dirOut s).bit = s.bit := rfl
@[simp] theorem dirOut_trace (s : State) : (dirOut s).trace = s.trace ++ [.o] := rfl
@[simp] theorem dirOut_extPull (s : State) : (dirOut s).extPull = s.extPull := rfl

/-! `dirIn` -/

@[simp] theorem dirIn_sclOut (s : State) : (dirIn s).sclOut = s.sclOut := rfl
@[simp] theorem dirIn_sdaOut (s : State) : (dirIn s).sdaOut = s.sdaOut := rfl
@[simp] theorem dirIn_sdaDir (s : State) : (dirIn s).sdaDir = .inp := rfl
@[simp] theorem dirIn_shreg (s : State) : (dirIn s).shreg = s.shreg := rfl
@[simp] theorem dirIn_bitcnt (s : State) : (dirIn s).bitcnt = s.bitcnt := rfl
@[simp] theorem dirIn_bytecnt (s : State) : (dirIn s).bytecnt = s.bytecnt := rfl
@[simp] theorem dirIn_retrycnt (s : State) : (dirIn s).retrycnt = s.retrycnt := rfl
@[simp] theorem dirIn_ackbit (s : State) : (dirIn s).ackbit = s.ackbit := rfl
@[simp] theorem dirIn_dlycnt (s : State) : (dirIn s).dlycnt = s.dlycnt := rfl
@[simp] theorem dirIn_phase (s : State) : (dirIn s).phase = s.phase := rfl
@[simp] theorem dirIn_prim (s : State) : (dirIn s).prim = s.prim := rfl
@[simp] theorem dirIn_ustep (s : State) : (dirIn s).ustep = s.ustep := rfl
@[simp] theorem dirIn_sclPin (s : State) : (dirIn s).sclPin = s.sclPin := rfl
@[simp] theorem dirIn_sdaPin (s : State) : (dirIn s).sdaPin = s.sdaPin := rfl
@[simp] theorem dirIn_delay (s : State) : (dirIn s).delay = s.delay := rfl
@[simp] theorem dirIn_retryN (s : State) : (dirIn s).retryN = s.retryN := rfl
@[simp] theorem dirIn_cmd (s : State) : (dirIn s).cmd = s.cmd := rfl
@[simp] theorem dirIn_nBytes (s : State) : (dirIn s).nBytes = s.nBytes := rfl
@[simp] theorem dirIn_busy (s : State) : (dirIn s).busy = s.busy := rfl
@[simp] theorem dirIn_done (s : State) : (dirIn s).done = s.done := rfl
@[simp] theorem dirIn_ackfail (s : State) : (dirIn s).ackfail = s.ackfail := rfl
@[simp] theorem dirIn_cmderr (s : State) : (dirIn s).cmderr = s.cmderr := rfl
@[simp] theorem dirIn_cfgerr (s : State) : (dirIn s).cfgerr = s.cfgerr := rfl
@[simp] theorem dirIn_rxCount (s : State) : (dirIn s).rxCount = s.rxCount := rfl
@[simp] theorem dirIn_txmem (s : State) : (dirIn s).txmem = s.txmem := rfl
@[simp] theorem dirIn_rxmem (s : State) : (dirIn s).rxmem = s.rxmem := rfl
@[simp] theorem dirIn_hRdata (s : State) : (dirIn s).hRdata = s.hRdata := rfl
@[simp] theorem dirIn_rxRdata (s : State) : (dirIn s).rxRdata = s.rxRdata := rfl
@[simp] theorem dirIn_agenda (s : State) : (dirIn s).agenda = s.agenda := rfl
@[simp] theorem dirIn_answers (s : State) : (dirIn s).answers = s.answers := rfl
@[simp] theorem dirIn_sampleNo (s : State) : (dirIn s).sampleNo = s.sampleNo := rfl
@[simp] theorem dirIn_freeNo (s : State) : (dirIn s).freeNo = s.freeNo := rfl
@[simp] theorem dirIn_bit (s : State) : (dirIn s).bit = s.bit := rfl
@[simp] theorem dirIn_trace (s : State) : (dirIn s).trace = s.trace ++ [.i] := rfl
@[simp] theorem dirIn_extPull (s : State) : (dirIn s).extPull = s.extPull := rfl

/-! `waitOne` -/

@[simp] theorem waitOne_sclOut (s : State) : (waitOne s).sclOut = s.sclOut := rfl
@[simp] theorem waitOne_sdaOut (s : State) : (waitOne s).sdaOut = s.sdaOut := rfl
@[simp] theorem waitOne_sdaDir (s : State) : (waitOne s).sdaDir = s.sdaDir := rfl
@[simp] theorem waitOne_shreg (s : State) : (waitOne s).shreg = s.shreg := rfl
@[simp] theorem waitOne_bitcnt (s : State) : (waitOne s).bitcnt = s.bitcnt := rfl
@[simp] theorem waitOne_bytecnt (s : State) : (waitOne s).bytecnt = s.bytecnt := rfl
@[simp] theorem waitOne_retrycnt (s : State) : (waitOne s).retrycnt = s.retrycnt := rfl
@[simp] theorem waitOne_ackbit (s : State) : (waitOne s).ackbit = s.ackbit := rfl
@[simp] theorem waitOne_phase (s : State) : (waitOne s).phase = s.phase := rfl
@[simp] theorem waitOne_prim (s : State) : (waitOne s).prim = s.prim := rfl
@[simp] theorem waitOne_ustep (s : State) : (waitOne s).ustep = s.ustep := rfl
@[simp] theorem waitOne_sclPin (s : State) : (waitOne s).sclPin = s.sclPin := rfl
@[simp] theorem waitOne_sdaPin (s : State) : (waitOne s).sdaPin = s.sdaPin := rfl
@[simp] theorem waitOne_delay (s : State) : (waitOne s).delay = s.delay := rfl
@[simp] theorem waitOne_retryN (s : State) : (waitOne s).retryN = s.retryN := rfl
@[simp] theorem waitOne_cmd (s : State) : (waitOne s).cmd = s.cmd := rfl
@[simp] theorem waitOne_nBytes (s : State) : (waitOne s).nBytes = s.nBytes := rfl
@[simp] theorem waitOne_busy (s : State) : (waitOne s).busy = s.busy := rfl
@[simp] theorem waitOne_done (s : State) : (waitOne s).done = s.done := rfl
@[simp] theorem waitOne_ackfail (s : State) : (waitOne s).ackfail = s.ackfail := rfl
@[simp] theorem waitOne_cmderr (s : State) : (waitOne s).cmderr = s.cmderr := rfl
@[simp] theorem waitOne_cfgerr (s : State) : (waitOne s).cfgerr = s.cfgerr := rfl
@[simp] theorem waitOne_rxCount (s : State) : (waitOne s).rxCount = s.rxCount := rfl
@[simp] theorem waitOne_txmem (s : State) : (waitOne s).txmem = s.txmem := rfl
@[simp] theorem waitOne_rxmem (s : State) : (waitOne s).rxmem = s.rxmem := rfl
@[simp] theorem waitOne_hRdata (s : State) : (waitOne s).hRdata = s.hRdata := rfl
@[simp] theorem waitOne_rxRdata (s : State) : (waitOne s).rxRdata = s.rxRdata := rfl
@[simp] theorem waitOne_agenda (s : State) : (waitOne s).agenda = s.agenda := rfl
@[simp] theorem waitOne_answers (s : State) : (waitOne s).answers = s.answers := rfl
@[simp] theorem waitOne_sampleNo (s : State) : (waitOne s).sampleNo = s.sampleNo := rfl
@[simp] theorem waitOne_freeNo (s : State) : (waitOne s).freeNo = s.freeNo := rfl
@[simp] theorem waitOne_bit (s : State) : (waitOne s).bit = s.bit := rfl
@[simp] theorem waitOne_trace (s : State) : (waitOne s).trace = s.trace ++ [.w] := rfl
@[simp] theorem waitOne_extPull (s : State) : (waitOne s).extPull = s.extPull := rfl

/-! `sampleSda` -/

@[simp] theorem sampleSda_sclOut (s : State) : (sampleSda s).sclOut = s.sclOut := rfl
@[simp] theorem sampleSda_sdaOut (s : State) : (sampleSda s).sdaOut = s.sdaOut := rfl
@[simp] theorem sampleSda_sdaDir (s : State) : (sampleSda s).sdaDir = s.sdaDir := rfl
@[simp] theorem sampleSda_shreg (s : State) : (sampleSda s).shreg = s.shreg := rfl
@[simp] theorem sampleSda_bitcnt (s : State) : (sampleSda s).bitcnt = s.bitcnt := rfl
@[simp] theorem sampleSda_bytecnt (s : State) : (sampleSda s).bytecnt = s.bytecnt := rfl
@[simp] theorem sampleSda_retrycnt (s : State) : (sampleSda s).retrycnt = s.retrycnt := rfl
@[simp] theorem sampleSda_ackbit (s : State) : (sampleSda s).ackbit = s.ackbit := rfl
@[simp] theorem sampleSda_dlycnt (s : State) : (sampleSda s).dlycnt = s.dlycnt := rfl
@[simp] theorem sampleSda_phase (s : State) : (sampleSda s).phase = s.phase := rfl
@[simp] theorem sampleSda_prim (s : State) : (sampleSda s).prim = s.prim := rfl
@[simp] theorem sampleSda_ustep (s : State) : (sampleSda s).ustep = s.ustep := rfl
@[simp] theorem sampleSda_sclPin (s : State) : (sampleSda s).sclPin = s.sclPin := rfl
@[simp] theorem sampleSda_sdaPin (s : State) : (sampleSda s).sdaPin = s.sdaPin := rfl
@[simp] theorem sampleSda_delay (s : State) : (sampleSda s).delay = s.delay := rfl
@[simp] theorem sampleSda_retryN (s : State) : (sampleSda s).retryN = s.retryN := rfl
@[simp] theorem sampleSda_cmd (s : State) : (sampleSda s).cmd = s.cmd := rfl
@[simp] theorem sampleSda_nBytes (s : State) : (sampleSda s).nBytes = s.nBytes := rfl
@[simp] theorem sampleSda_busy (s : State) : (sampleSda s).busy = s.busy := rfl
@[simp] theorem sampleSda_done (s : State) : (sampleSda s).done = s.done := rfl
@[simp] theorem sampleSda_ackfail (s : State) : (sampleSda s).ackfail = s.ackfail := rfl
@[simp] theorem sampleSda_cmderr (s : State) : (sampleSda s).cmderr = s.cmderr := rfl
@[simp] theorem sampleSda_cfgerr (s : State) : (sampleSda s).cfgerr = s.cfgerr := rfl
@[simp] theorem sampleSda_rxCount (s : State) : (sampleSda s).rxCount = s.rxCount := rfl
@[simp] theorem sampleSda_txmem (s : State) : (sampleSda s).txmem = s.txmem := rfl
@[simp] theorem sampleSda_rxmem (s : State) : (sampleSda s).rxmem = s.rxmem := rfl
@[simp] theorem sampleSda_hRdata (s : State) : (sampleSda s).hRdata = s.hRdata := rfl
@[simp] theorem sampleSda_rxRdata (s : State) : (sampleSda s).rxRdata = s.rxRdata := rfl
@[simp] theorem sampleSda_agenda (s : State) : (sampleSda s).agenda = s.agenda := rfl
@[simp] theorem sampleSda_answers (s : State) : (sampleSda s).answers = s.answers.tail := rfl
@[simp] theorem sampleSda_sampleNo (s : State) : (sampleSda s).sampleNo = s.sampleNo + 1 := rfl
@[simp] theorem sampleSda_freeNo (s : State) : (sampleSda s).freeNo = s.freeNo := rfl
@[simp] theorem sampleSda_bit (s : State) : (sampleSda s).bit = s.sdaLine s.envBit := rfl
@[simp] theorem sampleSda_trace (s : State) : (sampleSda s).trace = s.trace ++ [sampleTok (s.sdaLine s.envBit)] := rfl
@[simp] theorem sampleSda_extPull (s : State) : (sampleSda s).extPull = s.extPull := rfl

/-! `countBit` -/

@[simp] theorem countBit_sclOut (s : State) : (countBit s).sclOut = s.sclOut := rfl
@[simp] theorem countBit_sdaOut (s : State) : (countBit s).sdaOut = s.sdaOut := rfl
@[simp] theorem countBit_sdaDir (s : State) : (countBit s).sdaDir = s.sdaDir := rfl
@[simp] theorem countBit_shreg (s : State) : (countBit s).shreg = s.shreg := rfl
@[simp] theorem countBit_bitcnt (s : State) : (countBit s).bitcnt = s.bitcnt + 1 := rfl
@[simp] theorem countBit_bytecnt (s : State) : (countBit s).bytecnt = s.bytecnt := rfl
@[simp] theorem countBit_retrycnt (s : State) : (countBit s).retrycnt = s.retrycnt := rfl
@[simp] theorem countBit_ackbit (s : State) : (countBit s).ackbit = s.ackbit := rfl
@[simp] theorem countBit_dlycnt (s : State) : (countBit s).dlycnt = s.dlycnt := rfl
@[simp] theorem countBit_phase (s : State) : (countBit s).phase = s.phase := rfl
@[simp] theorem countBit_prim (s : State) : (countBit s).prim = s.prim := rfl
@[simp] theorem countBit_ustep (s : State) : (countBit s).ustep = s.ustep := rfl
@[simp] theorem countBit_sclPin (s : State) : (countBit s).sclPin = s.sclPin := rfl
@[simp] theorem countBit_sdaPin (s : State) : (countBit s).sdaPin = s.sdaPin := rfl
@[simp] theorem countBit_delay (s : State) : (countBit s).delay = s.delay := rfl
@[simp] theorem countBit_retryN (s : State) : (countBit s).retryN = s.retryN := rfl
@[simp] theorem countBit_cmd (s : State) : (countBit s).cmd = s.cmd := rfl
@[simp] theorem countBit_nBytes (s : State) : (countBit s).nBytes = s.nBytes := rfl
@[simp] theorem countBit_busy (s : State) : (countBit s).busy = s.busy := rfl
@[simp] theorem countBit_done (s : State) : (countBit s).done = s.done := rfl
@[simp] theorem countBit_ackfail (s : State) : (countBit s).ackfail = s.ackfail := rfl
@[simp] theorem countBit_cmderr (s : State) : (countBit s).cmderr = s.cmderr := rfl
@[simp] theorem countBit_cfgerr (s : State) : (countBit s).cfgerr = s.cfgerr := rfl
@[simp] theorem countBit_rxCount (s : State) : (countBit s).rxCount = s.rxCount := rfl
@[simp] theorem countBit_txmem (s : State) : (countBit s).txmem = s.txmem := rfl
@[simp] theorem countBit_rxmem (s : State) : (countBit s).rxmem = s.rxmem := rfl
@[simp] theorem countBit_hRdata (s : State) : (countBit s).hRdata = s.hRdata := rfl
@[simp] theorem countBit_rxRdata (s : State) : (countBit s).rxRdata = s.rxRdata := rfl
@[simp] theorem countBit_agenda (s : State) : (countBit s).agenda = s.agenda := rfl
@[simp] theorem countBit_answers (s : State) : (countBit s).answers = s.answers := rfl
@[simp] theorem countBit_sampleNo (s : State) : (countBit s).sampleNo = s.sampleNo := rfl
@[simp] theorem countBit_freeNo (s : State) : (countBit s).freeNo = s.freeNo := rfl
@[simp] theorem countBit_bit (s : State) : (countBit s).bit = s.bit := rfl
@[simp] theorem countBit_trace (s : State) : (countBit s).trace = s.trace := rfl
@[simp] theorem countBit_extPull (s : State) : (countBit s).extPull = s.extPull := rfl

/-! `shiftInBit` -/

@[simp] theorem shiftInBit_sclOut (s : State) : (shiftInBit s).sclOut = s.sclOut := rfl
@[simp] theorem shiftInBit_sdaOut (s : State) : (shiftInBit s).sdaOut = s.sdaOut := rfl
@[simp] theorem shiftInBit_sdaDir (s : State) : (shiftInBit s).sdaDir = s.sdaDir := rfl
@[simp] theorem shiftInBit_shreg (s : State) : (shiftInBit s).shreg = s.shreg.shiftConcat s.bit := rfl
@[simp] theorem shiftInBit_bitcnt (s : State) : (shiftInBit s).bitcnt = s.bitcnt := rfl
@[simp] theorem shiftInBit_bytecnt (s : State) : (shiftInBit s).bytecnt = s.bytecnt := rfl
@[simp] theorem shiftInBit_retrycnt (s : State) : (shiftInBit s).retrycnt = s.retrycnt := rfl
@[simp] theorem shiftInBit_ackbit (s : State) : (shiftInBit s).ackbit = s.ackbit := rfl
@[simp] theorem shiftInBit_dlycnt (s : State) : (shiftInBit s).dlycnt = s.dlycnt := rfl
@[simp] theorem shiftInBit_phase (s : State) : (shiftInBit s).phase = s.phase := rfl
@[simp] theorem shiftInBit_prim (s : State) : (shiftInBit s).prim = s.prim := rfl
@[simp] theorem shiftInBit_ustep (s : State) : (shiftInBit s).ustep = s.ustep := rfl
@[simp] theorem shiftInBit_sclPin (s : State) : (shiftInBit s).sclPin = s.sclPin := rfl
@[simp] theorem shiftInBit_sdaPin (s : State) : (shiftInBit s).sdaPin = s.sdaPin := rfl
@[simp] theorem shiftInBit_delay (s : State) : (shiftInBit s).delay = s.delay := rfl
@[simp] theorem shiftInBit_retryN (s : State) : (shiftInBit s).retryN = s.retryN := rfl
@[simp] theorem shiftInBit_cmd (s : State) : (shiftInBit s).cmd = s.cmd := rfl
@[simp] theorem shiftInBit_nBytes (s : State) : (shiftInBit s).nBytes = s.nBytes := rfl
@[simp] theorem shiftInBit_busy (s : State) : (shiftInBit s).busy = s.busy := rfl
@[simp] theorem shiftInBit_done (s : State) : (shiftInBit s).done = s.done := rfl
@[simp] theorem shiftInBit_ackfail (s : State) : (shiftInBit s).ackfail = s.ackfail := rfl
@[simp] theorem shiftInBit_cmderr (s : State) : (shiftInBit s).cmderr = s.cmderr := rfl
@[simp] theorem shiftInBit_cfgerr (s : State) : (shiftInBit s).cfgerr = s.cfgerr := rfl
@[simp] theorem shiftInBit_rxCount (s : State) : (shiftInBit s).rxCount = s.rxCount := rfl
@[simp] theorem shiftInBit_txmem (s : State) : (shiftInBit s).txmem = s.txmem := rfl
@[simp] theorem shiftInBit_rxmem (s : State) : (shiftInBit s).rxmem = s.rxmem := rfl
@[simp] theorem shiftInBit_hRdata (s : State) : (shiftInBit s).hRdata = s.hRdata := rfl
@[simp] theorem shiftInBit_rxRdata (s : State) : (shiftInBit s).rxRdata = s.rxRdata := rfl
@[simp] theorem shiftInBit_agenda (s : State) : (shiftInBit s).agenda = s.agenda := rfl
@[simp] theorem shiftInBit_answers (s : State) : (shiftInBit s).answers = s.answers := rfl
@[simp] theorem shiftInBit_sampleNo (s : State) : (shiftInBit s).sampleNo = s.sampleNo := rfl
@[simp] theorem shiftInBit_freeNo (s : State) : (shiftInBit s).freeNo = s.freeNo := rfl
@[simp] theorem shiftInBit_bit (s : State) : (shiftInBit s).bit = s.bit := rfl
@[simp] theorem shiftInBit_trace (s : State) : (shiftInBit s).trace = s.trace := rfl
@[simp] theorem shiftInBit_extPull (s : State) : (shiftInBit s).extPull = s.extPull := rfl

/-! `loadByte` -/

@[simp] theorem loadByte_sclOut (b : Byte) (s : State) : (loadByte b s).sclOut = s.sclOut := rfl
@[simp] theorem loadByte_sdaOut (b : Byte) (s : State) : (loadByte b s).sdaOut = s.sdaOut := rfl
@[simp] theorem loadByte_sdaDir (b : Byte) (s : State) : (loadByte b s).sdaDir = s.sdaDir := rfl
@[simp] theorem loadByte_shreg (b : Byte) (s : State) : (loadByte b s).shreg = b := rfl
@[simp] theorem loadByte_bitcnt (b : Byte) (s : State) : (loadByte b s).bitcnt = 0 := rfl
@[simp] theorem loadByte_bytecnt (b : Byte) (s : State) : (loadByte b s).bytecnt = s.bytecnt := rfl
@[simp] theorem loadByte_retrycnt (b : Byte) (s : State) : (loadByte b s).retrycnt = s.retrycnt := rfl
@[simp] theorem loadByte_ackbit (b : Byte) (s : State) : (loadByte b s).ackbit = s.ackbit := rfl
@[simp] theorem loadByte_dlycnt (b : Byte) (s : State) : (loadByte b s).dlycnt = s.dlycnt := rfl
@[simp] theorem loadByte_phase (b : Byte) (s : State) : (loadByte b s).phase = s.phase := rfl
@[simp] theorem loadByte_prim (b : Byte) (s : State) : (loadByte b s).prim = s.prim := rfl
@[simp] theorem loadByte_ustep (b : Byte) (s : State) : (loadByte b s).ustep = s.ustep := rfl
@[simp] theorem loadByte_sclPin (b : Byte) (s : State) : (loadByte b s).sclPin = s.sclPin := rfl
@[simp] theorem loadByte_sdaPin (b : Byte) (s : State) : (loadByte b s).sdaPin = s.sdaPin := rfl
@[simp] theorem loadByte_delay (b : Byte) (s : State) : (loadByte b s).delay = s.delay := rfl
@[simp] theorem loadByte_retryN (b : Byte) (s : State) : (loadByte b s).retryN = s.retryN := rfl
@[simp] theorem loadByte_cmd (b : Byte) (s : State) : (loadByte b s).cmd = s.cmd := rfl
@[simp] theorem loadByte_nBytes (b : Byte) (s : State) : (loadByte b s).nBytes = s.nBytes := rfl
@[simp] theorem loadByte_busy (b : Byte) (s : State) : (loadByte b s).busy = s.busy := rfl
@[simp] theorem loadByte_done (b : Byte) (s : State) : (loadByte b s).done = s.done := rfl
@[simp] theorem loadByte_ackfail (b : Byte) (s : State) : (loadByte b s).ackfail = s.ackfail := rfl
@[simp] theorem loadByte_cmderr (b : Byte) (s : State) : (loadByte b s).cmderr = s.cmderr := rfl
@[simp] theorem loadByte_cfgerr (b : Byte) (s : State) : (loadByte b s).cfgerr = s.cfgerr := rfl
@[simp] theorem loadByte_rxCount (b : Byte) (s : State) : (loadByte b s).rxCount = s.rxCount := rfl
@[simp] theorem loadByte_txmem (b : Byte) (s : State) : (loadByte b s).txmem = s.txmem := rfl
@[simp] theorem loadByte_rxmem (b : Byte) (s : State) : (loadByte b s).rxmem = s.rxmem := rfl
@[simp] theorem loadByte_hRdata (b : Byte) (s : State) : (loadByte b s).hRdata = s.hRdata := rfl
@[simp] theorem loadByte_rxRdata (b : Byte) (s : State) : (loadByte b s).rxRdata = s.rxRdata := rfl
@[simp] theorem loadByte_agenda (b : Byte) (s : State) : (loadByte b s).agenda = s.agenda := rfl
@[simp] theorem loadByte_answers (b : Byte) (s : State) : (loadByte b s).answers = s.answers := rfl
@[simp] theorem loadByte_sampleNo (b : Byte) (s : State) : (loadByte b s).sampleNo = s.sampleNo := rfl
@[simp] theorem loadByte_freeNo (b : Byte) (s : State) : (loadByte b s).freeNo = s.freeNo := rfl
@[simp] theorem loadByte_bit (b : Byte) (s : State) : (loadByte b s).bit = s.bit := rfl
@[simp] theorem loadByte_trace (b : Byte) (s : State) : (loadByte b s).trace = s.trace := rfl
@[simp] theorem loadByte_extPull (b : Byte) (s : State) : (loadByte b s).extPull = s.extPull := rfl

/-! `setAck` -/

@[simp] theorem setAck_sclOut (b : Bool) (s : State) : (setAck b s).sclOut = s.sclOut := rfl
@[simp] theorem setAck_sdaOut (b : Bool) (s : State) : (setAck b s).sdaOut = s.sdaOut := rfl
@[simp] theorem setAck_sdaDir (b : Bool) (s : State) : (setAck b s).sdaDir = s.sdaDir := rfl
@[simp] theorem setAck_shreg (b : Bool) (s : State) : (setAck b s).shreg = s.shreg := rfl
@[simp] theorem setAck_bitcnt (b : Bool) (s : State) : (setAck b s).bitcnt = s.bitcnt := rfl
@[simp] theorem setAck_bytecnt (b : Bool) (s : State) : (setAck b s).bytecnt = s.bytecnt := rfl
@[simp] theorem setAck_retrycnt (b : Bool) (s : State) : (setAck b s).retrycnt = s.retrycnt := rfl
@[simp] theorem setAck_ackbit (b : Bool) (s : State) : (setAck b s).ackbit = b := rfl
@[simp] theorem setAck_dlycnt (b : Bool) (s : State) : (setAck b s).dlycnt = s.dlycnt := rfl
@[simp] theorem setAck_phase (b : Bool) (s : State) : (setAck b s).phase = s.phase := rfl
@[simp] theorem setAck_prim (b : Bool) (s : State) : (setAck b s).prim = s.prim := rfl
@[simp] theorem setAck_ustep (b : Bool) (s : State) : (setAck b s).ustep = s.ustep := rfl
@[simp] theorem setAck_sclPin (b : Bool) (s : State) : (setAck b s).sclPin = s.sclPin := rfl
@[simp] theorem setAck_sdaPin (b : Bool) (s : State) : (setAck b s).sdaPin = s.sdaPin := rfl
@[simp] theorem setAck_delay (b : Bool) (s : State) : (setAck b s).delay = s.delay := rfl
@[simp] theorem setAck_retryN (b : Bool) (s : State) : (setAck b s).retryN = s.retryN := rfl
@[simp] theorem setAck_cmd (b : Bool) (s : State) : (setAck b s).cmd = s.cmd := rfl
@[simp] theorem setAck_nBytes (b : Bool) (s : State) : (setAck b s).nBytes = s.nBytes := rfl
@[simp] theorem setAck_busy (b : Bool) (s : State) : (setAck b s).busy = s.busy := rfl
@[simp] theorem setAck_done (b : Bool) (s : State) : (setAck b s).done = s.done := rfl
@[simp] theorem setAck_ackfail (b : Bool) (s : State) : (setAck b s).ackfail = s.ackfail := rfl
@[simp] theorem setAck_cmderr (b : Bool) (s : State) : (setAck b s).cmderr = s.cmderr := rfl
@[simp] theorem setAck_cfgerr (b : Bool) (s : State) : (setAck b s).cfgerr = s.cfgerr := rfl
@[simp] theorem setAck_rxCount (b : Bool) (s : State) : (setAck b s).rxCount = s.rxCount := rfl
@[simp] theorem setAck_txmem (b : Bool) (s : State) : (setAck b s).txmem = s.txmem := rfl
@[simp] theorem setAck_rxmem (b : Bool) (s : State) : (setAck b s).rxmem = s.rxmem := rfl
@[simp] theorem setAck_hRdata (b : Bool) (s : State) : (setAck b s).hRdata = s.hRdata := rfl
@[simp] theorem setAck_rxRdata (b : Bool) (s : State) : (setAck b s).rxRdata = s.rxRdata := rfl
@[simp] theorem setAck_agenda (b : Bool) (s : State) : (setAck b s).agenda = s.agenda := rfl
@[simp] theorem setAck_answers (b : Bool) (s : State) : (setAck b s).answers = s.answers := rfl
@[simp] theorem setAck_sampleNo (b : Bool) (s : State) : (setAck b s).sampleNo = s.sampleNo := rfl
@[simp] theorem setAck_freeNo (b : Bool) (s : State) : (setAck b s).freeNo = s.freeNo := rfl
@[simp] theorem setAck_bit (b : Bool) (s : State) : (setAck b s).bit = s.bit := rfl
@[simp] theorem setAck_trace (b : Bool) (s : State) : (setAck b s).trace = s.trace := rfl
@[simp] theorem setAck_extPull (b : Bool) (s : State) : (setAck b s).extPull = s.extPull := rfl

/-! `clearRetry` -/

@[simp] theorem clearRetry_sclOut (s : State) : (clearRetry s).sclOut = s.sclOut := rfl
@[simp] theorem clearRetry_sdaOut (s : State) : (clearRetry s).sdaOut = s.sdaOut := rfl
@[simp] theorem clearRetry_sdaDir (s : State) : (clearRetry s).sdaDir = s.sdaDir := rfl
@[simp] theorem clearRetry_shreg (s : State) : (clearRetry s).shreg = s.shreg := rfl
@[simp] theorem clearRetry_bitcnt (s : State) : (clearRetry s).bitcnt = s.bitcnt := rfl
@[simp] theorem clearRetry_bytecnt (s : State) : (clearRetry s).bytecnt = s.bytecnt := rfl
@[simp] theorem clearRetry_retrycnt (s : State) : (clearRetry s).retrycnt = 0 := rfl
@[simp] theorem clearRetry_ackbit (s : State) : (clearRetry s).ackbit = s.ackbit := rfl
@[simp] theorem clearRetry_dlycnt (s : State) : (clearRetry s).dlycnt = s.dlycnt := rfl
@[simp] theorem clearRetry_phase (s : State) : (clearRetry s).phase = s.phase := rfl
@[simp] theorem clearRetry_prim (s : State) : (clearRetry s).prim = s.prim := rfl
@[simp] theorem clearRetry_ustep (s : State) : (clearRetry s).ustep = s.ustep := rfl
@[simp] theorem clearRetry_sclPin (s : State) : (clearRetry s).sclPin = s.sclPin := rfl
@[simp] theorem clearRetry_sdaPin (s : State) : (clearRetry s).sdaPin = s.sdaPin := rfl
@[simp] theorem clearRetry_delay (s : State) : (clearRetry s).delay = s.delay := rfl
@[simp] theorem clearRetry_retryN (s : State) : (clearRetry s).retryN = s.retryN := rfl
@[simp] theorem clearRetry_cmd (s : State) : (clearRetry s).cmd = s.cmd := rfl
@[simp] theorem clearRetry_nBytes (s : State) : (clearRetry s).nBytes = s.nBytes := rfl
@[simp] theorem clearRetry_busy (s : State) : (clearRetry s).busy = s.busy := rfl
@[simp] theorem clearRetry_done (s : State) : (clearRetry s).done = s.done := rfl
@[simp] theorem clearRetry_ackfail (s : State) : (clearRetry s).ackfail = s.ackfail := rfl
@[simp] theorem clearRetry_cmderr (s : State) : (clearRetry s).cmderr = s.cmderr := rfl
@[simp] theorem clearRetry_cfgerr (s : State) : (clearRetry s).cfgerr = s.cfgerr := rfl
@[simp] theorem clearRetry_rxCount (s : State) : (clearRetry s).rxCount = s.rxCount := rfl
@[simp] theorem clearRetry_txmem (s : State) : (clearRetry s).txmem = s.txmem := rfl
@[simp] theorem clearRetry_rxmem (s : State) : (clearRetry s).rxmem = s.rxmem := rfl
@[simp] theorem clearRetry_hRdata (s : State) : (clearRetry s).hRdata = s.hRdata := rfl
@[simp] theorem clearRetry_rxRdata (s : State) : (clearRetry s).rxRdata = s.rxRdata := rfl
@[simp] theorem clearRetry_agenda (s : State) : (clearRetry s).agenda = s.agenda := rfl
@[simp] theorem clearRetry_answers (s : State) : (clearRetry s).answers = s.answers := rfl
@[simp] theorem clearRetry_sampleNo (s : State) : (clearRetry s).sampleNo = s.sampleNo := rfl
@[simp] theorem clearRetry_freeNo (s : State) : (clearRetry s).freeNo = s.freeNo := rfl
@[simp] theorem clearRetry_bit (s : State) : (clearRetry s).bit = s.bit := rfl
@[simp] theorem clearRetry_trace (s : State) : (clearRetry s).trace = s.trace := rfl
@[simp] theorem clearRetry_extPull (s : State) : (clearRetry s).extPull = s.extPull := rfl

/-! `markAckFail` -/

@[simp] theorem markAckFail_sclOut (s : State) : (markAckFail s).sclOut = s.sclOut := rfl
@[simp] theorem markAckFail_sdaOut (s : State) : (markAckFail s).sdaOut = s.sdaOut := rfl
@[simp] theorem markAckFail_sdaDir (s : State) : (markAckFail s).sdaDir = s.sdaDir := rfl
@[simp] theorem markAckFail_shreg (s : State) : (markAckFail s).shreg = s.shreg := rfl
@[simp] theorem markAckFail_bitcnt (s : State) : (markAckFail s).bitcnt = s.bitcnt := rfl
@[simp] theorem markAckFail_bytecnt (s : State) : (markAckFail s).bytecnt = s.bytecnt := rfl
@[simp] theorem markAckFail_retrycnt (s : State) : (markAckFail s).retrycnt = s.retrycnt := rfl
@[simp] theorem markAckFail_ackbit (s : State) : (markAckFail s).ackbit = s.ackbit := rfl
@[simp] theorem markAckFail_dlycnt (s : State) : (markAckFail s).dlycnt = s.dlycnt := rfl
@[simp] theorem markAckFail_phase (s : State) : (markAckFail s).phase = s.phase := rfl
@[simp] theorem markAckFail_prim (s : State) : (markAckFail s).prim = s.prim := rfl
@[simp] theorem markAckFail_ustep (s : State) : (markAckFail s).ustep = s.ustep := rfl
@[simp] theorem markAckFail_sclPin (s : State) : (markAckFail s).sclPin = s.sclPin := rfl
@[simp] theorem markAckFail_sdaPin (s : State) : (markAckFail s).sdaPin = s.sdaPin := rfl
@[simp] theorem markAckFail_delay (s : State) : (markAckFail s).delay = s.delay := rfl
@[simp] theorem markAckFail_retryN (s : State) : (markAckFail s).retryN = s.retryN := rfl
@[simp] theorem markAckFail_cmd (s : State) : (markAckFail s).cmd = s.cmd := rfl
@[simp] theorem markAckFail_nBytes (s : State) : (markAckFail s).nBytes = s.nBytes := rfl
@[simp] theorem markAckFail_busy (s : State) : (markAckFail s).busy = s.busy := rfl
@[simp] theorem markAckFail_done (s : State) : (markAckFail s).done = s.done := rfl
@[simp] theorem markAckFail_ackfail (s : State) : (markAckFail s).ackfail = true := rfl
@[simp] theorem markAckFail_cmderr (s : State) : (markAckFail s).cmderr = s.cmderr := rfl
@[simp] theorem markAckFail_cfgerr (s : State) : (markAckFail s).cfgerr = s.cfgerr := rfl
@[simp] theorem markAckFail_rxCount (s : State) : (markAckFail s).rxCount = s.rxCount := rfl
@[simp] theorem markAckFail_txmem (s : State) : (markAckFail s).txmem = s.txmem := rfl
@[simp] theorem markAckFail_rxmem (s : State) : (markAckFail s).rxmem = s.rxmem := rfl
@[simp] theorem markAckFail_hRdata (s : State) : (markAckFail s).hRdata = s.hRdata := rfl
@[simp] theorem markAckFail_rxRdata (s : State) : (markAckFail s).rxRdata = s.rxRdata := rfl
@[simp] theorem markAckFail_agenda (s : State) : (markAckFail s).agenda = s.agenda := rfl
@[simp] theorem markAckFail_answers (s : State) : (markAckFail s).answers = s.answers := rfl
@[simp] theorem markAckFail_sampleNo (s : State) : (markAckFail s).sampleNo = s.sampleNo := rfl
@[simp] theorem markAckFail_freeNo (s : State) : (markAckFail s).freeNo = s.freeNo := rfl
@[simp] theorem markAckFail_bit (s : State) : (markAckFail s).bit = s.bit := rfl
@[simp] theorem markAckFail_trace (s : State) : (markAckFail s).trace = s.trace := rfl
@[simp] theorem markAckFail_extPull (s : State) : (markAckFail s).extPull = s.extPull := rfl

/-! `clearBytecnt` -/

@[simp] theorem clearBytecnt_sclOut (s : State) : (clearBytecnt s).sclOut = s.sclOut := rfl
@[simp] theorem clearBytecnt_sdaOut (s : State) : (clearBytecnt s).sdaOut = s.sdaOut := rfl
@[simp] theorem clearBytecnt_sdaDir (s : State) : (clearBytecnt s).sdaDir = s.sdaDir := rfl
@[simp] theorem clearBytecnt_shreg (s : State) : (clearBytecnt s).shreg = s.shreg := rfl
@[simp] theorem clearBytecnt_bitcnt (s : State) : (clearBytecnt s).bitcnt = s.bitcnt := rfl
@[simp] theorem clearBytecnt_bytecnt (s : State) : (clearBytecnt s).bytecnt = 0 := rfl
@[simp] theorem clearBytecnt_retrycnt (s : State) : (clearBytecnt s).retrycnt = s.retrycnt := rfl
@[simp] theorem clearBytecnt_ackbit (s : State) : (clearBytecnt s).ackbit = s.ackbit := rfl
@[simp] theorem clearBytecnt_dlycnt (s : State) : (clearBytecnt s).dlycnt = s.dlycnt := rfl
@[simp] theorem clearBytecnt_phase (s : State) : (clearBytecnt s).phase = s.phase := rfl
@[simp] theorem clearBytecnt_prim (s : State) : (clearBytecnt s).prim = s.prim := rfl
@[simp] theorem clearBytecnt_ustep (s : State) : (clearBytecnt s).ustep = s.ustep := rfl
@[simp] theorem clearBytecnt_sclPin (s : State) : (clearBytecnt s).sclPin = s.sclPin := rfl
@[simp] theorem clearBytecnt_sdaPin (s : State) : (clearBytecnt s).sdaPin = s.sdaPin := rfl
@[simp] theorem clearBytecnt_delay (s : State) : (clearBytecnt s).delay = s.delay := rfl
@[simp] theorem clearBytecnt_retryN (s : State) : (clearBytecnt s).retryN = s.retryN := rfl
@[simp] theorem clearBytecnt_cmd (s : State) : (clearBytecnt s).cmd = s.cmd := rfl
@[simp] theorem clearBytecnt_nBytes (s : State) : (clearBytecnt s).nBytes = s.nBytes := rfl
@[simp] theorem clearBytecnt_busy (s : State) : (clearBytecnt s).busy = s.busy := rfl
@[simp] theorem clearBytecnt_done (s : State) : (clearBytecnt s).done = s.done := rfl
@[simp] theorem clearBytecnt_ackfail (s : State) : (clearBytecnt s).ackfail = s.ackfail := rfl
@[simp] theorem clearBytecnt_cmderr (s : State) : (clearBytecnt s).cmderr = s.cmderr := rfl
@[simp] theorem clearBytecnt_cfgerr (s : State) : (clearBytecnt s).cfgerr = s.cfgerr := rfl
@[simp] theorem clearBytecnt_rxCount (s : State) : (clearBytecnt s).rxCount = s.rxCount := rfl
@[simp] theorem clearBytecnt_txmem (s : State) : (clearBytecnt s).txmem = s.txmem := rfl
@[simp] theorem clearBytecnt_rxmem (s : State) : (clearBytecnt s).rxmem = s.rxmem := rfl
@[simp] theorem clearBytecnt_hRdata (s : State) : (clearBytecnt s).hRdata = s.hRdata := rfl
@[simp] theorem clearBytecnt_rxRdata (s : State) : (clearBytecnt s).rxRdata = s.rxRdata := rfl
@[simp] theorem clearBytecnt_agenda (s : State) : (clearBytecnt s).agenda = s.agenda := rfl
@[simp] theorem clearBytecnt_answers (s : State) : (clearBytecnt s).answers = s.answers := rfl
@[simp] theorem clearBytecnt_sampleNo (s : State) : (clearBytecnt s).sampleNo = s.sampleNo := rfl
@[simp] theorem clearBytecnt_freeNo (s : State) : (clearBytecnt s).freeNo = s.freeNo := rfl
@[simp] theorem clearBytecnt_bit (s : State) : (clearBytecnt s).bit = s.bit := rfl
@[simp] theorem clearBytecnt_trace (s : State) : (clearBytecnt s).trace = s.trace := rfl
@[simp] theorem clearBytecnt_extPull (s : State) : (clearBytecnt s).extPull = s.extPull := rfl

/-! `countByte` -/

@[simp] theorem countByte_sclOut (s : State) : (countByte s).sclOut = s.sclOut := rfl
@[simp] theorem countByte_sdaOut (s : State) : (countByte s).sdaOut = s.sdaOut := rfl
@[simp] theorem countByte_sdaDir (s : State) : (countByte s).sdaDir = s.sdaDir := rfl
@[simp] theorem countByte_shreg (s : State) : (countByte s).shreg = s.shreg := rfl
@[simp] theorem countByte_bitcnt (s : State) : (countByte s).bitcnt = s.bitcnt := rfl
@[simp] theorem countByte_bytecnt (s : State) : (countByte s).bytecnt = s.bytecnt + 1 := rfl
@[simp] theorem countByte_retrycnt (s : State) : (countByte s).retrycnt = s.retrycnt := rfl
@[simp] theorem countByte_ackbit (s : State) : (countByte s).ackbit = s.ackbit := rfl
@[simp] theorem countByte_dlycnt (s : State) : (countByte s).dlycnt = s.dlycnt := rfl
@[simp] theorem countByte_phase (s : State) : (countByte s).phase = s.phase := rfl
@[simp] theorem countByte_prim (s : State) : (countByte s).prim = s.prim := rfl
@[simp] theorem countByte_ustep (s : State) : (countByte s).ustep = s.ustep := rfl
@[simp] theorem countByte_sclPin (s : State) : (countByte s).sclPin = s.sclPin := rfl
@[simp] theorem countByte_sdaPin (s : State) : (countByte s).sdaPin = s.sdaPin := rfl
@[simp] theorem countByte_delay (s : State) : (countByte s).delay = s.delay := rfl
@[simp] theorem countByte_retryN (s : State) : (countByte s).retryN = s.retryN := rfl
@[simp] theorem countByte_cmd (s : State) : (countByte s).cmd = s.cmd := rfl
@[simp] theorem countByte_nBytes (s : State) : (countByte s).nBytes = s.nBytes := rfl
@[simp] theorem countByte_busy (s : State) : (countByte s).busy = s.busy := rfl
@[simp] theorem countByte_done (s : State) : (countByte s).done = s.done := rfl
@[simp] theorem countByte_ackfail (s : State) : (countByte s).ackfail = s.ackfail := rfl
@[simp] theorem countByte_cmderr (s : State) : (countByte s).cmderr = s.cmderr := rfl
@[simp] theorem countByte_cfgerr (s : State) : (countByte s).cfgerr = s.cfgerr := rfl
@[simp] theorem countByte_rxCount (s : State) : (countByte s).rxCount = s.rxCount := rfl
@[simp] theorem countByte_txmem (s : State) : (countByte s).txmem = s.txmem := rfl
@[simp] theorem countByte_rxmem (s : State) : (countByte s).rxmem = s.rxmem := rfl
@[simp] theorem countByte_hRdata (s : State) : (countByte s).hRdata = s.hRdata := rfl
@[simp] theorem countByte_rxRdata (s : State) : (countByte s).rxRdata = s.rxRdata := rfl
@[simp] theorem countByte_agenda (s : State) : (countByte s).agenda = s.agenda := rfl
@[simp] theorem countByte_answers (s : State) : (countByte s).answers = s.answers := rfl
@[simp] theorem countByte_sampleNo (s : State) : (countByte s).sampleNo = s.sampleNo := rfl
@[simp] theorem countByte_freeNo (s : State) : (countByte s).freeNo = s.freeNo := rfl
@[simp] theorem countByte_bit (s : State) : (countByte s).bit = s.bit := rfl
@[simp] theorem countByte_trace (s : State) : (countByte s).trace = s.trace := rfl
@[simp] theorem countByte_extPull (s : State) : (countByte s).extPull = s.extPull := rfl

/-! `storeRxByte` -/

@[simp] theorem storeRxByte_sclOut (s : State) : (storeRxByte s).sclOut = s.sclOut := rfl
@[simp] theorem storeRxByte_sdaOut (s : State) : (storeRxByte s).sdaOut = s.sdaOut := rfl
@[simp] theorem storeRxByte_sdaDir (s : State) : (storeRxByte s).sdaDir = s.sdaDir := rfl
@[simp] theorem storeRxByte_shreg (s : State) : (storeRxByte s).shreg = s.shreg := rfl
@[simp] theorem storeRxByte_bitcnt (s : State) : (storeRxByte s).bitcnt = s.bitcnt := rfl
@[simp] theorem storeRxByte_bytecnt (s : State) : (storeRxByte s).bytecnt = s.bytecnt := rfl
@[simp] theorem storeRxByte_retrycnt (s : State) : (storeRxByte s).retrycnt = s.retrycnt := rfl
@[simp] theorem storeRxByte_ackbit (s : State) : (storeRxByte s).ackbit = s.ackbit := rfl
@[simp] theorem storeRxByte_dlycnt (s : State) : (storeRxByte s).dlycnt = s.dlycnt := rfl
@[simp] theorem storeRxByte_phase (s : State) : (storeRxByte s).phase = s.phase := rfl
@[simp] theorem storeRxByte_prim (s : State) : (storeRxByte s).prim = s.prim := rfl
@[simp] theorem storeRxByte_ustep (s : State) : (storeRxByte s).ustep = s.ustep := rfl
@[simp] theorem storeRxByte_sclPin (s : State) : (storeRxByte s).sclPin = s.sclPin := rfl
@[simp] theorem storeRxByte_sdaPin (s : State) : (storeRxByte s).sdaPin = s.sdaPin := rfl
@[simp] theorem storeRxByte_delay (s : State) : (storeRxByte s).delay = s.delay := rfl
@[simp] theorem storeRxByte_retryN (s : State) : (storeRxByte s).retryN = s.retryN := rfl
@[simp] theorem storeRxByte_cmd (s : State) : (storeRxByte s).cmd = s.cmd := rfl
@[simp] theorem storeRxByte_nBytes (s : State) : (storeRxByte s).nBytes = s.nBytes := rfl
@[simp] theorem storeRxByte_busy (s : State) : (storeRxByte s).busy = s.busy := rfl
@[simp] theorem storeRxByte_done (s : State) : (storeRxByte s).done = s.done := rfl
@[simp] theorem storeRxByte_ackfail (s : State) : (storeRxByte s).ackfail = s.ackfail := rfl
@[simp] theorem storeRxByte_cmderr (s : State) : (storeRxByte s).cmderr = s.cmderr := rfl
@[simp] theorem storeRxByte_cfgerr (s : State) : (storeRxByte s).cfgerr = s.cfgerr := rfl
@[simp] theorem storeRxByte_rxCount (s : State) : (storeRxByte s).rxCount = s.bytecnt + 1 := rfl
@[simp] theorem storeRxByte_txmem (s : State) : (storeRxByte s).txmem = s.txmem := rfl
@[simp] theorem storeRxByte_rxmem (s : State) : (storeRxByte s).rxmem = Memory.write s.rxmem s.bytecnt.toNat s.shreg := rfl
@[simp] theorem storeRxByte_hRdata (s : State) : (storeRxByte s).hRdata = s.hRdata := rfl
@[simp] theorem storeRxByte_rxRdata (s : State) : (storeRxByte s).rxRdata = s.rxRdata := rfl
@[simp] theorem storeRxByte_agenda (s : State) : (storeRxByte s).agenda = s.agenda := rfl
@[simp] theorem storeRxByte_answers (s : State) : (storeRxByte s).answers = s.answers := rfl
@[simp] theorem storeRxByte_sampleNo (s : State) : (storeRxByte s).sampleNo = s.sampleNo := rfl
@[simp] theorem storeRxByte_freeNo (s : State) : (storeRxByte s).freeNo = s.freeNo := rfl
@[simp] theorem storeRxByte_bit (s : State) : (storeRxByte s).bit = s.bit := rfl
@[simp] theorem storeRxByte_trace (s : State) : (storeRxByte s).trace = s.trace := rfl
@[simp] theorem storeRxByte_extPull (s : State) : (storeRxByte s).extPull = s.extPull := rfl

/-! `enterPhase` -/

@[simp] theorem enterPhase_sclOut (ph : Phase) (p : Prim) (s : State) : (enterPhase ph p s).sclOut = s.sclOut := rfl
@[simp] theorem enterPhase_sdaOut (ph : Phase) (p : Prim) (s : State) : (enterPhase ph p s).sdaOut = s.sdaOut := rfl
@[simp] theorem enterPhase_sdaDir (ph : Phase) (p : Prim) (s : State) : (enterPhase ph p s).sdaDir = s.sdaDir := rfl
@[simp] theorem enterPhase_shreg (ph : Phase) (p : Prim) (s : State) : (enterPhase ph p s).shreg = s.shreg := rfl
@[simp] theorem enterPhase_bitcnt (ph : Phase) (p : Prim) (s : State) : (enterPhase ph p s).bitcnt = s.bitcnt := rfl
@[simp] theorem enterPhase_bytecnt (ph : Phase) (p : Prim) (s : State) : (enterPhase ph p s).bytecnt = s.bytecnt := rfl
@[simp] theorem enterPhase_retrycnt (ph : Phase) (p : Prim) (s : State) : (enterPhase ph p s).retrycnt = s.retrycnt := rfl
@[simp] theorem enterPhase_ackbit (ph : Phase) (p : Prim) (s : State) : (enterPhase ph p s).ackbit = s.ackbit := rfl
@[simp] theorem enterPhase_dlycnt (ph : Phase) (p : Prim) (s : State) : (enterPhase ph p s).dlycnt = s.dlycnt := rfl
@[simp] theorem enterPhase_phase (ph : Phase) (p : Prim) (s : State) : (enterPhase ph p s).phase = ph := rfl
@[simp] theorem enterPhase_prim (ph : Phase) (p : Prim) (s : State) : (enterPhase ph p s).prim = p := rfl
@[simp] theorem enterPhase_ustep (ph : Phase) (p : Prim) (s : State) : (enterPhase ph p s).ustep = 0 := rfl
@[simp] theorem enterPhase_sclPin (ph : Phase) (p : Prim) (s : State) : (enterPhase ph p s).sclPin = s.sclPin := rfl
@[simp] theorem enterPhase_sdaPin (ph : Phase) (p : Prim) (s : State) : (enterPhase ph p s).sdaPin = s.sdaPin := rfl
@[simp] theorem enterPhase_delay (ph : Phase) (p : Prim) (s : State) : (enterPhase ph p s).delay = s.delay := rfl
@[simp] theorem enterPhase_retryN (ph : Phase) (p : Prim) (s : State) : (enterPhase ph p s).retryN = s.retryN := rfl
@[simp] theorem enterPhase_cmd (ph : Phase) (p : Prim) (s : State) : (enterPhase ph p s).cmd = s.cmd := rfl
@[simp] theorem enterPhase_nBytes (ph : Phase) (p : Prim) (s : State) : (enterPhase ph p s).nBytes = s.nBytes := rfl
@[simp] theorem enterPhase_busy (ph : Phase) (p : Prim) (s : State) : (enterPhase ph p s).busy = s.busy := rfl
@[simp] theorem enterPhase_done (ph : Phase) (p : Prim) (s : State) : (enterPhase ph p s).done = s.done := rfl
@[simp] theorem enterPhase_ackfail (ph : Phase) (p : Prim) (s : State) : (enterPhase ph p s).ackfail = s.ackfail := rfl
@[simp] theorem enterPhase_cmderr (ph : Phase) (p : Prim) (s : State) : (enterPhase ph p s).cmderr = s.cmderr := rfl
@[simp] theorem enterPhase_cfgerr (ph : Phase) (p : Prim) (s : State) : (enterPhase ph p s).cfgerr = s.cfgerr := rfl
@[simp] theorem enterPhase_rxCount (ph : Phase) (p : Prim) (s : State) : (enterPhase ph p s).rxCount = s.rxCount := rfl
@[simp] theorem enterPhase_txmem (ph : Phase) (p : Prim) (s : State) : (enterPhase ph p s).txmem = s.txmem := rfl
@[simp] theorem enterPhase_rxmem (ph : Phase) (p : Prim) (s : State) : (enterPhase ph p s).rxmem = s.rxmem := rfl
@[simp] theorem enterPhase_hRdata (ph : Phase) (p : Prim) (s : State) : (enterPhase ph p s).hRdata = s.hRdata := rfl
@[simp] theorem enterPhase_rxRdata (ph : Phase) (p : Prim) (s : State) : (enterPhase ph p s).rxRdata = s.rxRdata := rfl
@[simp] theorem enterPhase_agenda (ph : Phase) (p : Prim) (s : State) : (enterPhase ph p s).agenda = s.agenda := rfl
@[simp] theorem enterPhase_answers (ph : Phase) (p : Prim) (s : State) : (enterPhase ph p s).answers = s.answers := rfl
@[simp] theorem enterPhase_sampleNo (ph : Phase) (p : Prim) (s : State) : (enterPhase ph p s).sampleNo = s.sampleNo := rfl
@[simp] theorem enterPhase_freeNo (ph : Phase) (p : Prim) (s : State) : (enterPhase ph p s).freeNo = s.freeNo := rfl
@[simp] theorem enterPhase_bit (ph : Phase) (p : Prim) (s : State) : (enterPhase ph p s).bit = s.bit := rfl
@[simp] theorem enterPhase_trace (ph : Phase) (p : Prim) (s : State) : (enterPhase ph p s).trace = s.trace := rfl
@[simp] theorem enterPhase_extPull (ph : Phase) (p : Prim) (s : State) : (enterPhase ph p s).extPull = s.extPull := rfl

/-! `goTo` -/

@[simp] theorem goTo_sclOut (u : BitVec 4) (s : State) : (goTo u s).sclOut = s.sclOut := rfl
@[simp] theorem goTo_sdaOut (u : BitVec 4) (s : State) : (goTo u s).sdaOut = s.sdaOut := rfl
@[simp] theorem goTo_sdaDir (u : BitVec 4) (s : State) : (goTo u s).sdaDir = s.sdaDir := rfl
@[simp] theorem goTo_shreg (u : BitVec 4) (s : State) : (goTo u s).shreg = s.shreg := rfl
@[simp] theorem goTo_bitcnt (u : BitVec 4) (s : State) : (goTo u s).bitcnt = s.bitcnt := rfl
@[simp] theorem goTo_bytecnt (u : BitVec 4) (s : State) : (goTo u s).bytecnt = s.bytecnt := rfl
@[simp] theorem goTo_retrycnt (u : BitVec 4) (s : State) : (goTo u s).retrycnt = s.retrycnt := rfl
@[simp] theorem goTo_ackbit (u : BitVec 4) (s : State) : (goTo u s).ackbit = s.ackbit := rfl
@[simp] theorem goTo_dlycnt (u : BitVec 4) (s : State) : (goTo u s).dlycnt = s.dlycnt := rfl
@[simp] theorem goTo_phase (u : BitVec 4) (s : State) : (goTo u s).phase = s.phase := rfl
@[simp] theorem goTo_prim (u : BitVec 4) (s : State) : (goTo u s).prim = s.prim := rfl
@[simp] theorem goTo_ustep (u : BitVec 4) (s : State) : (goTo u s).ustep = u := rfl
@[simp] theorem goTo_sclPin (u : BitVec 4) (s : State) : (goTo u s).sclPin = s.sclPin := rfl
@[simp] theorem goTo_sdaPin (u : BitVec 4) (s : State) : (goTo u s).sdaPin = s.sdaPin := rfl
@[simp] theorem goTo_delay (u : BitVec 4) (s : State) : (goTo u s).delay = s.delay := rfl
@[simp] theorem goTo_retryN (u : BitVec 4) (s : State) : (goTo u s).retryN = s.retryN := rfl
@[simp] theorem goTo_cmd (u : BitVec 4) (s : State) : (goTo u s).cmd = s.cmd := rfl
@[simp] theorem goTo_nBytes (u : BitVec 4) (s : State) : (goTo u s).nBytes = s.nBytes := rfl
@[simp] theorem goTo_busy (u : BitVec 4) (s : State) : (goTo u s).busy = s.busy := rfl
@[simp] theorem goTo_done (u : BitVec 4) (s : State) : (goTo u s).done = s.done := rfl
@[simp] theorem goTo_ackfail (u : BitVec 4) (s : State) : (goTo u s).ackfail = s.ackfail := rfl
@[simp] theorem goTo_cmderr (u : BitVec 4) (s : State) : (goTo u s).cmderr = s.cmderr := rfl
@[simp] theorem goTo_cfgerr (u : BitVec 4) (s : State) : (goTo u s).cfgerr = s.cfgerr := rfl
@[simp] theorem goTo_rxCount (u : BitVec 4) (s : State) : (goTo u s).rxCount = s.rxCount := rfl
@[simp] theorem goTo_txmem (u : BitVec 4) (s : State) : (goTo u s).txmem = s.txmem := rfl
@[simp] theorem goTo_rxmem (u : BitVec 4) (s : State) : (goTo u s).rxmem = s.rxmem := rfl
@[simp] theorem goTo_hRdata (u : BitVec 4) (s : State) : (goTo u s).hRdata = s.hRdata := rfl
@[simp] theorem goTo_rxRdata (u : BitVec 4) (s : State) : (goTo u s).rxRdata = s.rxRdata := rfl
@[simp] theorem goTo_agenda (u : BitVec 4) (s : State) : (goTo u s).agenda = s.agenda := rfl
@[simp] theorem goTo_answers (u : BitVec 4) (s : State) : (goTo u s).answers = s.answers := rfl
@[simp] theorem goTo_sampleNo (u : BitVec 4) (s : State) : (goTo u s).sampleNo = s.sampleNo := rfl
@[simp] theorem goTo_freeNo (u : BitVec 4) (s : State) : (goTo u s).freeNo = s.freeNo := rfl
@[simp] theorem goTo_bit (u : BitVec 4) (s : State) : (goTo u s).bit = s.bit := rfl
@[simp] theorem goTo_trace (u : BitVec 4) (s : State) : (goTo u s).trace = s.trace := rfl
@[simp] theorem goTo_extPull (u : BitVec 4) (s : State) : (goTo u s).extPull = s.extPull := rfl

/-! `acceptWord` -/

@[simp] theorem acceptWord_sclOut (w : Word) (s : State) : (acceptWord w s).sclOut = s.sclOut := rfl
@[simp] theorem acceptWord_sdaOut (w : Word) (s : State) : (acceptWord w s).sdaOut = s.sdaOut := rfl
@[simp] theorem acceptWord_sdaDir (w : Word) (s : State) : (acceptWord w s).sdaDir = s.sdaDir := rfl
@[simp] theorem acceptWord_shreg (w : Word) (s : State) : (acceptWord w s).shreg = s.shreg := rfl
@[simp] theorem acceptWord_bitcnt (w : Word) (s : State) : (acceptWord w s).bitcnt = s.bitcnt := rfl
@[simp] theorem acceptWord_bytecnt (w : Word) (s : State) : (acceptWord w s).bytecnt = s.bytecnt := rfl
@[simp] theorem acceptWord_retrycnt (w : Word) (s : State) : (acceptWord w s).retrycnt = s.retrycnt := rfl
@[simp] theorem acceptWord_ackbit (w : Word) (s : State) : (acceptWord w s).ackbit = s.ackbit := rfl
@[simp] theorem acceptWord_dlycnt (w : Word) (s : State) : (acceptWord w s).dlycnt = s.dlycnt := rfl
@[simp] theorem acceptWord_phase (w : Word) (s : State) : (acceptWord w s).phase = s.phase := rfl
@[simp] theorem acceptWord_prim (w : Word) (s : State) : (acceptWord w s).prim = s.prim := rfl
@[simp] theorem acceptWord_ustep (w : Word) (s : State) : (acceptWord w s).ustep = s.ustep := rfl
@[simp] theorem acceptWord_sclPin (w : Word) (s : State) : (acceptWord w s).sclPin = s.sclPin := rfl
@[simp] theorem acceptWord_sdaPin (w : Word) (s : State) : (acceptWord w s).sdaPin = s.sdaPin := rfl
@[simp] theorem acceptWord_delay (w : Word) (s : State) : (acceptWord w s).delay = s.delay := rfl
@[simp] theorem acceptWord_retryN (w : Word) (s : State) : (acceptWord w s).retryN = s.retryN := rfl
@[simp] theorem acceptWord_cmd (w : Word) (s : State) : (acceptWord w s).cmd = w := rfl
@[simp] theorem acceptWord_nBytes (w : Word) (s : State) : (acceptWord w s).nBytes = s.nBytes := rfl
@[simp] theorem acceptWord_busy (w : Word) (s : State) : (acceptWord w s).busy = s.busy := rfl
@[simp] theorem acceptWord_done (w : Word) (s : State) : (acceptWord w s).done = false := rfl
@[simp] theorem acceptWord_ackfail (w : Word) (s : State) : (acceptWord w s).ackfail = false := rfl
@[simp] theorem acceptWord_cmderr (w : Word) (s : State) : (acceptWord w s).cmderr = false := rfl
@[simp] theorem acceptWord_cfgerr (w : Word) (s : State) : (acceptWord w s).cfgerr = false := rfl
@[simp] theorem acceptWord_rxCount (w : Word) (s : State) : (acceptWord w s).rxCount = 0 := rfl
@[simp] theorem acceptWord_txmem (w : Word) (s : State) : (acceptWord w s).txmem = s.txmem := rfl
@[simp] theorem acceptWord_rxmem (w : Word) (s : State) : (acceptWord w s).rxmem = s.rxmem := rfl
@[simp] theorem acceptWord_hRdata (w : Word) (s : State) : (acceptWord w s).hRdata = s.hRdata := rfl
@[simp] theorem acceptWord_rxRdata (w : Word) (s : State) : (acceptWord w s).rxRdata = s.rxRdata := rfl
@[simp] theorem acceptWord_agenda (w : Word) (s : State) : (acceptWord w s).agenda = s.agenda := rfl
@[simp] theorem acceptWord_answers (w : Word) (s : State) : (acceptWord w s).answers = s.answers := rfl
@[simp] theorem acceptWord_sampleNo (w : Word) (s : State) : (acceptWord w s).sampleNo = s.sampleNo := rfl
@[simp] theorem acceptWord_freeNo (w : Word) (s : State) : (acceptWord w s).freeNo = s.freeNo := rfl
@[simp] theorem acceptWord_bit (w : Word) (s : State) : (acceptWord w s).bit = s.bit := rfl
@[simp] theorem acceptWord_trace (w : Word) (s : State) : (acceptWord w s).trace = s.trace := rfl
@[simp] theorem acceptWord_extPull (w : Word) (s : State) : (acceptWord w s).extPull = s.extPull := rfl

/-! `refuseCmdErr` -/

@[simp] theorem refuseCmdErr_sclOut (s : State) : (refuseCmdErr s).sclOut = s.sclOut := rfl
@[simp] theorem refuseCmdErr_sdaOut (s : State) : (refuseCmdErr s).sdaOut = s.sdaOut := rfl
@[simp] theorem refuseCmdErr_sdaDir (s : State) : (refuseCmdErr s).sdaDir = s.sdaDir := rfl
@[simp] theorem refuseCmdErr_shreg (s : State) : (refuseCmdErr s).shreg = s.shreg := rfl
@[simp] theorem refuseCmdErr_bitcnt (s : State) : (refuseCmdErr s).bitcnt = s.bitcnt := rfl
@[simp] theorem refuseCmdErr_bytecnt (s : State) : (refuseCmdErr s).bytecnt = s.bytecnt := rfl
@[simp] theorem refuseCmdErr_retrycnt (s : State) : (refuseCmdErr s).retrycnt = s.retrycnt := rfl
@[simp] theorem refuseCmdErr_ackbit (s : State) : (refuseCmdErr s).ackbit = s.ackbit := rfl
@[simp] theorem refuseCmdErr_dlycnt (s : State) : (refuseCmdErr s).dlycnt = s.dlycnt := rfl
@[simp] theorem refuseCmdErr_phase (s : State) : (refuseCmdErr s).phase = s.phase := rfl
@[simp] theorem refuseCmdErr_prim (s : State) : (refuseCmdErr s).prim = s.prim := rfl
@[simp] theorem refuseCmdErr_ustep (s : State) : (refuseCmdErr s).ustep = s.ustep := rfl
@[simp] theorem refuseCmdErr_sclPin (s : State) : (refuseCmdErr s).sclPin = s.sclPin := rfl
@[simp] theorem refuseCmdErr_sdaPin (s : State) : (refuseCmdErr s).sdaPin = s.sdaPin := rfl
@[simp] theorem refuseCmdErr_delay (s : State) : (refuseCmdErr s).delay = s.delay := rfl
@[simp] theorem refuseCmdErr_retryN (s : State) : (refuseCmdErr s).retryN = s.retryN := rfl
@[simp] theorem refuseCmdErr_cmd (s : State) : (refuseCmdErr s).cmd = s.cmd := rfl
@[simp] theorem refuseCmdErr_nBytes (s : State) : (refuseCmdErr s).nBytes = s.nBytes := rfl
@[simp] theorem refuseCmdErr_busy (s : State) : (refuseCmdErr s).busy = s.busy := rfl
@[simp] theorem refuseCmdErr_done (s : State) : (refuseCmdErr s).done = true := rfl
@[simp] theorem refuseCmdErr_ackfail (s : State) : (refuseCmdErr s).ackfail = s.ackfail := rfl
@[simp] theorem refuseCmdErr_cmderr (s : State) : (refuseCmdErr s).cmderr = true := rfl
@[simp] theorem refuseCmdErr_cfgerr (s : State) : (refuseCmdErr s).cfgerr = s.cfgerr := rfl
@[simp] theorem refuseCmdErr_rxCount (s : State) : (refuseCmdErr s).rxCount = s.rxCount := rfl
@[simp] theorem refuseCmdErr_txmem (s : State) : (refuseCmdErr s).txmem = s.txmem := rfl
@[simp] theorem refuseCmdErr_rxmem (s : State) : (refuseCmdErr s).rxmem = s.rxmem := rfl
@[simp] theorem refuseCmdErr_hRdata (s : State) : (refuseCmdErr s).hRdata = s.hRdata := rfl
@[simp] theorem refuseCmdErr_rxRdata (s : State) : (refuseCmdErr s).rxRdata = s.rxRdata := rfl
@[simp] theorem refuseCmdErr_agenda (s : State) : (refuseCmdErr s).agenda = s.agenda := rfl
@[simp] theorem refuseCmdErr_answers (s : State) : (refuseCmdErr s).answers = s.answers := rfl
@[simp] theorem refuseCmdErr_sampleNo (s : State) : (refuseCmdErr s).sampleNo = s.sampleNo := rfl
@[simp] theorem refuseCmdErr_freeNo (s : State) : (refuseCmdErr s).freeNo = s.freeNo := rfl
@[simp] theorem refuseCmdErr_bit (s : State) : (refuseCmdErr s).bit = s.bit := rfl
@[simp] theorem refuseCmdErr_trace (s : State) : (refuseCmdErr s).trace = s.trace := rfl
@[simp] theorem refuseCmdErr_extPull (s : State) : (refuseCmdErr s).extPull = s.extPull := rfl

/-! `refuseCfgErr` -/

@[simp] theorem refuseCfgErr_sclOut (s : State) : (refuseCfgErr s).sclOut = s.sclOut := rfl
@[simp] theorem refuseCfgErr_sdaOut (s : State) : (refuseCfgErr s).sdaOut = s.sdaOut := rfl
@[simp] theorem refuseCfgErr_sdaDir (s : State) : (refuseCfgErr s).sdaDir = s.sdaDir := rfl
@[simp] theorem refuseCfgErr_shreg (s : State) : (refuseCfgErr s).shreg = s.shreg := rfl
@[simp] theorem refuseCfgErr_bitcnt (s : State) : (refuseCfgErr s).bitcnt = s.bitcnt := rfl
@[simp] theorem refuseCfgErr_bytecnt (s : State) : (refuseCfgErr s).bytecnt = s.bytecnt := rfl
@[simp] theorem refuseCfgErr_retrycnt (s : State) : (refuseCfgErr s).retrycnt = s.retrycnt := rfl
@[simp] theorem refuseCfgErr_ackbit (s : State) : (refuseCfgErr s).ackbit = s.ackbit := rfl
@[simp] theorem refuseCfgErr_dlycnt (s : State) : (refuseCfgErr s).dlycnt = s.dlycnt := rfl
@[simp] theorem refuseCfgErr_phase (s : State) : (refuseCfgErr s).phase = s.phase := rfl
@[simp] theorem refuseCfgErr_prim (s : State) : (refuseCfgErr s).prim = s.prim := rfl
@[simp] theorem refuseCfgErr_ustep (s : State) : (refuseCfgErr s).ustep = s.ustep := rfl
@[simp] theorem refuseCfgErr_sclPin (s : State) : (refuseCfgErr s).sclPin = s.sclPin := rfl
@[simp] theorem refuseCfgErr_sdaPin (s : State) : (refuseCfgErr s).sdaPin = s.sdaPin := rfl
@[simp] theorem refuseCfgErr_delay (s : State) : (refuseCfgErr s).delay = s.delay := rfl
@[simp] theorem refuseCfgErr_retryN (s : State) : (refuseCfgErr s).retryN = s.retryN := rfl
@[simp] theorem refuseCfgErr_cmd (s : State) : (refuseCfgErr s).cmd = s.cmd := rfl
@[simp] theorem refuseCfgErr_nBytes (s : State) : (refuseCfgErr s).nBytes = s.nBytes := rfl
@[simp] theorem refuseCfgErr_busy (s : State) : (refuseCfgErr s).busy = s.busy := rfl
@[simp] theorem refuseCfgErr_done (s : State) : (refuseCfgErr s).done = true := rfl
@[simp] theorem refuseCfgErr_ackfail (s : State) : (refuseCfgErr s).ackfail = s.ackfail := rfl
@[simp] theorem refuseCfgErr_cmderr (s : State) : (refuseCfgErr s).cmderr = s.cmderr := rfl
@[simp] theorem refuseCfgErr_cfgerr (s : State) : (refuseCfgErr s).cfgerr = true := rfl
@[simp] theorem refuseCfgErr_rxCount (s : State) : (refuseCfgErr s).rxCount = s.rxCount := rfl
@[simp] theorem refuseCfgErr_txmem (s : State) : (refuseCfgErr s).txmem = s.txmem := rfl
@[simp] theorem refuseCfgErr_rxmem (s : State) : (refuseCfgErr s).rxmem = s.rxmem := rfl
@[simp] theorem refuseCfgErr_hRdata (s : State) : (refuseCfgErr s).hRdata = s.hRdata := rfl
@[simp] theorem refuseCfgErr_rxRdata (s : State) : (refuseCfgErr s).rxRdata = s.rxRdata := rfl
@[simp] theorem refuseCfgErr_agenda (s : State) : (refuseCfgErr s).agenda = s.agenda := rfl
@[simp] theorem refuseCfgErr_answers (s : State) : (refuseCfgErr s).answers = s.answers := rfl
@[simp] theorem refuseCfgErr_sampleNo (s : State) : (refuseCfgErr s).sampleNo = s.sampleNo := rfl
@[simp] theorem refuseCfgErr_freeNo (s : State) : (refuseCfgErr s).freeNo = s.freeNo := rfl
@[simp] theorem refuseCfgErr_bit (s : State) : (refuseCfgErr s).bit = s.bit := rfl
@[simp] theorem refuseCfgErr_trace (s : State) : (refuseCfgErr s).trace = s.trace := rfl
@[simp] theorem refuseCfgErr_extPull (s : State) : (refuseCfgErr s).extPull = s.extPull := rfl

/-! `beginCommand` -/

@[simp] theorem beginCommand_sclOut (s : State) : (beginCommand s).sclOut = s.sclOut := rfl
@[simp] theorem beginCommand_sdaOut (s : State) : (beginCommand s).sdaOut = s.sdaOut := rfl
@[simp] theorem beginCommand_sdaDir (s : State) : (beginCommand s).sdaDir = s.sdaDir := rfl
@[simp] theorem beginCommand_shreg (s : State) : (beginCommand s).shreg = s.shreg := rfl
@[simp] theorem beginCommand_bitcnt (s : State) : (beginCommand s).bitcnt = s.bitcnt := rfl
@[simp] theorem beginCommand_bytecnt (s : State) : (beginCommand s).bytecnt = s.bytecnt := rfl
@[simp] theorem beginCommand_retrycnt (s : State) : (beginCommand s).retrycnt = s.retrycnt := rfl
@[simp] theorem beginCommand_ackbit (s : State) : (beginCommand s).ackbit = s.ackbit := rfl
@[simp] theorem beginCommand_dlycnt (s : State) : (beginCommand s).dlycnt = s.dlycnt := rfl
@[simp] theorem beginCommand_phase (s : State) : (beginCommand s).phase = .start1 := rfl
@[simp] theorem beginCommand_prim (s : State) : (beginCommand s).prim = .start := rfl
@[simp] theorem beginCommand_ustep (s : State) : (beginCommand s).ustep = 0 := rfl
@[simp] theorem beginCommand_sclPin (s : State) : (beginCommand s).sclPin = s.sclPin := rfl
@[simp] theorem beginCommand_sdaPin (s : State) : (beginCommand s).sdaPin = s.sdaPin := rfl
@[simp] theorem beginCommand_delay (s : State) : (beginCommand s).delay = s.delay := rfl
@[simp] theorem beginCommand_retryN (s : State) : (beginCommand s).retryN = s.retryN := rfl
@[simp] theorem beginCommand_cmd (s : State) : (beginCommand s).cmd = s.cmd := rfl
@[simp] theorem beginCommand_nBytes (s : State) : (beginCommand s).nBytes = s.nBytes := rfl
@[simp] theorem beginCommand_busy (s : State) : (beginCommand s).busy = true := rfl
@[simp] theorem beginCommand_done (s : State) : (beginCommand s).done = s.done := rfl
@[simp] theorem beginCommand_ackfail (s : State) : (beginCommand s).ackfail = s.ackfail := rfl
@[simp] theorem beginCommand_cmderr (s : State) : (beginCommand s).cmderr = s.cmderr := rfl
@[simp] theorem beginCommand_cfgerr (s : State) : (beginCommand s).cfgerr = s.cfgerr := rfl
@[simp] theorem beginCommand_rxCount (s : State) : (beginCommand s).rxCount = s.rxCount := rfl
@[simp] theorem beginCommand_txmem (s : State) : (beginCommand s).txmem = s.txmem := rfl
@[simp] theorem beginCommand_rxmem (s : State) : (beginCommand s).rxmem = s.rxmem := rfl
@[simp] theorem beginCommand_hRdata (s : State) : (beginCommand s).hRdata = s.hRdata := rfl
@[simp] theorem beginCommand_rxRdata (s : State) : (beginCommand s).rxRdata = s.rxRdata := rfl
@[simp] theorem beginCommand_agenda (s : State) : (beginCommand s).agenda = s.agenda := rfl
@[simp] theorem beginCommand_answers (s : State) : (beginCommand s).answers = s.answers := rfl
@[simp] theorem beginCommand_sampleNo (s : State) : (beginCommand s).sampleNo = s.sampleNo := rfl
@[simp] theorem beginCommand_freeNo (s : State) : (beginCommand s).freeNo = s.freeNo := rfl
@[simp] theorem beginCommand_bit (s : State) : (beginCommand s).bit = s.bit := rfl
@[simp] theorem beginCommand_trace (s : State) : (beginCommand s).trace = s.trace := rfl
@[simp] theorem beginCommand_extPull (s : State) : (beginCommand s).extPull = s.extPull := rfl

/-! `completeCommand` -/

@[simp] theorem completeCommand_sclOut (s : State) : (completeCommand s).sclOut = s.sclOut := rfl
@[simp] theorem completeCommand_sdaOut (s : State) : (completeCommand s).sdaOut = s.sdaOut := rfl
@[simp] theorem completeCommand_sdaDir (s : State) : (completeCommand s).sdaDir = s.sdaDir := rfl
@[simp] theorem completeCommand_shreg (s : State) : (completeCommand s).shreg = Config.freeShreg s.freeNo := rfl
@[simp] theorem completeCommand_bitcnt (s : State) : (completeCommand s).bitcnt = Config.freeBitcnt s.freeNo := rfl
@[simp] theorem completeCommand_bytecnt (s : State) : (completeCommand s).bytecnt = Config.freeBytecnt s.freeNo := rfl
@[simp] theorem completeCommand_retrycnt (s : State) : (completeCommand s).retrycnt = Config.freeRetrycnt s.freeNo := rfl
@[simp] theorem completeCommand_ackbit (s : State) : (completeCommand s).ackbit = Config.freeAckbit s.freeNo := rfl
@[simp] theorem completeCommand_dlycnt (s : State) : (completeCommand s).dlycnt = Config.freeDlycnt s.freeNo := rfl
@[simp] theorem completeCommand_phase (s : State) : (completeCommand s).phase = .idle := rfl
@[simp] theorem completeCommand_prim (s : State) : (completeCommand s).prim = Config.freePrim s.freeNo := rfl
@[simp] theorem completeCommand_ustep (s : State) : (completeCommand s).ustep = Config.freeUstep s.freeNo := rfl
@[simp] theorem completeCommand_sclPin (s : State) : (completeCommand s).sclPin = s.sclPin := rfl
@[simp] theorem completeCommand_sdaPin (s : State) : (completeCommand s).sdaPin = s.sdaPin := rfl
@[simp] theorem completeCommand_delay (s : State) : (completeCommand s).delay = s.delay := rfl
@[simp] theorem completeCommand_retryN (s : State) : (completeCommand s).retryN = s.retryN := rfl
@[simp] theorem completeCommand_cmd (s : State) : (completeCommand s).cmd = s.cmd := rfl
@[simp] theorem completeCommand_nBytes (s : State) : (completeCommand s).nBytes = s.nBytes := rfl
@[simp] theorem completeCommand_busy (s : State) : (completeCommand s).busy = false := rfl
@[simp] theorem completeCommand_done (s : State) : (completeCommand s).done = true := rfl
@[simp] theorem completeCommand_ackfail (s : State) : (completeCommand s).ackfail = s.ackfail := rfl
@[simp] theorem completeCommand_cmderr (s : State) : (completeCommand s).cmderr = s.cmderr := rfl
@[simp] theorem completeCommand_cfgerr (s : State) : (completeCommand s).cfgerr = s.cfgerr := rfl
@[simp] theorem completeCommand_rxCount (s : State) : (completeCommand s).rxCount = s.rxCount := rfl
@[simp] theorem completeCommand_txmem (s : State) : (completeCommand s).txmem = s.txmem := rfl
@[simp] theorem completeCommand_rxmem (s : State) : (completeCommand s).rxmem = s.rxmem := rfl
@[simp] theorem completeCommand_hRdata (s : State) : (completeCommand s).hRdata = s.hRdata := rfl
@[simp] theorem completeCommand_rxRdata (s : State) : (completeCommand s).rxRdata = s.rxRdata := rfl
@[simp] theorem completeCommand_agenda (s : State) : (completeCommand s).agenda = s.agenda := rfl
@[simp] theorem completeCommand_answers (s : State) : (completeCommand s).answers = s.answers := rfl
@[simp] theorem completeCommand_sampleNo (s : State) : (completeCommand s).sampleNo = s.sampleNo := rfl
@[simp] theorem completeCommand_freeNo (s : State) : (completeCommand s).freeNo = s.freeNo + 1 := rfl
@[simp] theorem completeCommand_bit (s : State) : (completeCommand s).bit = s.bit := rfl
@[simp] theorem completeCommand_trace (s : State) : (completeCommand s).trace = s.trace := rfl
@[simp] theorem completeCommand_extPull (s : State) : (completeCommand s).extPull = s.extPull := rfl

end Sys2Proof.Machine
end

