-- ==== Sys2Proof/Laws/Pins.lean ====
section
/-! SUPPORT. What each primitive does, once: its closed form, from every state. -/

namespace Sys2Proof.Machine

/-! ## `WAIT` -/

/-- The delay counter ends at 0. -/
theorem dlyRun_of_le {k : Nat} {d : BitVec 16} (h : d.toNat ≤ k) : dlyRun k d = 0 := by
  induction k generalizing d with
  | zero => exact BitVec.eq_of_toNat_eq (by simpa [dlyRun] using Nat.le_zero.mp h)
  | succ k ih =>
    simp only [dlyRun]
    split
    · assumption
    · next hd =>
      apply ih
      have : d.toNat ≠ 0 := fun hz => hd (BitVec.eq_of_toNat_eq (by simpa using hz))
      have h1 : (1 : BitVec 16).toNat ≤ d.toNat := by simp; omega
      rw [BitVec.toNat_sub_of_le h1]
      simp; omega

@[simp] theorem waitOne_dlycnt (s : State) : (waitOne s).dlycnt = 0 := dlyRun_of_le (Nat.le_refl _)

theorem waitOne_eq (s : State) : waitOne s = { s with dlycnt := 0, trace := s.trace ++ [.w] } := by
  simp only [waitOne, dlyRun_of_le (Nat.le_refl _)]

/-! ## Framing and bits -/

theorem startP_eq (s : State) : startP s =
    { s with sclOut := false, sdaOut := false, dlycnt := 0, trace := s.trace ++ startToks } := by
  simp [startP, waitOne_eq, sdaHi, sdaLo, sclHi, sclLo, startToks]

theorem stopP_eq (s : State) : stopP s =
    { s with sclOut := true, sdaOut := true, dlycnt := 0, trace := s.trace ++ stopToks } := by
  simp [stopP, waitOne_eq, sdaHi, sdaLo, sclHi, stopToks]

theorem setData_eq (v : Bool) (s : State) : setData v s = { s with sdaOut := v, trace := s.trace ++ [dataTok v] } := by
  cases v <;> rfl

theorem wbitP_eq (v : Bool) (s : State) : wbitP v s =
    { s with sclOut := false, sdaOut := v, dlycnt := 0, trace := s.trace ++ bitToks v } := by
  simp [wbitP, setData_eq, waitOne_eq, sclHi, sclLo, bitToks]

theorem mackP_eq (s : State) : mackP s =
    { s with sclOut := false, sdaOut := false, dlycnt := 0, trace := s.trace ++ bitToks false } := wbitP_eq false s

theorem mnackP_eq (s : State) : mnackP s =
    { s with sclOut := false, sdaOut := true, dlycnt := 0, trace := s.trace ++ bitToks true } := wbitP_eq true s

theorem turnP_eq (s : State) : turnP s = { s with dlycnt := 0, trace := s.trace ++ [.w] } := waitOne_eq s

/-! ## `WBYTE` -/

theorem wbyteLoop_eq (k : Nat) (s : State) : wbyteLoop k s =
    { s with
      sclOut := if k = 0 then s.sclOut else false
      sdaOut := if k = 0 then s.sdaOut else s.shreg.getLsbD 0
      dlycnt := if k = 0 then s.dlycnt else 0
      bitcnt := s.bitcnt + BitVec.ofNat 4 k
      trace := s.trace ++ ((List.range k).reverse.map (fun i => s.shreg.getLsbD i)).flatMap bitToks } := by
  induction k generalizing s with
  | zero => simp [wbyteLoop]
  | succ k ih =>
    rw [wbyteLoop, ih, wbitP_eq]
    cases k with
    | zero => simp [countBit]
    | succ k =>
      have hb : s.bitcnt + 1#4 + BitVec.ofNat 4 (k + 1) = s.bitcnt + BitVec.ofNat 4 (k + 1 + 1) := by
        rw [BitVec.add_assoc]; congr 1; apply BitVec.eq_of_toNat_eq; simp [BitVec.toNat_add]; omega
      simp [countBit, hb, List.range_succ]

theorem wbyteP_eq (b : Byte) (s : State) : wbyteP b s =
    { s with
      shreg := b, bitcnt := 8, sclOut := false, sdaOut := b.getLsbD 0, dlycnt := 0
      trace := s.trace ++ byteToks b } := by
  rw [wbyteP, wbyteLoop_eq]
  simp [loadByte, byteToks, msbFirst, List.range, List.range.loop]

/-! ## Samples -/

@[simp] theorem envBit_eq_envAt (s : State) : s.envBit = s.envAt 0 := by
  cases h : s.answers <;> simp [State.envBit, State.envAt, h]

/-- The `k`-th answer after a state that has taken `n` answers more. -/
theorem envAt_shift {s t : State} {n : Nat} (ha : t.answers = s.answers.drop n) (hn : t.sampleNo = s.sampleNo + n)
    (k : Nat) : t.envAt k = s.envAt (n + k) := by
  simp [State.envAt, ha, hn, Nat.add_assoc]

/-- With answers listed, the answers are the list's. -/
theorem envAt_of_answers {s : State} {l r : List Bool} (h : s.answers = l ++ r) {k : Nat} (hk : k < l.length) :
    s.envAt k = l[k] := by
  simp [State.envAt, h, List.getElem?_append_left hk, List.getElem?_eq_getElem hk]

theorem sampleSda_eq_of_inp {s : State} (h : s.sdaDir = .inp) : sampleSda s =
    { s with
      bit := s.envAt 0, answers := s.answers.drop 1, sampleNo := s.sampleNo + 1
      trace := s.trace ++ [sampleTok (s.envAt 0)] } := by
  simp [sampleSda, State.sdaLine, State.sdaEff, h]

theorem rbitP_eq (s : State) : rbitP s =
    { s with
      sclOut := false, dlycnt := 0, bit := s.sdaLine s.envBit, answers := s.answers.tail
      sampleNo := s.sampleNo + 1, trace := s.trace ++ readBitToks (s.sdaLine s.envBit) } := by
  simp [rbitP, waitOne_eq, sclHi, sclLo, sampleSda, State.sdaLine, State.sdaEff, State.envAt, readBitToks]

/-! ## `RBYTE` -/

theorem rbyteLoop_eq (k : Nat) (s : State) (h : s.sdaDir = .inp) : rbyteLoop k s =
    { s with
      sclOut := if k = 0 then s.sclOut else false
      dlycnt := if k = 0 then s.dlycnt else 0
      bit := if k = 0 then s.bit else s.envAt (k - 1)
      bitcnt := s.bitcnt + BitVec.ofNat 4 k
      shreg := ((List.range k).map s.envAt).foldl (fun sh b => sh.shiftConcat b) s.shreg
      answers := s.answers.drop k
      sampleNo := s.sampleNo + k
      trace := s.trace ++ ((List.range k).map s.envAt).flatMap readBitToks } := by
  induction k generalizing s with
  | zero => simp [rbyteLoop]
  | succ k ih =>
    have hlvl : s.sdaLine (s.envAt 0) = s.envAt 0 := by simp [State.sdaLine, State.sdaEff, h]
    have hsh : ∀ j, State.envAt (countBit (shiftInBit (rbitP s))) j = s.envAt (1 + j) := fun j =>
      envAt_shift (by simp [countBit, shiftInBit, rbitP_eq]) (by simp [countBit, shiftInBit, rbitP_eq]) j
    have hmap : (List.range (k + 1)).map s.envAt =
        s.envAt 0 :: (List.range k).map (State.envAt (countBit (shiftInBit (rbitP s)))) := by
      rw [List.range_succ_eq_map, List.map_cons, List.map_map]
      congr 1
      apply List.map_congr_left
      intro j _
      simp [hsh, Nat.add_comm]
    have hb : s.bitcnt + 1#4 + BitVec.ofNat 4 k = s.bitcnt + BitVec.ofNat 4 (k + 1) := by
      rw [BitVec.add_assoc]; congr 1; apply BitVec.eq_of_toNat_eq; simp [BitVec.toNat_add]; omega
    have hlast : (if k = 0 then s.envAt 0 else State.envAt (countBit (shiftInBit (rbitP s))) (k - 1)) = s.envAt k := by
      cases k with
      | zero => rfl
      | succ j => simp [hsh, Nat.add_comm]
    rw [rbyteLoop, ih _ (by simp [countBit, shiftInBit, rbitP_eq, h]), hmap]
    simp only [List.foldl_cons, List.flatMap_cons]
    rw [show (countBit (shiftInBit (rbitP s))).bit = s.envAt 0 by simp [countBit, shiftInBit, rbitP_eq, hlvl]]
    rw [hlast]
    simp [countBit, shiftInBit, rbitP_eq, hb, hlvl, Nat.add_assoc, Nat.add_comm 1 k]

/-- The eight answers a `RBYTE` reads. -/
def State.nextBits (s : State) : List Bool := (List.range 8).map s.envAt

theorem rbyteP_eq (s : State) : rbyteP s =
    { s with
      shreg := byteOfBits s.nextBits, bitcnt := 8, sclOut := false, sdaOut := true, sdaDir := .out, dlycnt := 0
      bit := s.envAt 7, answers := s.answers.drop 8, sampleNo := s.sampleNo + 8
      trace := s.trace ++ readToks s.nextBits } := by
  have hsh : ∀ j, State.envAt (loadByte 0 (dirIn (sdaHi s))) j = s.envAt j := fun j => by
    simpa using envAt_shift (s := s) (t := loadByte 0 (dirIn (sdaHi s))) (n := 0) rfl rfl j
  have hmap : (List.range 8).map (State.envAt (loadByte 0 (dirIn (sdaHi s)))) = s.nextBits :=
    List.map_congr_left (fun j _ => hsh j)
  rw [rbyteP, rbyteLoop_eq _ _ rfl, hmap, if_neg (by omega), hsh]
  simp [loadByte, dirIn, dirOut, sdaHi, byteOfBits, readToks]

/-! ## `WACK` -/

theorem pollOnce_eq {s : State} (h : s.sdaDir = .inp) : pollOnce s =
    { s with
      retrycnt := s.retrycnt + 1
      bit := s.envAt 0, answers := s.answers.drop 1, sampleNo := s.sampleNo + 1
      trace := s.trace ++ [sampleTok (s.envAt 0)] } := by
  simp [pollOnce, sampleSda_eq_of_inp h]

/-- The poll, when its sample number `j` from now is the first to read 0 and the bound allows it. -/
theorem wackLoop_ack {fuel j : Nat} {s : State} (hd : s.sdaDir = .inp) (h1 : ∀ i < j, s.envAt i = true)
    (h0 : s.envAt j = false) (hN : s.retrycnt.toNat + j < s.retryN.toNat) (hf : j < fuel) : wackLoop fuel s =
    { s with
      bit := false, ackbit := true, retrycnt := s.retrycnt + BitVec.ofNat 8 (j + 1)
      dlycnt := if j = 0 then s.dlycnt else 0
      answers := s.answers.drop (j + 1), sampleNo := s.sampleNo + (j + 1)
      trace := s.trace ++ ((List.replicate j [Tok.s1, Tok.w]).flatten ++ [.s0]) } := by
  induction j generalizing fuel s with
  | zero =>
    obtain ⟨f, rfl⟩ : ∃ f, fuel = f + 1 := ⟨fuel - 1, by omega⟩
    simp [wackLoop, pollOnce_eq hd, h0, setAck, sampleTok]
  | succ j ih =>
    obtain ⟨f, rfl⟩ : ∃ f, fuel = f + 1 := ⟨fuel - 1, by omega⟩
    have h10 : s.envAt 0 = true := h1 0 (by omega)
    have hlt := s.retryN.isLt
    have hne : s.retrycnt + 1#8 ≠ s.retryN := by
      intro h; have := congrArg BitVec.toNat h; simp [BitVec.toNat_add] at this; omega
    have hinc : (s.retrycnt + 1#8).toNat = s.retrycnt.toNat + 1 := by simp [BitVec.toNat_add]; omega
    have hsh : ∀ i, State.envAt (waitOne (pollOnce s)) i = s.envAt (1 + i) := fun i =>
      envAt_shift (by simp [pollOnce_eq hd]) (by simp [pollOnce_eq hd]) i
    have hb : s.retrycnt + 1#8 + BitVec.ofNat 8 (j + 1) = s.retrycnt + BitVec.ofNat 8 (j + 1 + 1) := by
      rw [BitVec.add_assoc]; congr 1; apply BitVec.eq_of_toNat_eq; simp [BitVec.toNat_add]; omega
    have step : wackLoop (f + 1) s = wackLoop f (waitOne (pollOnce s)) := by
      simp [wackLoop, pollOnce_eq hd, h10, hne]
    rw [step, ih (by simp [pollOnce_eq hd, hd]) (fun i hi => by rw [hsh]; exact h1 _ (by omega))
      (by rw [hsh, Nat.add_comm]; exact h0) (by simp [pollOnce_eq hd, hinc]; omega) (by omega)]
    simp [pollOnce_eq hd, waitOne_eq, h10, hb, sampleTok, List.replicate_succ, Nat.add_assoc, Nat.add_comm 1]

/-- The poll, when all the samples the bound allows read 1. -/
theorem wackLoop_nack {fuel m : Nat} {s : State} (hd : s.sdaDir = .inp) (h1 : ∀ i < m + 1, s.envAt i = true)
    (hN : s.retrycnt.toNat + (m + 1) = s.retryN.toNat) (hf : m < fuel) : wackLoop fuel s =
    { s with
      bit := true, ackbit := false, retrycnt := s.retryN
      dlycnt := if m = 0 then s.dlycnt else 0
      answers := s.answers.drop (m + 1), sampleNo := s.sampleNo + (m + 1)
      trace := s.trace ++ ((List.replicate m [Tok.s1, Tok.w]).flatten ++ [.s1]) } := by
  induction m generalizing fuel s with
  | zero =>
    obtain ⟨f, rfl⟩ : ∃ f, fuel = f + 1 := ⟨fuel - 1, by omega⟩
    have hlt := s.retryN.isLt
    have heq : s.retrycnt + 1#8 = s.retryN := by
      apply BitVec.eq_of_toNat_eq; simp [BitVec.toNat_add]; omega
    simp [wackLoop, pollOnce_eq hd, h1 0 (by omega), heq, setAck, sampleTok]
  | succ m ih =>
    obtain ⟨f, rfl⟩ : ∃ f, fuel = f + 1 := ⟨fuel - 1, by omega⟩
    have h10 : s.envAt 0 = true := h1 0 (by omega)
    have hlt := s.retryN.isLt
    have hne : s.retrycnt + 1#8 ≠ s.retryN := by
      intro h; have := congrArg BitVec.toNat h; simp [BitVec.toNat_add] at this; omega
    have hinc : (s.retrycnt + 1#8).toNat = s.retrycnt.toNat + 1 := by simp [BitVec.toNat_add]; omega
    have hsh : ∀ i, State.envAt (waitOne (pollOnce s)) i = s.envAt (1 + i) := fun i =>
      envAt_shift (by simp [pollOnce_eq hd]) (by simp [pollOnce_eq hd]) i
    have step : wackLoop (f + 1) s = wackLoop f (waitOne (pollOnce s)) := by
      simp [wackLoop, pollOnce_eq hd, h10, hne]
    rw [step, ih (by simp [pollOnce_eq hd, hd]) (fun i hi => by rw [hsh]; exact h1 _ (by omega))
      (by simp [pollOnce_eq hd, hinc]; omega) (by omega)]
    simp [pollOnce_eq hd, waitOne_eq, h10, sampleTok, List.replicate_succ, Nat.add_assoc, Nat.add_comm 1]

/-- The state in which `WACK` begins to poll. -/
theorem wack_prefix_eq (s : State) : clearRetry (waitOne (sclHi (waitOne (dirIn (sdaHi s))))) =
    { s with
      sdaOut := true, sdaDir := .inp, sclOut := true, dlycnt := 0, retrycnt := 0
      trace := s.trace ++ [.d1, .i, .w, .c1, .w] } := by
  simp [clearRetry, waitOne_eq, sclHi, dirIn, sdaHi]

theorem wack_prefix_envAt (s : State) (k : Nat) :
    State.envAt (clearRetry (waitOne (sclHi (waitOne (dirIn (sdaHi s)))))) k = s.envAt k := by
  simpa using envAt_shift (s := s) (t := clearRetry (waitOne (sclHi (waitOne (dirIn (sdaHi s)))))) (n := 0) rfl rfl k

/-- `WACK` acknowledged at its `k`-th sample. -/
theorem wackP_ack {s : State} {k : Nat} (hk : 1 ≤ k) (hN : k ≤ s.retryN.toNat)
    (h1 : ∀ i < k - 1, s.envAt i = true) (h0 : s.envAt (k - 1) = false) : wackP s =
    { s with
      sclOut := false, sdaOut := true, sdaDir := .out, dlycnt := 0, bit := false, ackbit := true
      retrycnt := BitVec.ofNat 8 k, answers := s.answers.drop k, sampleNo := s.sampleNo + k
      trace := s.trace ++ ackToks k } := by
  obtain ⟨j, rfl⟩ : ∃ j, k = j + 1 := ⟨k - 1, by omega⟩
  have hlt := s.retryN.isLt
  rw [wackP, wackLoop_ack (j := j) rfl (fun i hi => by rw [wack_prefix_envAt]; exact h1 i hi)
    (by rw [wack_prefix_envAt]; exact h0) (by simpa using hN) (by omega), wack_prefix_eq]
  simp [sclLo, dirOut, ackToks]

/-- `WACK` not acknowledged: all `N` samples read 1. -/
theorem wackP_nack {s : State} (hN : 1 ≤ s.retryN.toNat) (h1 : ∀ i < s.retryN.toNat, s.envAt i = true) : wackP s =
    { s with
      sclOut := false, sdaOut := true, sdaDir := .out, dlycnt := 0, bit := true, ackbit := false
      retrycnt := s.retryN, answers := s.answers.drop s.retryN.toNat, sampleNo := s.sampleNo + s.retryN.toNat
      trace := s.trace ++ nackToks s.retryN.toNat } := by
  obtain ⟨m, hm⟩ : ∃ m, s.retryN.toNat = m + 1 := ⟨s.retryN.toNat - 1, by omega⟩
  have hlt := s.retryN.isLt
  rw [hm] at h1
  rw [wackP, wackLoop_nack (m := m) rfl (fun i hi => by rw [wack_prefix_envAt]; exact h1 i hi) (by simp [hm])
    (by omega), wack_prefix_eq]
  simp [sclLo, dirOut, nackToks, hm]

/-- Either some sample within the bound reads 0, and the first such acknowledges, or all read 1. -/
theorem first_zero (f : Nat → Bool) (n : Nat) :
    (∃ k, 1 ≤ k ∧ k ≤ n ∧ (∀ i < k - 1, f i = true) ∧ f (k - 1) = false) ∨ (∀ i < n, f i = true) := by
  induction n with
  | zero => exact .inr (fun i hi => absurd hi (Nat.not_lt_zero i))
  | succ n ih =>
    rcases ih with ⟨k, h1, h2, h3, h4⟩ | h
    · exact .inl ⟨k, h1, by omega, h3, h4⟩
    · cases hf : f n
      · exact .inl ⟨n + 1, by omega, by omega, by simpa using h, by simpa using hf⟩
      · exact .inr (fun i hi => by rcases Nat.lt_succ_iff_lt_or_eq.mp hi with h' | rfl; exacts [h i h', hf])

/-- Everything `WACK` can do, the bound being legal. -/
theorem wackP_cases (s : State) (hN : 1 ≤ s.retryN.toNat) :
    (∃ k, 1 ≤ k ∧ k ≤ s.retryN.toNat ∧ (∀ i < k - 1, s.envAt i = true) ∧ s.envAt (k - 1) = false ∧
      wackP s = { s with
        sclOut := false, sdaOut := true, sdaDir := .out, dlycnt := 0, bit := false, ackbit := true
        retrycnt := BitVec.ofNat 8 k, answers := s.answers.drop k, sampleNo := s.sampleNo + k
        trace := s.trace ++ ackToks k }) ∨
    ((∀ i < s.retryN.toNat, s.envAt i = true) ∧
      wackP s = { s with
        sclOut := false, sdaOut := true, sdaDir := .out, dlycnt := 0, bit := true, ackbit := false
        retrycnt := s.retryN, answers := s.answers.drop s.retryN.toNat, sampleNo := s.sampleNo + s.retryN.toNat
        trace := s.trace ++ nackToks s.retryN.toNat }) := by
  rcases first_zero s.envAt s.retryN.toNat with ⟨k, h1, h2, h3, h4⟩ | h
  · exact .inl ⟨k, h1, h2, h3, h4, wackP_ack h1 h2 h3 h4⟩
  · exact .inr ⟨h, wackP_nack hN h⟩

/-! ## The end of a command -/

theorem finishCommand_eq (s : State) : finishCommand s =
    { forgetDatapath s with
      sclOut := true, sdaOut := true, trace := s.trace ++ stopToks, busy := false, done := true, phase := .idle } := by
  simp [finishCommand, completeCommand, stopP_eq, forgetDatapath]

theorem abortCommand_eq (s : State) : abortCommand s =
    { forgetDatapath s with
      sclOut := true, sdaOut := true, trace := s.trace ++ stopToks, busy := false, done := true, phase := .idle
      ackfail := true } := by
  simp [abortCommand, finishCommand_eq, markAckFail, forgetDatapath]

/-! ## The pin-change trace -/

theorem pinChanges_append (p : Pins) (l m : List Tok) :
    pinChanges p (l ++ m) = pinChanges p l ++ pinChanges (p.run l) m := by
  induction l generalizing p with
  | nil => rfl
  | cons t l ih =>
    rw [List.cons_append, pinChanges, pinChanges, ih, show p.run (t :: l) = (p.after t).run l from rfl]
    split <;> rfl

/-- The pin-change trace ends in the pair the outputs end in. -/
theorem pinChanges_getLastD (p : Pins) (l : List Tok) : (pinChanges p l).getLastD p.pair = (p.run l).pair := by
  induction l generalizing p with
  | nil => rfl
  | cons t l ih =>
    rw [pinChanges, show p.run (t :: l) = (p.after t).run l from rfl, ← ih]
    split
    · next h => rw [h]
    · cases pinChanges (p.after t) l <;> rfl

/-- Only changes are kept: no two neighbours are equal, nor is the first the pair at the start. -/
theorem pinChanges_isChain (p : Pins) (l : List Tok) : (p.pair :: pinChanges p l).IsChain (· ≠ ·) := by
  induction l generalizing p with
  | nil => exact .singleton _
  | cons t l ih =>
    rw [pinChanges]
    split
    · next h => rw [← h]; exact ih _
    · next h => exact .cons_cons (Ne.symm h) (ih _)

end Sys2Proof.Machine
end

