-- ==== Sys2Proof/Laws/Launch.lean ====
section
/-! SUPPORT. The launch and what it decides, once; `runCommand` from a state that is ready. -/

namespace Sys2Proof.Machine

theorem npins_ge_two : 2 ≤ Config.npins := by simp [Config.npins]

theorem npins_le_256 : Config.npins ≤ 256 := by have := Config.npinsOverTwo.isLt; simp [Config.npins]; omega

/-- Everything a launch can do (`43_host_interface.md` R203). -/
theorem launch_cases (w : Word) (s : State) :
    (s.busy = true ∧ launch w s = .fault .reentrantLaunch) ∨
    (s.busy = false ∧ cmdReserved w = true ∧ launch w s = .next (refuseCmdErr (acceptWord w s))) ∨
    (s.busy = false ∧ cmdReserved w = false ∧ s.cfgValid = false ∧
      launch w s = .next (refuseCfgErr (acceptWord w s))) ∨
    (s.busy = false ∧ cmdReserved w = false ∧ s.cfgValid = true ∧ s.pinsTaken = true ∧
      launch w s = .fault .pinsDrivenByOthers) ∨
    (cmdReserved w = false ∧ s.ready = true ∧ launch w s = .next (beginCommand (acceptWord w s))) := by
  unfold launch State.ready
  cases s.busy <;> cases cmdReserved w <;> cases s.cfgValid <;> cases s.pinsTaken <;> simp

/-- A ready engine accepts a command word. -/
theorem launch_of_ready {w : Word} {s : State} (hr : cmdReserved w = false) (h : s.ready = true) :
    launch w s = .next (beginCommand (acceptWord w s)) := by
  simp only [State.ready, Bool.and_eq_true, Bool.not_eq_true'] at h
  simp [launch, h.1.1, h.1.2, h.2, hr]

/-- A ready engine runs the body of the command it is given. -/
theorem runCommand_of_ready {w : Word} {s : State} (body : State → Out) (hr : cmdReserved w = false)
    (h : s.ready = true) : runCommand w body s = body (beginCommand (acceptWord w s)) := by
  simp [runCommand, launch_of_ready hr h]

/-- Everything `runCommand` can do with a word that is not reserved. -/
theorem runCommand_cases {w : Word} (hr : cmdReserved w = false) (body : State → Out) (s : State) :
    (s.busy = true ∧ runCommand w body s = .fault .reentrantLaunch) ∨
    (s.busy = false ∧ s.cfgValid = false ∧ runCommand w body s = .next (refuseCfgErr (acceptWord w s))) ∨
    (s.busy = false ∧ s.cfgValid = true ∧ s.pinsTaken = true ∧ runCommand w body s = .fault .pinsDrivenByOthers) ∨
    (s.ready = true ∧ runCommand w body s = body (beginCommand (acceptWord w s))) := by
  rcases launch_cases w s with ⟨hb, hl⟩ | ⟨-, hw, -⟩ | ⟨hb, -, hc, hl⟩ | ⟨hb, -, hc, hp, hl⟩ | ⟨-, h, -⟩
  · exact .inl ⟨hb, by simp [runCommand, hl]⟩
  · simp [hr] at hw
  · exact .inr (.inl ⟨hb, hc, by simp [runCommand, hl, hb]⟩)
  · exact .inr (.inr (.inl ⟨hb, hc, hp, by simp [runCommand, hl]⟩))
  · exact .inr (.inr (.inr ⟨h, runCommand_of_ready body hr h⟩))

end Sys2Proof.Machine
end

