-- ==== Sys2Proof/Laws/Transactions.lean ====
section
/-! SUPPORT. What a slot does, once: sending a byte and polling its acknowledge, in the two ways it can end, and the
answers that are left for the slots after it. -/

namespace Sys2Proof.Machine

/-! ## Answers -/

theorem willAnswer_iff {s : State} {l : List Bool} :
    s.willAnswer l ↔ ∀ i (h : i < l.length), s.envAt i = l[i] := by
  constructor
  · intro h i hi
    have := congrArg (·[i]?) h
    simpa [hi] using this
  · intro h
    apply List.ext_getElem (by simp)
    intro i h1 h2
    simpa using h i h2

theorem willAnswer_left {s : State} {l m : List Bool} (h : s.willAnswer (l ++ m)) : s.willAnswer l := by
  rw [willAnswer_iff] at h ⊢
  intro i hi
  rw [h i (by simp; omega), List.getElem_append_left hi]

/-- After `l.length` samples the answers left are the rest. -/
theorem willAnswer_right {s t : State} {l m : List Bool} (h : s.willAnswer (l ++ m))
    (ha : t.answers = s.answers.drop l.length) (hn : t.sampleNo = s.sampleNo + l.length) : t.willAnswer m := by
  rw [willAnswer_iff] at h ⊢
  intro i hi
  rw [envAt_shift ha hn, h _ (by simp; omega), List.getElem_append_right (by omega)]
  simp

/-- The answers of a poll that is acknowledged at its `k`-th sample. -/
theorem willAnswer_ack {s : State} {k : Nat} {m : List Bool}
    (h : s.willAnswer ((List.replicate (k - 1) true ++ [false]) ++ m)) :
    (∀ i < k - 1, s.envAt i = true) ∧ s.envAt (k - 1) = false := by
  have h := willAnswer_iff.mp (willAnswer_left h)
  refine ⟨fun i hi => ?_, ?_⟩
  · rw [h i (by simp; omega), List.getElem_append_left (by simpa using hi)]; simp
  · rw [h (k - 1) (by simp), List.getElem_append_right (by simp)]; simp

theorem ackAnswers_cons (k : Nat) (ks : List Nat) :
    ackAnswers (k :: ks) = (List.replicate (k - 1) true ++ [false]) ++ ackAnswers ks := by simp [ackAnswers]

theorem slotsToks_cons (b : Byte) (k : Nat) (l : List (Byte × Nat)) :
    slotsToks ((b, k) :: l) = byteToks b ++ ackToks k ++ slotsToks l := by simp [slotsToks]

/-! ## What stays while slots are sent -/

/-- `t` is `s` after the micro-operations `tr`, of which `n` are samples: nothing changed but the pins, the datapath
registers and `bit`. -/
structure Went (s t : State) (tr : List Tok) (n : Nat) : Prop where
  dir : t.sdaDir = .out
  outside : sameOutside s t
  cmd : t.cmd = s.cmd
  cmderr : t.cmderr = s.cmderr
  cfgerr : t.cfgerr = s.cfgerr
  ackfail : t.ackfail = s.ackfail
  rxmem : t.rxmem = s.rxmem
  rxCount : t.rxCount = s.rxCount
  answers : t.answers = s.answers.drop n
  sampleNo : t.sampleNo = s.sampleNo + n
  trace : t.trace = s.trace ++ tr

theorem sameOutside_refl (s : State) : sameOutside s s := by simp [sameOutside]

theorem sameOutside_trans {s t u : State} (h : sameOutside s t) (h' : sameOutside t u) : sameOutside s u := by
  unfold sameOutside at *
  simp_all

theorem Went.trans {s t u : State} {tr tr' : List Tok} {n n' : Nat} (h : Went s t tr n) (h' : Went t u tr' n') :
    Went s u (tr ++ tr') (n + n') where
  dir := h'.dir
  outside := sameOutside_trans h.outside h'.outside
  cmd := h'.cmd.trans h.cmd
  cmderr := h'.cmderr.trans h.cmderr
  cfgerr := h'.cfgerr.trans h.cfgerr
  ackfail := h'.ackfail.trans h.ackfail
  rxmem := h'.rxmem.trans h.rxmem
  rxCount := h'.rxCount.trans h.rxCount
  answers := by rw [h'.answers, h.answers, List.drop_drop]
  sampleNo := by rw [h'.sampleNo, h.sampleNo, Nat.add_assoc]
  trace := by rw [h'.trace, h.trace, List.append_assoc]

theorem Went.willAnswer {s t : State} {tr : List Tok} {l m : List Bool} (h : Went s t tr l.length)
    (hw : s.willAnswer (l ++ m)) : t.willAnswer m := willAnswer_right hw h.answers h.sampleNo

theorem Went.retryN {s t : State} {tr : List Tok} {n : Nat} (h : Went s t tr n) : t.retryN = s.retryN := by
  have := h.outside; unfold sameOutside at this; tauto

theorem Went.nBytes {s t : State} {tr : List Tok} {n : Nat} (h : Went s t tr n) : t.nBytes = s.nBytes := by
  have := h.outside; unfold sameOutside at this; tauto

theorem Went.txmem {s t : State} {tr : List Tok} {n : Nat} (h : Went s t tr n) : t.txmem = s.txmem := by
  have := h.outside; unfold sameOutside at this; tauto

theorem went_startP {s : State} (hd : s.sdaDir = .out) : Went s (startP s) startToks 0 := by
  rw [startP_eq]; constructor <;> simp [sameOutside, hd]

theorem went_turnP {s : State} (hd : s.sdaDir = .out) : Went s (turnP s) [.w] 0 := by
  rw [turnP_eq]; constructor <;> simp [sameOutside, hd]

/-- A write slot acknowledged at its `k`-th sample: the command goes on. -/
theorem sendByte_ack {s : State} {b : Byte} {k : Nat} (c : State → Out) (h1 : 1 ≤ k) (hk : k ≤ s.retryN.toNat)
    {m : List Bool} (hw : s.willAnswer ((List.replicate (k - 1) true ++ [false]) ++ m)) :
    ∃ t, sendByte b c s = c t ∧ Went s t (byteToks b ++ ackToks k) k ∧ t.bytecnt = s.bytecnt ∧ t.willAnswer m := by
  obtain ⟨h3, h4⟩ := willAnswer_ack hw
  have hsh : ∀ i, State.envAt (wbyteP b s) i = s.envAt i := fun i => by
    simpa using envAt_shift (s := s) (t := wbyteP b s) (n := 0) (by simp [wbyteP_eq]) (by simp [wbyteP_eq]) i
  have hwk := wackP_ack (s := wbyteP b s) h1 (by simpa [wbyteP_eq] using hk) (fun i hi => by rw [hsh]; exact h3 i hi)
    (by rw [hsh]; exact h4)
  have hwent : Went s (wackP (wbyteP b s)) (byteToks b ++ ackToks k) k := by
    rw [hwk]; simp only [wbyteP_eq]; constructor <;> simp [sameOutside]
  refine ⟨wackP (wbyteP b s), ?_, hwent, by rw [hwk]; simp [wbyteP_eq], ?_⟩
  · simp only [sendByte]; rw [if_pos (by rw [hwk])]
  · have hl : k = (List.replicate (k - 1) true ++ [false]).length := by simp; omega
    exact Went.willAnswer (l := List.replicate (k - 1) true ++ [false]) (hl ▸ hwent) hw

/-- A write slot not acknowledged in `N` samples: the abort path. -/
theorem sendByte_nack {s : State} {b : Byte} (c : State → Out) (h1 : 1 ≤ s.retryN.toNat)
    (hw : ∀ i < s.retryN.toNat, s.envAt i = true) :
    ∃ t, sendByte b c s = .next (abortCommand t) ∧ Went s t (byteToks b ++ nackToks s.retryN.toNat) s.retryN.toNat ∧
      t.bytecnt = s.bytecnt := by
  have hsh : ∀ i, State.envAt (wbyteP b s) i = s.envAt i := fun i => by
    simpa using envAt_shift (s := s) (t := wbyteP b s) (n := 0) (by simp [wbyteP_eq]) (by simp [wbyteP_eq]) i
  have hwk := wackP_nack (s := wbyteP b s) (by simpa [wbyteP_eq] using h1)
    (fun i hi => by rw [hsh]; exact hw i (by simpa [wbyteP_eq] using hi))
  refine ⟨wackP (wbyteP b s), ?_, ?_, by rw [hwk]; simp [wbyteP_eq]⟩
  · simp only [sendByte]; rw [if_neg (by rw [hwk]; simp)]
  · rw [hwk]; simp only [wbyteP_eq]; constructor <;> simp [sameOutside]

/-- The two ways a write slot can end. -/
theorem sendByte_cases (s : State) (b : Byte) (c : State → Out) (h1 : 1 ≤ s.retryN.toNat) :
    (∃ k t, 1 ≤ k ∧ k ≤ s.retryN.toNat ∧ sendByte b c s = c t ∧ Went s t (byteToks b ++ ackToks k) k ∧
      t.bytecnt = s.bytecnt) ∨
    (∃ t, sendByte b c s = .next (abortCommand t) ∧ Went s t (byteToks b ++ nackToks s.retryN.toNat) s.retryN.toNat ∧
      t.bytecnt = s.bytecnt) := by
  rcases first_zero s.envAt s.retryN.toNat with ⟨k, hk1, hk2, h3, h4⟩ | h
  · left
    have hw : s.willAnswer ((List.replicate (k - 1) true ++ [false]) ++ []) := by
      rw [List.append_nil, willAnswer_iff]
      intro i hi
      simp at hi
      by_cases hlt : i < k - 1
      · rw [List.getElem_append_left (by simpa using hlt)]; simpa using h3 i hlt
      · have : i = k - 1 := by omega
        subst this
        rw [List.getElem_append_right (by simp)]; simpa using h4
    obtain ⟨t, e, w, bc, -⟩ := sendByte_ack c hk1 hk2 hw
    exact ⟨k, t, hk1, hk2, e, w, bc⟩
  · exact .inr (sendByte_nack c h1 h)

/-! ## The payload loops -/

theorem went_refl {s : State} (hd : s.sdaDir = .out) : Went s s [] 0 := by
  constructor <;> simp [sameOutside, hd]

theorem toNat_bytecnt_succ {x : Len} (h : x.toNat + 1 < 65536) : (x + 1).toNat = x.toNat + 1 := by
  rw [BitVec.toNat_add]; simp; omega

/-- The payload loop of a write goes past the bytes whose slots are acknowledged. -/
theorem writePayload_ack {bs : List Byte} {ks : List Nat} {m : List Bool} {r : Nat} {s : State} (hd : s.sdaDir = .out)
    (hl : ks.length = bs.length) (hp : s.pollsOk ks) (hw : s.willAnswer (ackAnswers ks ++ m))
    (hm : ∀ i (h : i < bs.length), Memory.read s.txmem (s.bytecnt.toNat + i) = some bs[i])
    (hb : s.bytecnt.toNat + bs.length < 65536) :
    ∃ t, writePayload (bs.length + r) s = writePayload r t ∧
      Went s t (slotsToks (bs.zip ks)) (ackAnswers ks).length ∧ t.willAnswer m ∧
      t.bytecnt.toNat = s.bytecnt.toNat + bs.length := by
  induction bs generalizing ks s with
  | nil =>
    obtain rfl := List.length_eq_zero_iff.mp hl
    exact ⟨s, by simp, went_refl hd, by simpa [ackAnswers] using hw, by simp⟩
  | cons b bs ih =>
    obtain ⟨k, ks, rfl⟩ : ∃ k l, ks = k :: l := by
      cases ks with
      | nil => simp at hl
      | cons k l => exact ⟨k, l, rfl⟩
    obtain ⟨h1, h2⟩ := hp k (by simp)
    rw [ackAnswers_cons, List.append_assoc] at hw
    obtain ⟨t, e, w, bc, hw'⟩ := sendByte_ack (fun s => writePayload (bs.length + r) (countByte s)) h1 h2 hw
    have hc : (countByte t).bytecnt.toNat = s.bytecnt.toNat + 1 := by
      simp only [countByte, bc]; exact toNat_bytecnt_succ (by simp at hb; omega)
    have wc : Went s (countByte t) (byteToks b ++ ackToks k) k :=
      { dir := w.dir, outside := w.outside, cmd := w.cmd, cmderr := w.cmderr, cfgerr := w.cfgerr
        ackfail := w.ackfail, rxmem := w.rxmem, rxCount := w.rxCount, answers := w.answers
        sampleNo := w.sampleNo, trace := w.trace }
    obtain ⟨u, e', w', hw'', bc'⟩ := ih (ks := ks) (s := countByte t) wc.dir (by simpa using hl)
      (fun j hj => by rw [wc.retryN]; exact hp j (by simp [hj])) (willAnswer_right (l := []) hw' (by simp [countByte]) (by simp [countByte]))
      (fun i hi => by
        have := hm (i + 1) (by simpa using hi)
        rw [wc.txmem, hc]
        simpa [Nat.add_assoc, Nat.add_comm 1] using this)
      (by simp at hb; omega)
    refine ⟨u, ?_, ?_, hw'', by rw [bc', hc, List.length_cons]; omega⟩
    · have h0 : s.txByte = some b := by
        have := hm 0 (by simp)
        rwa [Nat.add_zero, List.getElem_cons_zero] at this
      have hs : (b :: bs).length + r = (bs.length + r) + 1 := by simp; omega
      rw [hs, writePayload, h0, ← e']
      exact e
    · have := wc.trans w'
      have hlen : (ackAnswers (k :: ks)).length = k + (ackAnswers ks).length := by
        rw [ackAnswers_cons]; simp; omega
      rw [hlen, List.zip_cons_cons, slotsToks_cons]
      exact this

/-- The payload loop of a read, when `bytecnt` and the bytes to go make up `LEN`. -/
theorem readPayload_reads {data : List (List Bool)} {s : State} (hd : s.sdaDir = .out) (h8 : ∀ bs ∈ data, bs.length = 8)
    (hw : s.willAnswer data.flatten) (hn : s.bytecnt.toNat + data.length = s.nBytes.toNat) :
    ∃ t, readPayload data.length s = finishCommand t ∧ t.sdaDir = .out ∧ sameOutside s t ∧ t.cmd = s.cmd ∧
      t.cmderr = s.cmderr ∧ t.cfgerr = s.cfgerr ∧ t.ackfail = s.ackfail ∧
      t.answers = s.answers.drop data.flatten.length ∧ t.sampleNo = s.sampleNo + data.flatten.length ∧
      t.trace = s.trace ++ readSlotsToks data ∧
      t.rxCount = (if data = [] then s.rxCount else s.nBytes) ∧
      (∀ i (h : i < data.length), Memory.read t.rxmem (s.bytecnt.toNat + i) = some (byteOfBits data[i])) ∧
      (∀ a, (a < s.bytecnt.toNat ∨ s.nBytes.toNat ≤ a) → Memory.read t.rxmem a = Memory.read s.rxmem a) := by
  induction data generalizing s with
  | nil => exact ⟨s, rfl, hd, sameOutside_refl s, rfl, rfl, rfl, rfl, by simp, by simp, by simp [readSlotsToks], by simp,
      by simp, by simp⟩
  | cons bs rest ih =>
    have hb8 : bs.length = 8 := h8 bs (by simp)
    have hlt := s.nBytes.isLt
    have hbits : s.nextBits = bs := by
      have := willAnswer_left (l := bs) (by simpa using hw)
      unfold State.willAnswer at this
      rw [hb8] at this; exact this
    have hrb := rbyteP_eq s
    rw [hbits] at hrb
    have hc : (s.bytecnt + 1).toNat = s.bytecnt.toNat + 1 := toNat_bytecnt_succ (by simp at hn; omega)
    have hmore : (storeRxByte (rbyteP s)).moreToRead = !rest.isEmpty := by
      have : (s.nBytes - 1).toNat = s.nBytes.toNat - 1 := by
        rw [BitVec.toNat_sub_of_le (by simp only [BitVec.le_def]; simp at hn ⊢; omega)]; simp
      have hnb : (storeRxByte (rbyteP s)).nBytes = s.nBytes := by simp [storeRxByte, hrb]
      have hbc : (storeRxByte (rbyteP s)).bytecnt = s.bytecnt := by simp [storeRxByte, hrb]
      simp only [State.moreToRead, hnb, hbc, BitVec.lt_def, this]
      cases rest <;> simp at hn ⊢ <;> omega
    -- the state after the byte and the master's acknowledge bit
    obtain ⟨u, hu⟩ : ∃ u, u = countByte (if (storeRxByte (rbyteP s)).moreToRead then mackP (storeRxByte (rbyteP s))
        else mnackP (storeRxByte (rbyteP s))) := ⟨_, rfl⟩
    have hstep : readPayload (bs :: rest).length s = readPayload rest.length u := by rw [hu]; rfl
    have hu' : u.sdaDir = .out ∧ sameOutside s u ∧ u.cmd = s.cmd ∧ u.cmderr = s.cmderr ∧ u.cfgerr = s.cfgerr ∧
        u.ackfail = s.ackfail ∧ u.answers = s.answers.drop 8 ∧ u.sampleNo = s.sampleNo + 8 ∧
        u.trace = s.trace ++ (readToks bs ++ bitToks rest.isEmpty) ∧ u.rxCount = s.bytecnt + 1 ∧
        u.bytecnt = s.bytecnt + 1 ∧ u.rxmem = Memory.write s.rxmem s.bytecnt.toNat (byteOfBits bs) := by
      rw [hu, hmore]
      cases rest <;> simp [countByte, mackP_eq, mnackP_eq, storeRxByte, hrb, sameOutside]
    obtain ⟨d1, d2, d3, d4, d5, d6, d7, d8, d9, d10, d11, d12⟩ := hu'
    have hnb : u.nBytes = s.nBytes := by unfold sameOutside at d2; tauto
    have hwu : u.willAnswer rest.flatten :=
      willAnswer_right (s := s) (l := bs) (by simpa using hw) (by rw [hb8, d7]) (by rw [hb8, d8])
    obtain ⟨t, e, e1, e2, e3, e4, e5, e6, e7, e8, e9, e10, e11, e12⟩ := ih (s := u) d1
      (fun b hb => h8 b (by simp [hb])) hwu (by rw [d11, hc, hnb]; simp at hn; omega)
    rw [d11, hc] at e11 e12
    rw [d12] at e12
    refine ⟨t, by rw [hstep, e], e1, sameOutside_trans d2 e2, e3.trans d3, e4.trans d4, e5.trans d5, e6.trans d6, ?_, ?_, ?_,
      ?_, ?_, ?_⟩
    · rw [e7, d7]; simp [List.drop_drop, hb8]
    · rw [e8, d8]; simp [hb8, Nat.add_assoc]
    · rw [e9, d9]; cases rest <;> simp [readSlotsToks]
    · rw [e10, d10, hnb]
      cases rest with
      | nil =>
        simp at hn ⊢
        apply BitVec.eq_of_toNat_eq
        rw [show (s.bytecnt + 1#16).toNat = _ from hc, hn]
      | cons => simp
    · intro i hi
      cases i with
      | zero =>
        rw [e12 _ (by omega)]; exact Memory.read_write_same _ _ _
      | succ i =>
        have := e11 i (by simpa using hi)
        simpa [Nat.add_assoc, Nat.add_comm 1] using this
    · intro a ha
      rw [e12 a (by rcases ha with h | h; exacts [.inl (by omega), .inr (by rw [hnb]; exact h)])]
      exact Memory.read_write_other _ _ (by rcases ha with h | h <;> simp at hn <;> omega)

/-! ## From the launch to the end -/

/-- The state in which a ready engine, given the word `w`, sends its first byte. -/
def afterStart (w : Word) (s : State) : State := startP (beginCommand (acceptWord w s))

theorem afterStart_eq (w : Word) (s : State) : afterStart w s =
    { s with
      cmd := w, done := false, ackfail := false, cmderr := false, cfgerr := false, rxCount := 0, busy := true
      phase := .start1, prim := .start, ustep := 0, sclOut := false, sdaOut := false, dlycnt := 0
      trace := s.trace ++ startToks } := by
  rw [afterStart, startP_eq]; rfl

theorem willAnswer_afterStart {w : Word} {s : State} {l : List Bool} (h : s.willAnswer l) :
    (afterStart w s).willAnswer l :=
  willAnswer_right (l := []) h (by simp [afterStart_eq]) (by simp [afterStart_eq])

theorem envAt_afterStart (w : Word) (s : State) (k : Nat) : (afterStart w s).envAt k = s.envAt k := by
  simpa using envAt_shift (s := s) (t := afterStart w s) (n := 0) (by simp [afterStart_eq]) (by simp [afterStart_eq]) k

/-- What a command that ends without a read leaves. -/
theorem finishCommand_of_went {w : Word} {s u : State} {tr : List Tok} {n : Nat} (h : Went (afterStart w s) u tr n) :
    (finishCommand u).ackfail = false ∧ endedWith w (finishCommand u) ∧ sameOutside s (finishCommand u) ∧
    (finishCommand u).rxmem = s.rxmem ∧ (finishCommand u).rxCount = 0 ∧
    (finishCommand u).answers = s.answers.drop n ∧ (finishCommand u).sampleNo = s.sampleNo + n ∧
    (finishCommand u).trace = s.trace ++ (startToks ++ tr ++ stopToks) := by
  obtain ⟨h1, h2, h3, h4, h5, h6, h7, h8, h9, h10, h11⟩ := h
  rw [afterStart_eq] at *
  simp [finishCommand_eq, forgetDatapath, endedWith, State.ended, State.pinsIdle, sameOutside] at *
  simp [*]

/-- What a command that is aborted leaves. -/
theorem abortCommand_of_went {w : Word} {s u : State} {tr : List Tok} {n : Nat} (h : Went (afterStart w s) u tr n) :
    (abortCommand u).ackfail = true ∧ endedWith w (abortCommand u) ∧ sameOutside s (abortCommand u) ∧
    (abortCommand u).rxmem = s.rxmem ∧ (abortCommand u).rxCount = 0 ∧
    (abortCommand u).answers = s.answers.drop n ∧ (abortCommand u).sampleNo = s.sampleNo + n ∧
    (abortCommand u).trace = s.trace ++ (startToks ++ tr ++ stopToks) := by
  obtain ⟨h1, h2, h3, h4, h5, h6, h7, h8, h9, h10, h11⟩ := h
  rw [afterStart_eq] at *
  simp [abortCommand_eq, forgetDatapath, endedWith, State.ended, State.pinsIdle, sameOutside] at *
  simp [*]

/-- A ready engine's retry bound is legal. -/
theorem retryN_pos_of_ready {s : State} (h : s.ready = true) : 1 ≤ s.retryN.toNat := by
  simp only [State.ready, State.cfgValid, Bool.and_eq_true, decide_eq_true_eq] at h
  exact h.1.2.2

/-! ## Several slots in a row -/

/-- The write slots of `bs`, then `c`. -/
def sendAll : List Byte → (State → Out) → State → Out
  | [], c, s => c s
  | b :: bs, c, s => sendByte b (sendAll bs c) s

theorem ackAnswers_length_cons {k : Nat} (ks : List Nat) (h : 1 ≤ k) :
    (ackAnswers (k :: ks)).length = k + (ackAnswers ks).length := by
  rw [ackAnswers_cons]; simp; omega

theorem ackAnswers_append (a b : List Nat) : ackAnswers (a ++ b) = ackAnswers a ++ ackAnswers b := by simp [ackAnswers]

theorem slotsToks_append (a b : List (Byte × Nat)) : slotsToks (a ++ b) = slotsToks a ++ slotsToks b := by
  simp [slotsToks]

theorem pollsOk_append {s : State} {a b : List Nat} (h : s.pollsOk (a ++ b)) : s.pollsOk a ∧ s.pollsOk b :=
  ⟨fun k hk => h k (by simp [hk]), fun k hk => h k (by simp [hk])⟩

/-- All of them acknowledged. -/
theorem sendAll_ack {bs : List Byte} {ks : List Nat} {m : List Bool} (c : State → Out) {s : State} (hne : bs ≠ [])
    (hl : ks.length = bs.length) (hp : s.pollsOk ks) (hw : s.willAnswer (ackAnswers ks ++ m)) :
    ∃ t, sendAll bs c s = c t ∧ Went s t (slotsToks (bs.zip ks)) (ackAnswers ks).length ∧ t.willAnswer m := by
  induction bs generalizing ks s with
  | nil => exact absurd rfl hne
  | cons b bs ih =>
    obtain ⟨k, ks, rfl⟩ : ∃ k l, ks = k :: l := by
      cases ks with
      | nil => simp at hl
      | cons k l => exact ⟨k, l, rfl⟩
    obtain ⟨h1, h2⟩ := hp k (by simp)
    rw [ackAnswers_cons, List.append_assoc] at hw
    obtain ⟨t, e, w, -, hw'⟩ := sendByte_ack (b := b) (sendAll bs c) h1 h2 hw
    rw [ackAnswers_length_cons _ h1, List.zip_cons_cons, slotsToks_cons]
    cases bs with
    | nil =>
      obtain rfl : ks = [] := by simpa using hl
      exact ⟨t, e, by simpa [slotsToks, ackAnswers] using w, by simpa [ackAnswers] using hw'⟩
    | cons b2 bs =>
      obtain ⟨u, e', w', hw''⟩ := ih (by simp) (by simpa using hl)
        (fun j hj => by rw [w.retryN]; exact hp j (by simp [hj])) hw'
      exact ⟨u, e.trans e', w.trans w', hw''⟩

/-- The first `ks.length` of them acknowledged, the next not. -/
theorem sendAll_nack {bs : List Byte} {ks : List Nat} {b : Byte} (c : State → Out) {s : State}
    (hN : 1 ≤ s.retryN.toNat) (hb : bs[ks.length]? = some b) (hp : s.pollsOk ks)
    (hw : s.willAnswer (ackAnswers ks ++ List.replicate s.retryN.toNat true)) :
    ∃ t n, sendAll bs c s = .next (abortCommand t) ∧
      Went s t (slotsToks (bs.zip ks) ++ byteToks b ++ nackToks s.retryN.toNat) n := by
  induction ks generalizing bs s with
  | nil =>
    cases bs with
    | nil => simp at hb
    | cons b0 bs =>
      simp at hb; subst hb
      obtain ⟨t, e, w, -⟩ := sendByte_nack (b := b0) (s := s) (sendAll bs c) hN (by
        have := willAnswer_iff.mp hw
        intro i hi; rw [this i (by simpa [ackAnswers] using hi)]; simp [ackAnswers])
      exact ⟨t, _, e, by simpa [slotsToks] using w⟩
  | cons k ks ih =>
    cases bs with
    | nil => simp at hb
    | cons b0 bs =>
      obtain ⟨h1, h2⟩ := hp k (by simp)
      rw [ackAnswers_cons, List.append_assoc] at hw
      obtain ⟨t, e, w, -, hw'⟩ := sendByte_ack (b := b0) (sendAll bs c) h1 h2 hw
      obtain ⟨u, n, e', w'⟩ := ih (bs := bs) (s := t) (by rw [w.retryN]; exact hN) (by simpa using hb)
        (fun j hj => by rw [w.retryN]; exact hp j (by simp [hj])) (by rw [w.retryN]; exact hw')
      rw [w.retryN] at w'
      exact ⟨u, _, e.trans e', by simpa [slotsToks_cons, List.append_assoc] using w.trans w'⟩

/-! ## Each command from a ready state -/

theorem exec_probe_of_ready {s : State} (h : s.ready = true) (dev : DevAddr) (reg : RegAddr) :
    exec (.probe dev reg) s =
      sendAll [adb dev false] (fun t => .next (finishCommand t)) (afterStart (wordOf (.probe dev reg)) s) := by
  refine (runCommand_of_ready (probeBody dev) (by simp [cmdReserved_cmdWord]) h).trans ?_
  simp only [probeBody, sendAll, sendByte, abortCommand]
  split <;> next hb => simp only [afterStart, wordOf, encode, hb]; rfl

theorem exec_wr8_of_ready {s : State} (h : s.ready = true) (dev : DevAddr) (reg : RegAddr) :
    exec (.wr8 dev reg) s =
      sendAll [adb dev false, regLo reg] writeData (afterStart (wordOf (.wr8 dev reg)) s) :=
  runCommand_of_ready (wr8Body dev reg) (by simp [cmdReserved_cmdWord]) h

theorem exec_wr16_of_ready {s : State} (h : s.ready = true) (dev : DevAddr) (reg : RegAddr) :
    exec (.wr16 dev reg) s =
      sendAll [adb dev false, regHi reg, regLo reg] writeData (afterStart (wordOf (.wr16 dev reg)) s) :=
  runCommand_of_ready (wr16Body dev reg) (by simp [cmdReserved_cmdWord]) h

theorem exec_rd8_of_ready {s : State} (h : s.ready = true) (dev : DevAddr) (reg : RegAddr) :
    exec (.rd8 dev reg) s =
      sendAll [adb dev false, regLo reg] (readData dev) (afterStart (wordOf (.rd8 dev reg)) s) :=
  runCommand_of_ready (rd8Body dev reg) (by simp [cmdReserved_cmdWord]) h

theorem exec_rd16_of_ready {s : State} (h : s.ready = true) (dev : DevAddr) (reg : RegAddr) :
    exec (.rd16 dev reg) s =
      sendAll [adb dev false, regHi reg, regLo reg] (readData dev) (afterStart (wordOf (.rd16 dev reg)) s) :=
  runCommand_of_ready (rd16Body dev reg) (by simp [cmdReserved_cmdWord]) h

end Sys2Proof.Machine
end

