-- ==== Sys2Proof/Laws/Engine.lean ====
section
/-! SUPPORT. The engine's turn, once: what it answers, and what the sequencer leaves alone. -/

namespace Sys2Proof.Machine

/-- A micro-operation as a function of the state. -/
def doUop (u : Uop) (s : State) : State :=
  match u with
  | .sdaLo => sdaLo s
  | .sdaHi => sdaHi s
  | .sclLo => sclLo s
  | .sclHi => sclHi s
  | .dirOut => dirOut s
  | .dirIn => dirIn s
  | .wait => waitOne s
  | .sample => sampleSda s

theorem exec_toInstr (u : Uop) (s : State) : exec u.toInstr s = .next (doUop u s) := by cases u <;> rfl

/-- Everything an engine turn can do. -/
theorem engineTurn_cases (s : State) :
    (s.busy = false ∧ engineTurn s = .next s) ∨
    (s.busy = true ∧ s.pinsTaken = true ∧ engineTurn s = .fault .pinsDrivenByOthers) ∨
    (s.busy = true ∧ s.pinsTaken = false ∧ s.uopAt = none ∧ engineTurn s = .fault .sequencerLost) ∨
    (s.busy = true ∧ s.pinsTaken = false ∧ ∃ u, s.uopAt = some u ∧ engineTurn s = afterUop (doUop u s)) := by
  cases hb : s.busy <;> cases hp : s.pinsTaken <;> cases hu : s.uopAt <;>
    simp [engineTurn, hb, hp, hu, exec_toInstr]

theorem engineTurn_of_uopAt {s : State} {u : Uop} (hb : s.busy = true) (hp : s.pinsTaken = false)
    (hu : s.uopAt = some u) : engineTurn s = afterUop (doUop u s) := by
  simp [engineTurn, hb, hp, hu, exec_toInstr]

/-- A step with an empty agenda is an engine turn. -/
theorem step_of_agenda_nil {s : State} (h : s.agenda = []) : step s = engineTurn s := by simp [step, h]

/-- No micro-operation moves the position. -/
@[simp] theorem doUop_phase (u : Uop) (s : State) : (doUop u s).phase = s.phase := by cases u <;> rfl
@[simp] theorem doUop_prim (u : Uop) (s : State) : (doUop u s).prim = s.prim := by cases u <;> rfl
@[simp] theorem doUop_ustep (u : Uop) (s : State) : (doUop u s).ustep = s.ustep := by cases u <;> rfl
@[simp] theorem doUop_busy (u : Uop) (s : State) : (doUop u s).busy = s.busy := by cases u <;> rfl
@[simp] theorem doUop_shreg (u : Uop) (s : State) : (doUop u s).shreg = s.shreg := by cases u <;> rfl
@[simp] theorem doUop_bitcnt (u : Uop) (s : State) : (doUop u s).bitcnt = s.bitcnt := by cases u <;> rfl
@[simp] theorem doUop_bytecnt (u : Uop) (s : State) : (doUop u s).bytecnt = s.bytecnt := by cases u <;> rfl
@[simp] theorem doUop_retrycnt (u : Uop) (s : State) : (doUop u s).retrycnt = s.retrycnt := by cases u <;> rfl
@[simp] theorem doUop_ackbit (u : Uop) (s : State) : (doUop u s).ackbit = s.ackbit := by cases u <;> rfl
@[simp] theorem doUop_cmd (u : Uop) (s : State) : (doUop u s).cmd = s.cmd := by cases u <;> rfl
@[simp] theorem doUop_done (u : Uop) (s : State) : (doUop u s).done = s.done := by cases u <;> rfl
@[simp] theorem doUop_ackfail (u : Uop) (s : State) : (doUop u s).ackfail = s.ackfail := by cases u <;> rfl
@[simp] theorem doUop_cmderr (u : Uop) (s : State) : (doUop u s).cmderr = s.cmderr := by cases u <;> rfl
@[simp] theorem doUop_cfgerr (u : Uop) (s : State) : (doUop u s).cfgerr = s.cfgerr := by cases u <;> rfl
@[simp] theorem doUop_rxmem (u : Uop) (s : State) : (doUop u s).rxmem = s.rxmem := by cases u <;> rfl
@[simp] theorem doUop_rxCount (u : Uop) (s : State) : (doUop u s).rxCount = s.rxCount := by cases u <;> rfl

theorem sameOutside_doUop (u : Uop) (s : State) : sameOutside s (doUop u s) := by
  cases u <;> simp [doUop, sdaLo, sdaHi, sclLo, sclHi, dirOut, dirIn, waitOne, sampleSda, sameOutside]

/-! ## The sequencer never touches the pins -/

/-- The sequencer's updates leave the pins, the trace, `CMD` and everything outside the engine alone. -/
structure Moved (s t : State) : Prop where
  pins : t.pins = s.pins
  trace : t.trace = s.trace
  cmd : t.cmd = s.cmd
  cmderr : t.cmderr = s.cmderr
  cfgerr : t.cfgerr = s.cfgerr
  answers : t.answers = s.answers
  sampleNo : t.sampleNo = s.sampleNo
  outside : sameOutside s t

theorem moved_refl (s : State) : Moved s s := by constructor <;> simp [sameOutside]

theorem Moved.trans {s t u : State} (h : Moved s t) (h' : Moved t u) : Moved s u where
  pins := h'.pins.trans h.pins
  trace := h'.trace.trans h.trace
  cmd := h'.cmd.trans h.cmd
  cmderr := h'.cmderr.trans h.cmderr
  cfgerr := h'.cfgerr.trans h.cfgerr
  answers := h'.answers.trans h.answers
  sampleNo := h'.sampleNo.trans h.sampleNo
  outside := sameOutside_trans h.outside h'.outside

theorem moved_goTo (u : BitVec 4) (s : State) : Moved s (goTo u s) := by constructor <;> simp [goTo, State.pins, sameOutside]

theorem moved_enterPhase (ph : Phase) (p : Prim) (s : State) : Moved s (enterPhase ph p s) := by
  constructor <;> simp [enterPhase, State.pins, sameOutside]

theorem moved_enterWbyte (ph : Phase) (b : Byte) (s : State) : Moved s (enterWbyte ph b s) := by
  constructor <;> simp [enterWbyte, loadByte, enterPhase, State.pins, sameOutside]

theorem moved_enterAbort (s : State) : Moved s (enterAbort s) := by
  constructor <;> simp [enterAbort, markAckFail, enterPhase, State.pins, sameOutside]

theorem moved_clearBytecnt (s : State) : Moved s (clearBytecnt s) := by
  constructor <;> simp [clearBytecnt, State.pins, sameOutside]

theorem moved_countByte (s : State) : Moved s (countByte s) := by constructor <;> simp [countByte, State.pins, sameOutside]

theorem moved_storeRxByte (s : State) : Moved s (storeRxByte s) := by
  constructor <;> simp [storeRxByte, State.pins, sameOutside]

theorem moved_countBit (s : State) : Moved s (countBit s) := by constructor <;> simp [countBit, State.pins, sameOutside]

theorem moved_shiftInBit (s : State) : Moved s (shiftInBit s) := by
  constructor <;> simp [shiftInBit, State.pins, sameOutside]

theorem moved_completeCommand (s : State) : Moved s (completeCommand s) := by
  constructor <;> simp [completeCommand, forgetDatapath, State.pins, sameOutside]

theorem moved_nextWriteByte {s t : State} (h : nextWriteByte s = .next t) : Moved s t := by
  unfold nextWriteByte at h
  repeat' split at h
  all_goals cases h
  · exact moved_enterWbyte _ _ _
  · exact moved_enterPhase _ _ _

theorem moved_nextReadByte (s : State) : Moved s (nextReadByte s) := by
  unfold nextReadByte
  split <;> exact moved_enterPhase _ _ _

theorem moved_endPhase {s t : State} (h : endPhase s = .next t) : Moved s t := by
  unfold endPhase at h
  split at h
  all_goals repeat' split at h
  all_goals first
    | exact (moved_clearBytecnt s).trans (moved_nextWriteByte h)
    | exact (moved_countByte s).trans (moved_nextWriteByte h)
    | cases h
  all_goals first
    | exact moved_enterWbyte _ _ _
    | exact moved_enterAbort _
    | exact moved_completeCommand _
    | exact moved_enterPhase _ _ _
    | exact (moved_countByte s).trans (moved_nextReadByte _)
    | exact (moved_storeRxByte s).trans (moved_enterPhase _ _ _)
    | exact (moved_clearBytecnt s).trans (moved_nextReadByte _)

theorem moved_afterReadBit (s : State) : Moved s (afterReadBit s) := by
  unfold afterReadBit
  dsimp only
  split <;> exact ((moved_shiftInBit s).trans (moved_countBit _)).trans (moved_goTo _ _)

theorem moved_afterPoll (s : State) : Moved s (afterPoll s) := by
  unfold afterPoll
  dsimp only
  repeat' split
  all_goals constructor <;> simp [goTo, setAck, State.pins, sameOutside]

theorem moved_afterUop {s t : State} (h : afterUop s = .next t) : Moved s t := by
  unfold afterUop at h
  split at h
  · unfold afterSentBit at h
    dsimp only at h
    split at h
    · exact (moved_countBit s).trans (moved_endPhase h)
    · cases h; exact (moved_countBit s).trans (moved_goTo _ _)
  · cases h; constructor <;> simp [goTo, loadByte, State.pins, sameOutside]
  · cases h; exact moved_afterReadBit s
  · cases h; constructor <;> simp [goTo, clearRetry, State.pins, sameOutside]
  · cases h; exact moved_afterPoll s
  · cases h; exact moved_goTo _ _
  · split at h
    · exact moved_endPhase h
    · cases h; exact moved_goTo _ _

end Sys2Proof.Machine
end

