-- ==== Sys2Proof/Laws/Sequencer.lean ====
section
/-! SUPPORT. The machine one micro-operation at a time, once: what a primitive, a slot and a payload loop come to when
nobody disturbs the engine, and in how many steps. -/

namespace Sys2Proof.Machine

/-- `k` steps of the machine. -/
abbrev turns (k : Nat) (s : State) : Out := Host.Core.run Sys2Proof.core k s

/-- The engine runs undisturbed: it is busy, its lines are its own, and no other agent is listed. -/
structure Driving (s : State) : Prop where
  busy : s.busy = true
  lines : s.pinsTaken = false
  agenda : s.agenda = []
  phase : s.phase ≠ .idle

theorem turns_zero (s : State) : turns 0 s = .next s := rfl

theorem step_driving {s : State} {u : Uop} (d : Driving s)
    (hu : (primSeq s.prim s.dataBit)[s.ustep.toNat]? = some u) : step s = afterUop (doUop u s) := by
  rw [step_of_agenda_nil d.agenda, engineTurn_of_uopAt d.busy d.lines]
  simp [State.uopAt, d.phase, hu]

theorem turns_one (s : State) : turns 1 s = step s := by
  simp only [turns, Host.Core.run, Sys2Proof.core]
  cases step s <;> rfl

theorem turns_add {s t : State} {a : Nat} (h : turns a s = .next t) (b : Nat) : turns (a + b) s = turns b t := by
  induction a generalizing s with
  | zero => cases h; rw [Nat.zero_add]
  | succ a ih =>
    rw [Nat.add_right_comm]
    simp only [turns, Host.Core.run] at h ⊢
    split at h
    · exact ih h
    · cases h
    · cases h

theorem Driving.of_eq {s t : State} (d : Driving s) (h1 : t.busy = s.busy) (h2 : t.sclPin = s.sclPin)
    (h3 : t.sdaPin = s.sdaPin) (h4 : t.extPull = s.extPull) (h5 : t.agenda = s.agenda) (h6 : t.phase = s.phase) :
    Driving t := by
  obtain ⟨a, b, c, e⟩ := d
  constructor <;> simp_all [State.pinsTaken]

/-- The micro-operations of a list, one after the other. -/
def doAll : List Uop → State → State
  | [], s => s
  | u :: l, s => doAll l (doUop u s)

/-- After micro-operation `u` of primitive `p` the position moves to the next one and nothing else happens. -/
def ordinary (p : Prim) (u : Nat) : Bool :=
  match p, u with
  | .wbyte, 4 => false
  | .rbyte, 1 => false
  | .rbyte, 6 => false
  | .wack, 4 => false
  | .wack, 5 => false
  | .wack, 6 => false
  | p, u => u + 1 != (primSeq p false).length

theorem afterUop_of_ordinary {s : State} (h : ordinary s.prim s.ustep.toNat = true) :
    afterUop s = .next (goTo (s.ustep + 1) s) := by
  unfold ordinary at h
  unfold afterUop
  split at h <;> simp_all

theorem doAll_goTo (l : List Uop) (u : BitVec 4) (s : State) : doAll l (goTo u s) = goTo u (doAll l s) := by
  induction l generalizing s with
  | nil => rfl
  | cons x l ih => rw [doAll, doAll, ← ih]; cases x <;> rfl

theorem turns_straight (l : List Uop) {s : State} (d : Driving s)
    (hl : ∀ i (h : i < l.length), (primSeq s.prim s.dataBit)[s.ustep.toNat + i]? = some l[i])
    (ho : ∀ i < l.length, ordinary s.prim (s.ustep.toNat + i) = true) :
    turns l.length s = .next (goTo (s.ustep + BitVec.ofNat 4 l.length) (doAll l s)) := by
  induction l generalizing s with
  | nil => simp [turns_zero, doAll, goTo]
  | cons u l ih =>
    have h1 : turns 1 s = .next (goTo (s.ustep + 1) (doUop u s)) := by
      rw [turns_one, step_driving d (by simpa using hl 0 (by simp)), afterUop_of_ordinary (by simpa using ho 0 (by simp))]
      simp
    have hlt : (s.ustep + 1#4).toNat = s.ustep.toNat + 1 := by
      have h0 := hl 0 (by simp)
      have : s.ustep.toNat < 9 := by
        by_contra hc
        have : (primSeq s.prim s.dataBit).length ≤ s.ustep.toNat + 0 := by
          cases s.prim <;> cases s.dataBit <;> simp [primSeq, bitSeq] <;> omega
        rw [List.getElem?_eq_none this] at h0
        cases h0
      simp [BitVec.toNat_add]; omega
    rw [List.length_cons, Nat.add_comm, turns_add h1, ih]
    · congr 1
      rw [doAll_goTo, doAll]
      simp only [goTo]
      congr 1
      rw [BitVec.add_assoc]; congr 1; apply BitVec.eq_of_toNat_eq; simp [BitVec.toNat_add]
    · exact d.of_eq (by simp) (by cases u <;> rfl) (by cases u <;> rfl) (by cases u <;> rfl) (by cases u <;> rfl) (by simp)
    · intro i hi
      have := hl (i + 1) (by simpa using hi)
      have e : State.dataBit (goTo (s.ustep + 1#4) (doUop u s)) = s.dataBit := by simp [State.dataBit]
      simpa [hlt, e, Nat.add_assoc, Nat.add_comm 1] using this
    · intro i hi
      have := ho (i + 1) (by simpa using hi)
      simpa [hlt, Nat.add_assoc, Nat.add_comm 1] using this

theorem Driving.goTo {s : State} (d : Driving s) (u : BitVec 4) : Driving (goTo u s) := d.of_eq rfl rfl rfl rfl rfl rfl

theorem Driving.doUop {s : State} (d : Driving s) (u : Uop) : Driving (doUop u s) := by
  cases u <;> exact d.of_eq rfl rfl rfl rfl rfl rfl

theorem Driving.doAll {s : State} (d : Driving s) (l : List Uop) : Driving (doAll l s) := by
  induction l generalizing s with
  | nil => exact d
  | cons u l ih => exact ih (d.doUop u)

theorem doAll_prim (l : List Uop) (s : State) : (doAll l s).prim = s.prim := by
  induction l generalizing s with
  | nil => rfl
  | cons u l ih => rw [doAll, ih]; simp

theorem doUop_goTo (u : Uop) (v : BitVec 4) (s : State) : doUop u (goTo v s) = goTo v (doUop u s) :=
  doAll_goTo [u] v s

/-- The last micro-operation of a primitive whose end is no special case. -/
theorem step_last {s : State} {u : Uop} (d : Driving s)
    (hu : (primSeq s.prim s.dataBit)[s.ustep.toNat]? = some u)
    (hs : s.prim ≠ .wbyte) (hl : s.ustep.toNat + 1 = (primSeq s.prim false).length) :
    step s = endPhase (doUop u s) := by
  rw [step_driving d hu]
  unfold afterUop
  split <;> simp_all [primSeq]

/-- A straight primitive: all but its last micro-operation, then the end of the phase. -/
theorem turns_whole (l : List Uop) (u : Uop) {s : State} (d : Driving s) (h0 : s.ustep = 0) (hs : s.prim ≠ .wbyte)
    (hl : ∀ v, primSeq s.prim v = l ++ [u]) (ho : ∀ i < l.length, ordinary s.prim i = true) :
    turns (l.length + 1) s = endPhase (goTo (BitVec.ofNat 4 l.length) (doUop u (doAll l s))) := by
  have hlen : l.length < 16 := by
    have h := congrArg List.length (hl false)
    simp at h
    have : (primSeq s.prim false).length ≤ 9 := by cases s.prim <;> decide
    omega
  rw [turns_add (turns_straight l d
    (by intro i hi; rw [hl, h0]; simp [List.getElem?_append_left hi]) (by simpa [h0] using ho)), turns_one,
    h0, show (0 : BitVec 4) + BitVec.ofNat 4 l.length = BitVec.ofNat 4 l.length from BitVec.zero_add _,
    ← doUop_goTo]
  have hp : (goTo (BitVec.ofNat 4 l.length) (doAll l s)).prim = s.prim := doAll_prim l s
  have hn : (goTo (BitVec.ofNat 4 l.length) (doAll l s)).ustep.toNat = l.length := by simp [goTo]; omega
  exact step_last ((d.doAll l).goTo _) (by rw [hp, hn, hl]; simp) (by rwa [hp]) (by rw [hp, hn, hl]; simp)

theorem turns_start {s : State} (d : Driving s) (hp : s.prim = .start) (h0 : s.ustep = 0) :
    turns 6 s = endPhase (goTo 5 (startP s)) :=
  turns_whole [.sdaHi, .sclHi, .wait, .sdaLo, .wait] .sclLo d h0 (by simp [hp]) (by simp [hp, primSeq]) (by rw [hp]; decide)

theorem turns_stop {s : State} (d : Driving s) (hp : s.prim = .stop) (h0 : s.ustep = 0) :
    turns 5 s = endPhase (goTo 4 (stopP s)) :=
  turns_whole [.sdaLo, .wait, .sclHi, .wait] .sdaHi d h0 (by simp [hp]) (by simp [hp, primSeq]) (by rw [hp]; decide)

theorem turns_mack {s : State} (d : Driving s) (hp : s.prim = .mack) (h0 : s.ustep = 0) :
    turns 5 s = endPhase (goTo 4 (mackP s)) :=
  turns_whole [.sdaLo, .wait, .sclHi, .wait] .sclLo d h0 (by simp [hp]) (by simp [hp, primSeq, bitSeq]) (by rw [hp]; decide)

theorem turns_mnack {s : State} (d : Driving s) (hp : s.prim = .mnack) (h0 : s.ustep = 0) :
    turns 5 s = endPhase (goTo 4 (mnackP s)) :=
  turns_whole [.sdaHi, .wait, .sclHi, .wait] .sclLo d h0 (by simp [hp]) (by simp [hp, primSeq, bitSeq]) (by rw [hp]; decide)

theorem turns_turn {s : State} (d : Driving s) (hp : s.prim = .turn) (h0 : s.ustep = 0) :
    turns 1 s = endPhase (goTo 0 (turnP s)) :=
  turns_whole [] .wait d h0 (by simp [hp]) (by simp [hp, primSeq]) (by simp)

/-! ## The positions where more happens than a move to the next -/

theorem afterUop_wbyte {s : State} (hp : s.prim = .wbyte) (h : s.ustep = 4) : afterUop s = afterSentBit s := by
  simp [afterUop, hp, h]

theorem afterUop_rbyte_begin {s : State} (hp : s.prim = .rbyte) (h : s.ustep = 1) :
    afterUop s = .next (goTo 2 (loadByte 0 s)) := by simp [afterUop, hp, h]

theorem afterUop_rbyte_bit {s : State} (hp : s.prim = .rbyte) (h : s.ustep = 6) :
    afterUop s = .next (afterReadBit s) := by simp [afterUop, hp, h]

theorem afterUop_wack_begin {s : State} (hp : s.prim = .wack) (h : s.ustep = 4) :
    afterUop s = .next (goTo 5 (clearRetry s)) := by simp [afterUop, hp, h]

theorem afterUop_wack_poll {s : State} (hp : s.prim = .wack) (h : s.ustep = 5) :
    afterUop s = .next (afterPoll s) := by simp [afterUop, hp, h]

theorem afterUop_wack_again {s : State} (hp : s.prim = .wack) (h : s.ustep = 6) :
    afterUop s = .next (goTo 5 s) := by simp [afterUop, hp, h]

/-! ## `WBYTE` -/

/-- One bit of `WBYTE`. -/
theorem turns_sendBit {s : State} (d : Driving s) (hp : s.prim = .wbyte) (h0 : s.ustep = 0) :
    turns 5 s = afterSentBit (goTo 4 (wbitP s.dataBit s)) := by
  obtain ⟨x, hx, hv⟩ : ∃ x, bitSeq s.dataBit = [x, .wait, .sclHi, .wait, .sclLo] ∧
    doAll [x, .wait, .sclHi, .wait, .sclLo] s = wbitP s.dataBit s := by
    cases s.dataBit
    · exact ⟨.sdaLo, rfl, rfl⟩
    · exact ⟨.sdaHi, rfl, rfl⟩
  have hq : primSeq s.prim s.dataBit = [x, .wait, .sclHi, .wait, .sclLo] := by rw [hp]; exact hx
  have h4 : turns 4 s = .next (goTo 4 (doAll [x, .wait, .sclHi, .wait] s)) := by
    have := turns_straight [x, .wait, .sclHi, .wait] d
      (by rw [hq, h0]; intro i hi; simp at hi; interval_cases i <;> rfl)
      (by rw [hp, h0]; intro i hi; simp at hi; interval_cases i <;> rfl)
    rwa [h0] at this
  have hp' : (goTo 4 (doAll [x, .wait, .sclHi, .wait] s)).prim = .wbyte := (doAll_prim _ s).trans hp
  rw [turns_add (a := 4) (b := 1) h4, turns_one, step_driving (u := .sclLo) ((d.doAll _).goTo _) (by rw [hp']; rfl),
    doUop_goTo, ← hv]
  exact afterUop_wbyte (by rw [← hp']; exact doUop_prim _ _) rfl

/-- The bits of `WBYTE` that are left. -/
theorem turns_sendBits (k : Nat) {s : State} (d : Driving s) (hp : s.prim = .wbyte) (h0 : s.ustep = 0)
    (hk : s.bitcnt.toNat + (k + 1) = 8) : turns (5 * (k + 1)) s = endPhase (goTo 4 (wbyteLoop (k + 1) s)) := by
  induction k generalizing s with
  | zero =>
    rw [turns_sendBit d hp h0]
    have hb : s.bitcnt + 1#4 = 8#4 := by apply BitVec.eq_of_toNat_eq; simp [BitVec.toNat_add]; omega
    simp [afterSentBit, countBit, goTo, wbitP_eq, hb, wbyteLoop, State.dataBit, show s.bitcnt.toNat = 7 by omega]
  | succ k ih =>
    have hb : (s.bitcnt + 1#4).toNat = s.bitcnt.toNat + 1 := by simp [BitVec.toNat_add]; omega
    have hne : s.bitcnt + 1#4 ≠ 8#4 := by intro h; rw [h] at hb; simp at hb; omega
    have hd : s.dataBit = s.shreg.getLsbD (k + 1) := by
      rw [State.dataBit]; congr 1; omega
    have h5 : turns 5 s = .next (goTo 0 (countBit (wbitP s.dataBit s))) := by
      rw [turns_sendBit d hp h0]
      simp [afterSentBit, countBit, goTo, wbitP_eq, hne]
    rw [show 5 * (k + 1 + 1) = 5 + 5 * (k + 1) by omega, turns_add h5,
      ih (d.of_eq (by simp [goTo, countBit, wbitP_eq]) (by simp [goTo, countBit, wbitP_eq]) (by simp [goTo, countBit, wbitP_eq])
        (by simp [goTo, countBit, wbitP_eq]) (by simp [goTo, countBit, wbitP_eq]) (by simp [goTo, countBit, wbitP_eq]))
        (by simp [goTo, countBit, wbitP_eq, hp]) rfl (by simp [goTo, countBit, wbitP_eq, hb]; omega)]
    rw [show wbyteLoop (k + 1 + 1) s = wbyteLoop (k + 1) (countBit (wbitP (s.shreg.getLsbD (k + 1)) s)) from rfl, ← hd,
      wbyteLoop_eq, wbyteLoop_eq]
    simp [goTo]

theorem turns_wbyte {s : State} (d : Driving s) (hp : s.prim = .wbyte) (h0 : s.ustep = 0) (hb : s.bitcnt = 0) :
    turns 40 s = endPhase (goTo 4 (wbyteP s.shreg s)) := by
  have h := turns_sendBits 7 d hp h0 (by simp [hb])
  rw [h, wbyteP]
  congr 3
  simp [loadByte, ← hb]

/-! ## The position does not matter to the primitives -/

/-- `s` at another position. -/
def place (ph : Phase) (p : Prim) (u : BitVec 4) (s : State) : State := { s with phase := ph, prim := p, ustep := u }

theorem goTo_eq_place (u : BitVec 4) (s : State) : goTo u s = place s.phase s.prim u s := rfl

theorem startP_place (ph : Phase) (p : Prim) (u : BitVec 4) (s : State) :
    startP (place ph p u s) = place ph p u (startP s) := rfl

theorem stopP_place (ph : Phase) (p : Prim) (u : BitVec 4) (s : State) :
    stopP (place ph p u s) = place ph p u (stopP s) := rfl

theorem turnP_place (ph : Phase) (p : Prim) (u : BitVec 4) (s : State) :
    turnP (place ph p u s) = place ph p u (turnP s) := rfl

theorem wbitP_place (v : Bool) (ph : Phase) (p : Prim) (u : BitVec 4) (s : State) :
    wbitP v (place ph p u s) = place ph p u (wbitP v s) := by cases v <;> rfl

theorem wbyteP_place (b : Byte) (ph : Phase) (p : Prim) (u : BitVec 4) (s : State) :
    wbyteP b (place ph p u s) = place ph p u (wbyteP b s) := by rw [wbyteP_eq, wbyteP_eq]; rfl

theorem rbyteLoop_place (k : Nat) (ph : Phase) (p : Prim) (u : BitVec 4) (s : State) :
    rbyteLoop k (place ph p u s) = place ph p u (rbyteLoop k s) := by
  induction k generalizing s with
  | zero => rfl
  | succ k ih => rw [rbyteLoop, rbyteLoop, ← ih]; rfl

theorem rbyteLoop_goTo (k : Nat) (u : BitVec 4) (s : State) : rbyteLoop k (goTo u s) = goTo u (rbyteLoop k s) := by
  induction k generalizing s with
  | zero => rfl
  | succ k ih => rw [rbyteLoop, rbyteLoop, ← ih]; rfl

theorem rbyteP_place (ph : Phase) (p : Prim) (u : BitVec 4) (s : State) :
    rbyteP (place ph p u s) = place ph p u (rbyteP s) := by
  rw [rbyteP, rbyteP, show loadByte 0 (dirIn (sdaHi (place ph p u s))) = place ph p u (loadByte 0 (dirIn (sdaHi s))) from rfl,
    rbyteLoop_place]
  rfl

theorem wackLoop_place (k : Nat) (ph : Phase) (p : Prim) (u : BitVec 4) (s : State) :
    wackLoop k (place ph p u s) = place ph p u (wackLoop k s) := by
  induction k generalizing s with
  | zero => rfl
  | succ k ih =>
    have e : pollOnce (place ph p u s) = place ph p u (pollOnce s) := rfl
    simp only [wackLoop, e, show (place ph p u (pollOnce s)).bit = (pollOnce s).bit from rfl,
      show (place ph p u (pollOnce s)).retrycnt = (pollOnce s).retrycnt from rfl,
      show (place ph p u (pollOnce s)).retryN = (pollOnce s).retryN from rfl]
    rw [show waitOne (place ph p u (pollOnce s)) = place ph p u (waitOne (pollOnce s)) from rfl, ih]
    split
    · rfl
    · split <;> rfl

theorem wackLoop_goTo (k : Nat) (u : BitVec 4) (s : State) : wackLoop k (goTo u s) = goTo u (wackLoop k s) := by
  induction k generalizing s with
  | zero => rfl
  | succ k ih =>
    have e : pollOnce (goTo u s) = goTo u (pollOnce s) := rfl
    simp only [wackLoop, e, show (goTo u (pollOnce s)).bit = (pollOnce s).bit from rfl,
      show (goTo u (pollOnce s)).retrycnt = (pollOnce s).retrycnt from rfl,
      show (goTo u (pollOnce s)).retryN = (pollOnce s).retryN from rfl]
    rw [show waitOne (goTo u (pollOnce s)) = goTo u (waitOne (pollOnce s)) from rfl, ih]
    split
    · rfl
    · split <;> rfl

theorem wackP_place (ph : Phase) (p : Prim) (u : BitVec 4) (s : State) :
    wackP (place ph p u s) = place ph p u (wackP s) := by
  rw [wackP, wackP, show clearRetry (waitOne (sclHi (waitOne (dirIn (sdaHi (place ph p u s)))))) =
    place ph p u (clearRetry (waitOne (sclHi (waitOne (dirIn (sdaHi s)))))) from rfl, wackLoop_place]
  rfl

theorem finishCommand_place (ph : Phase) (p : Prim) (u : BitVec 4) (s : State) :
    finishCommand (place ph p u s) = finishCommand s := rfl

theorem abortCommand_place (ph : Phase) (p : Prim) (u : BitVec 4) (s : State) :
    abortCommand (place ph p u s) = abortCommand s := rfl

theorem sendByte_place (b : Byte) (c : State → Out) (ph : Phase) (p : Prim) (u : BitVec 4)
    (hc : ∀ s, c (place ph p u s) = c s) (s : State) : sendByte b c (place ph p u s) = sendByte b c s := by
  simp only [sendByte, wbyteP_place, wackP_place, hc]
  rfl

theorem writePayload_place (ph : Phase) (p : Prim) (u : BitVec 4) (r : Nat) (s : State) :
    writePayload r (place ph p u s) = writePayload r s := by
  induction r generalizing s with
  | zero => rfl
  | succ r ih =>
    simp only [writePayload]
    rw [show (place ph p u s).txByte = s.txByte from rfl]
    cases s.txByte with
    | none => rfl
    | some b => exact sendByte_place b _ ph p u (fun t => ih (countByte t)) s

theorem readPayload_place (ph : Phase) (p : Prim) (u : BitVec 4) (r : Nat) (s : State) :
    readPayload r (place ph p u s) = readPayload r s := by
  induction r generalizing s with
  | zero => rfl
  | succ r ih =>
    rw [readPayload, readPayload, rbyteP_place]
    generalize rbyteP s = t
    show readPayload r (countByte (if (storeRxByte t).moreToRead then mackP (place ph p u (storeRxByte t))
      else mnackP (place ph p u (storeRxByte t)))) =
      readPayload r (countByte (if (storeRxByte t).moreToRead then mackP (storeRxByte t) else mnackP (storeRxByte t)))
    generalize storeRxByte t = t
    cases t.moreToRead
    · exact ih (countByte (mnackP t))
    · exact ih (countByte (mackP t))

/-! ## `RBYTE` -/

theorem turns_readBit {s : State} (d : Driving s) (hp : s.prim = .rbyte) (h0 : s.ustep = 2) :
    turns 5 s = .next (afterReadBit (goTo 6 (rbitP s))) := by
  have h4 : turns 4 s = .next (goTo 6 (doAll [.wait, .sclHi, .wait, .sample] s)) := by
    have := turns_straight [.wait, .sclHi, .wait, .sample] d
      (by rw [hp, h0]; intro i hi; simp at hi; interval_cases i <;> rfl)
      (by rw [hp, h0]; intro i hi; simp at hi; interval_cases i <;> rfl)
    rwa [h0] at this
  have hp' : (goTo 6 (doAll [.wait, .sclHi, .wait, .sample] s)).prim = .rbyte := (doAll_prim _ s).trans hp
  rw [turns_add (a := 4) (b := 1) h4, turns_one, step_driving (u := .sclLo) ((d.doAll _).goTo _) (by rw [hp']; rfl),
    doUop_goTo]
  exact afterUop_rbyte_bit (by rw [← hp']; exact doUop_prim _ _) rfl

theorem turns_readBits (k : Nat) {s : State} (d : Driving s) (hp : s.prim = .rbyte) (h0 : s.ustep = 2)
    (hk : s.bitcnt.toNat + (k + 1) = 8) : turns (5 * (k + 1)) s = .next (goTo 7 (rbyteLoop (k + 1) s)) := by
  have hc : (countBit (shiftInBit (goTo 6 (rbitP s)))).bitcnt = s.bitcnt + 1#4 := by
    simp [countBit, shiftInBit, goTo, rbitP_eq]
  induction k generalizing s with
  | zero =>
    rw [turns_readBit d hp h0]
    have hb : s.bitcnt + 1#4 = 8#4 := by apply BitVec.eq_of_toNat_eq; simp [BitVec.toNat_add]; omega
    rw [afterReadBit, if_pos (by rw [hc, hb]; rfl)]
    rfl
  | succ k ih =>
    have hb : (s.bitcnt + 1#4).toNat = s.bitcnt.toNat + 1 := by simp [BitVec.toNat_add]; omega
    have hne : s.bitcnt + 1#4 ≠ 8#4 := by intro h; rw [h] at hb; simp at hb; omega
    have h5 : turns 5 s = .next (goTo 2 (countBit (shiftInBit (rbitP s)))) := by
      rw [turns_readBit d hp h0, afterReadBit, if_neg (by rw [hc]; exact hne)]
      rfl
    have d' : Driving (goTo 2 (countBit (shiftInBit (rbitP s)))) := d.of_eq rfl rfl rfl rfl rfl rfl
    have hb' : (goTo 2 (countBit (shiftInBit (rbitP s)))).bitcnt = s.bitcnt + 1#4 := by
      simp [countBit, shiftInBit, goTo, rbitP_eq]
    rw [show 5 * (k + 1 + 1) = 5 + 5 * (k + 1) by omega, turns_add h5,
      ih d' hp rfl (by rw [hb', hb]; omega) (by simp [countBit, shiftInBit, goTo, rbitP_eq])]
    rw [rbyteLoop_goTo]
    rfl

theorem turns_rbyte {s : State} (d : Driving s) (hp : s.prim = .rbyte) (h0 : s.ustep = 0) :
    turns 43 s = endPhase (goTo 7 (rbyteP s)) := by
  have h2 : turns 2 s = .next (goTo 2 (loadByte 0 (dirIn (sdaHi s)))) := by
    have h1 := turns_straight [.sdaHi] d
      (by rw [hp, h0]; intro i hi; simp at hi; subst hi; rfl) (by rw [hp, h0]; intro i hi; simp at hi; subst hi; rfl)
    rw [h0] at h1
    rw [turns_add (a := 1) (b := 1) h1, turns_one,
      step_driving (u := .dirIn) ((d.doAll _).goTo _) (by rw [show (goTo _ (doAll [.sdaHi] s)).prim = .rbyte from hp]; rfl)]
    exact afterUop_rbyte_begin hp rfl
  have d2 : Driving (goTo 2 (loadByte 0 (dirIn (sdaHi s)))) := d.of_eq rfl rfl rfl rfl rfl rfl
  have h42 := turns_readBits 7 d2 hp rfl (by simp [goTo, loadByte])
  have e : goTo 7 (rbyteLoop (7 + 1) (goTo 2 (loadByte 0 (dirIn (sdaHi s))))) =
      goTo 7 (rbyteLoop 8 (loadByte 0 (dirIn (sdaHi s)))) := by
    rw [rbyteLoop_goTo]; rfl
  rw [e] at h42
  rw [turns_add (a := 2) (b := 41) h2, turns_add (a := 40) (b := 1) h42, turns_one]
  have f : ∀ t, (rbyteLoop 8 t).prim = t.prim ∧ (rbyteLoop 8 t).busy = t.busy ∧ (rbyteLoop 8 t).sclPin = t.sclPin ∧
      (rbyteLoop 8 t).sdaPin = t.sdaPin ∧ (rbyteLoop 8 t).extPull = t.extPull ∧ (rbyteLoop 8 t).agenda = t.agenda ∧
      (rbyteLoop 8 t).phase = t.phase := by
    intro t; exact ⟨rfl, rfl, rfl, rfl, rfl, rfl, rfl⟩
  obtain ⟨f1, f2, f3, f4, f5, f6, f7⟩ := f (loadByte 0 (dirIn (sdaHi s)))
  have hp7 : (goTo 7 (rbyteLoop 8 (loadByte 0 (dirIn (sdaHi s))))).prim = .rbyte := f1.trans hp
  rw [step_last (u := .dirOut) ((d.of_eq f2 f3 f4 f5 f6 f7).goTo 7) (by rw [hp7]; rfl) (by rw [hp7]; decide) (by rw [hp7]; rfl)]
  rfl

/-! ## `WACK` -/

/-- What the poll leaves alone. -/
theorem wackLoop_fields (k : Nat) (s : State) : (wackLoop k s).prim = s.prim ∧ (wackLoop k s).busy = s.busy ∧
    (wackLoop k s).sclPin = s.sclPin ∧ (wackLoop k s).sdaPin = s.sdaPin ∧ (wackLoop k s).extPull = s.extPull ∧
    (wackLoop k s).agenda = s.agenda ∧ (wackLoop k s).phase = s.phase := by
  induction k generalizing s with
  | zero => exact ⟨rfl, rfl, rfl, rfl, rfl, rfl, rfl⟩
  | succ k ih =>
    simp only [wackLoop]
    split
    · exact ⟨rfl, rfl, rfl, rfl, rfl, rfl, rfl⟩
    · split
      · exact ⟨rfl, rfl, rfl, rfl, rfl, rfl, rfl⟩
      · exact ih _

theorem turns_poll (fuel : Nat) {s : State} (d : Driving s) (hp : s.prim = .wack) (h0 : s.ustep = 5)
    (hN : s.retrycnt.toNat < s.retryN.toNat) (hf : s.retryN.toNat - s.retrycnt.toNat ≤ fuel) :
    ∃ k, turns k s = .next (goTo 7 (wackLoop fuel s)) ∧ s.trace.length + k = (wackLoop fuel s).trace.length := by
  induction fuel generalizing s with
  | zero => omega
  | succ f ih =>
    have h1 : turns 1 s = .next (afterPoll (sampleSda s)) := by
      rw [turns_one, step_driving (u := .sample) d (by rw [hp, h0]; rfl)]
      exact afterUop_wack_poll hp h0
    have ha : afterPoll (sampleSda s) =
        if (pollOnce s).bit = false then goTo 7 (setAck true (pollOnce s))
        else if (pollOnce s).retrycnt = (pollOnce s).retryN then goTo 7 (setAck false (pollOnce s))
        else goTo 6 (pollOnce s) := rfl
    have hlt := s.retryN.isLt
    have hinc : (s.retrycnt + 1#8).toNat = s.retrycnt.toNat + 1 := by simp [BitVec.toNat_add]; omega
    have ht : (pollOnce s).trace.length = s.trace.length + 1 := by simp [pollOnce]
    rw [ha] at h1
    simp only [wackLoop]
    split at h1
    · next hb => exact ⟨1, by rw [h1, if_pos hb], by rw [if_pos hb]; exact ht.symm⟩
    · next hb =>
      split at h1
      · next hr => exact ⟨1, by rw [h1, if_neg hb, if_pos hr], by rw [if_neg hb, if_pos hr]; exact ht.symm⟩
      · next hr =>
        have hne : s.retrycnt + 1#8 ≠ s.retryN := hr
        have hne' : (s.retrycnt + 1#8).toNat ≠ s.retryN.toNat := fun h => hne (BitVec.eq_of_toNat_eq h)
        have d1 : Driving (goTo 6 (pollOnce s)) := d.of_eq rfl rfl rfl rfl rfl rfl
        have h2 : turns 2 s = .next (goTo 5 (waitOne (pollOnce s))) := by
          rw [turns_add (a := 1) (b := 1) h1, turns_one,
            step_driving (u := .wait) d1 (by rw [show (goTo 6 (pollOnce s)).prim = .wack from hp]; rfl)]
          exact afterUop_wack_again hp rfl
        have hc : (goTo 5 (waitOne (pollOnce s))).retrycnt = s.retrycnt + 1#8 := rfl
        have hn : (goTo 5 (waitOne (pollOnce s))).retryN = s.retryN := rfl
        obtain ⟨k, e, l⟩ := ih (s := goTo 5 (waitOne (pollOnce s))) (d.of_eq rfl rfl rfl rfl rfl rfl) hp rfl
          (by rw [hc, hn, hinc]; omega) (by rw [hc, hn, hinc]; omega)
        refine ⟨2 + k, ?_, ?_⟩
        · rw [turns_add h2, e, if_neg hb, if_neg hr, wackLoop_goTo]
          rfl
        · rw [if_neg hb, if_neg hr]
          rw [wackLoop_goTo] at l
          have : (goTo 5 (waitOne (pollOnce s))).trace.length = s.trace.length + 2 := by simp [goTo, pollOnce, waitOne]
          rw [this] at l
          have l' : s.trace.length + 2 + k = (wackLoop f (waitOne (pollOnce s))).trace.length := l
          omega

theorem turns_wack {s : State} (d : Driving s) (hp : s.prim = .wack) (h0 : s.ustep = 0) (hN : 1 ≤ s.retryN.toNat) :
    ∃ k, turns k s = endPhase (goTo 8 (wackP s)) ∧ s.trace.length + k = (wackP s).trace.length := by
  have h4 := turns_straight [.sdaHi, .dirIn, .wait, .sclHi] d
    (by rw [hp, h0]; intro i hi; simp at hi; interval_cases i <;> rfl)
    (by rw [hp, h0]; intro i hi; simp at hi; interval_cases i <;> rfl)
  rw [h0] at h4
  have h5 : turns 5 s = .next (goTo 5 (clearRetry (waitOne (sclHi (waitOne (dirIn (sdaHi s))))))) := by
    rw [turns_add (a := 4) (b := 1) h4, turns_one, step_driving (u := .wait) ((d.doAll _).goTo _)
      (by rw [show (goTo _ (doAll [.sdaHi, .dirIn, .wait, .sclHi] s)).prim = .wack from hp]; rfl)]
    exact afterUop_wack_begin hp rfl
  have hlt := s.retryN.isLt
  obtain ⟨k, e, l⟩ := turns_poll 256
    (s := goTo 5 (clearRetry (waitOne (sclHi (waitOne (dirIn (sdaHi s))))))) (d.of_eq rfl rfl rfl rfl rfl rfl) hp rfl
    (by simp [goTo, clearRetry]; omega) (by simp [goTo, clearRetry]; omega)
  rw [wackLoop_goTo] at e l
  have e' : turns k (goTo 5 (clearRetry (waitOne (sclHi (waitOne (dirIn (sdaHi s))))))) =
    .next (goTo 7 (wackLoop 256 (clearRetry (waitOne (sclHi (waitOne (dirIn (sdaHi s)))))))) := e
  have l' : s.trace.length + 5 + k = (wackLoop 256 (clearRetry (waitOne (sclHi (waitOne (dirIn (sdaHi s))))))).trace.length := by
    have : (goTo 5 (clearRetry (waitOne (sclHi (waitOne (dirIn (sdaHi s))))))).trace.length = s.trace.length + 5 := by
      simp [goTo, wack_prefix_eq]
    rw [this] at l; exact l
  obtain ⟨f1, f2, f3, f4, f5, f6, f7⟩ := wackLoop_fields 256 (clearRetry (waitOne (sclHi (waitOne (dirIn (sdaHi s))))))
  have dq : Driving (wackLoop 256 (clearRetry (waitOne (sclHi (waitOne (dirIn (sdaHi s))))))) :=
    d.of_eq f2 f3 f4 f5 f6 f7
  generalize hw : wackLoop 256 (clearRetry (waitOne (sclHi (waitOne (dirIn (sdaHi s)))))) = q at *
  have hq : q.prim = .wack := f1.trans hp
  have h6 : turns 1 (goTo 7 q) = .next (goTo 8 (sclLo q)) := by
    rw [turns_one, step_driving (u := .sclLo) (dq.goTo 7) (by rw [show (goTo 7 q).prim = .wack from hq]; rfl),
      afterUop_of_ordinary (by rw [doUop_prim, doUop_ustep, show (goTo 7 q).prim = .wack from hq]; rfl)]
    rfl
  have h7 : turns 1 (goTo 8 (sclLo q)) = endPhase (goTo 8 (dirOut (sclLo q))) := by
    have hz : (goTo 8 (sclLo q)).prim = .wack := hq
    have dr : Driving (goTo 8 (sclLo q)) := (dq.doUop .sclLo).goTo 8
    rw [turns_one, step_last (u := .dirOut) dr (by rw [hz]; rfl) (by rw [hz]; decide) (by rw [hz]; rfl)]
    rfl
  refine ⟨5 + (k + (1 + 1)), ?_, ?_⟩
  · rw [turns_add h5, turns_add e', turns_add h6, h7, wackP, hw]
  · rw [wackP, hw]
    have : (dirOut (sclLo q)).trace.length = q.trace.length + 2 := by simp
    rw [this, ← l']; omega

/-! ## Runs -/

/-- From `s` the machine comes to the outcome `o`, in one step for each token it appends. -/
def Runs (s : State) (o : Out) : Prop :=
  ∃ k, turns k s = o ∧ ∀ t, o = .next t → s.trace.length + k = t.trace.length

/-- The same from where an outcome leaves the machine. -/
def RunsOn (o' o : Out) : Prop :=
  match o' with
  | .next z => Runs z o
  | .fault r => o = .fault r
  | .refused r => o = .refused r

theorem runs_here (s : State) : Runs s (.next s) := ⟨0, rfl, fun t h => by cases h; rfl⟩

theorem Runs.of_turns {k : Nat} {s u : State} {o : Out} (h : turns k s = endPhase u)
    (l : s.trace.length + k = u.trace.length) (hr : RunsOn (endPhase u) o) : Runs s o := by
  cases he : endPhase u with
  | next z =>
    rw [he] at h hr
    obtain ⟨j, e, lj⟩ := hr
    refine ⟨k + j, by rw [turns_add h, e], fun t ht => ?_⟩
    have := lj t ht
    rw [(moved_endPhase he).trace, ← l] at this
    omega
  | fault r => rw [he] at h hr; subst hr; exact ⟨k, h, fun t ht => by cases ht⟩
  | refused r => rw [he] at h hr; subst hr; exact ⟨k, h, fun t ht => by cases ht⟩

/-- What a command in progress keeps while it is undisturbed: `w` in `CMD`, `n` in `LEN`. -/
structure Own (w : Word) (n : Len) (s : State) : Prop where
  busy : s.busy = true
  lines : s.pinsTaken = false
  agenda : s.agenda = []
  bound : 1 ≤ s.retryN.toNat
  cmd : s.cmd = w
  len : s.nBytes = n

theorem Own.driving {w : Word} {n : Len} {s : State} (h : Own w n s) (ph : Phase) (p : Prim) (u : BitVec 4) (hp : ph ≠ .idle) :
    Driving (place ph p u s) := ⟨h.busy, h.lines, h.agenda, hp⟩

theorem Own.of_eq {w : Word} {n : Len} {s t : State} (h : Own w n s) (h1 : t.busy = s.busy) (h2 : t.sclPin = s.sclPin)
    (h3 : t.sdaPin = s.sdaPin) (h4 : t.extPull = s.extPull) (h5 : t.agenda = s.agenda) (h6 : t.retryN = s.retryN)
    (h7 : t.cmd = s.cmd) (h8 : t.nBytes = s.nBytes) : Own w n t := by
  obtain ⟨a, b, c, d, e, f⟩ := h
  constructor <;> simp_all [State.pinsTaken]

theorem wackP_fields {s : State} (h : 1 ≤ s.retryN.toNat) : (wackP s).busy = s.busy ∧ (wackP s).bytecnt = s.bytecnt ∧
    (wackP s).sclPin = s.sclPin ∧ (wackP s).sdaPin = s.sdaPin ∧ (wackP s).extPull = s.extPull ∧
    (wackP s).agenda = s.agenda ∧ (wackP s).retryN = s.retryN ∧ (wackP s).cmd = s.cmd ∧ (wackP s).nBytes = s.nBytes := by
  rcases wackP_cases s h with ⟨k, -, -, -, -, e⟩ | ⟨-, e⟩ <;> rw [e] <;> exact ⟨rfl, rfl, rfl, rfl, rfl, rfl, rfl, rfl, rfl⟩

theorem Own.slot {w : Word} {n : Len} {s : State} (h : Own w n s) (b : Byte) : Own w n (wackP (wbyteP b s)) := by
  have hb : Own w n (wbyteP b s) := by rw [wbyteP_eq]; exact h.of_eq rfl rfl rfl rfl rfl rfl rfl rfl
  obtain ⟨f1, -, f2, f3, f4, f5, f6, f7, f8⟩ := wackP_fields hb.bound
  exact hb.of_eq f1 f2 f3 f4 f5 f6 f7 f8

theorem slot_bytecnt {s : State} (h : 1 ≤ s.retryN.toNat) (b : Byte) : (wackP (wbyteP b s)).bytecnt = s.bytecnt := by
  have hb : 1 ≤ (wbyteP b s).retryN.toNat := by rw [wbyteP_eq]; exact h
  rw [(wackP_fields hb).2.1, wbyteP_eq]

theorem runs_stop {w : Word} {n : Len} {x : State} (h : Own w n x) :
    Runs (place .stopp .stop 0 x) (.next (finishCommand x)) := by
  have ht := turns_stop (h.driving .stopp .stop 0 (by decide)) rfl rfl
  have l : (place .stopp .stop 0 x).trace.length + 5 = (goTo 4 (stopP (place .stopp .stop 0 x))).trace.length := by
    simp [goTo, stopP_eq, stopToks]
  exact Runs.of_turns ht l (runs_here _)

theorem runs_abort {w : Word} {n : Len} {x : State} (h : Own w n x) :
    Runs (enterAbort x) (.next (abortCommand x)) :=
  runs_stop (x := markAckFail x) (h.of_eq rfl rfl rfl rfl rfl rfl rfl rfl)

/-- A write slot, then what the phase graph does with its acknowledge. -/
theorem runs_slot {w : Word} {n : Len} {x : State} (h : Own w n x) {ph ph' : Phase} (b : Byte) {o : Out}
    (hp : ph ≠ .idle) (hp' : ph' ≠ .idle)
    (he : ∀ y, endPhase (place ph .wbyte 4 y) = .next (enterPhase ph' .wack (place ph .wbyte 4 y)))
    (hr : RunsOn (endPhase (place ph' .wack 8 (wackP (wbyteP b x)))) o) : Runs (enterWbyte ph b x) o := by
  have d : Driving (enterWbyte ph b x) := (h.of_eq rfl rfl rfl rfl rfl rfl rfl rfl : Own w n (loadByte b x)).driving ph .wbyte 0 hp
  have h1 := turns_wbyte d rfl rfl rfl
  have e1 : goTo 4 (wbyteP (enterWbyte ph b x).shreg (enterWbyte ph b x)) = place ph .wbyte 4 (wbyteP b x) := by
    rw [show (enterWbyte ph b x).shreg = b from rfl,
      show enterWbyte ph b x = place ph .wbyte 0 (loadByte b x) from rfl, wbyteP_place, wbyteP_eq, wbyteP_eq]
    rfl
  rw [e1, he] at h1
  have hb : Own w n (wbyteP b x) := by rw [wbyteP_eq]; exact h.of_eq rfl rfl rfl rfl rfl rfl rfl rfl
  have e2 : enterPhase ph' .wack (place ph .wbyte 4 (wbyteP b x)) = place ph' .wack 0 (wbyteP b x) := rfl
  rw [e2] at h1
  obtain ⟨k, h2, l⟩ := turns_wack (hb.driving ph' .wack 0 hp') rfl rfl hb.bound
  rw [wackP_place] at h2 l
  refine Runs.of_turns (k := 40 + k) (by rw [turns_add h1, h2]; rfl) ?_ hr
  have l0 : (enterWbyte ph b x).trace.length + 40 = (place ph' .wack 0 (wbyteP b x)).trace.length := by
    show x.trace.length + 40 = (wbyteP b x).trace.length
    rw [wbyteP_eq]; simp [byteToks, msbFirst, bitToks]
  rw [← Nat.add_assoc, l0, l]
  rfl

/-- A slot whose acknowledge decides between the rest of the command and the abort path. -/
theorem runs_sendByte {w : Word} {n : Len} {x : State} (h : Own w n x) {ph ph' : Phase} (b : Byte) (c : State → Out)
    (hp : ph ≠ .idle) (hp' : ph' ≠ .idle)
    (he : ∀ y, endPhase (place ph .wbyte 4 y) = .next (enterPhase ph' .wack (place ph .wbyte 4 y)))
    (h0 : ∀ y, Own w n y → y.ackbit = false →
      endPhase (place ph' .wack 8 y) = .next (enterAbort (place ph' .wack 8 y)))
    (h1 : ∀ y, Own w n y → y.bytecnt = x.bytecnt → y.ackbit = true → RunsOn (endPhase (place ph' .wack 8 y)) (c y)) :
    Runs (enterWbyte ph b x) (sendByte b c x) := by
  apply runs_slot h b hp hp' he
  have hy := h.slot b
  have hb := slot_bytecnt h.bound b
  simp only [sendByte]
  generalize wackP (wbyteP b x) = y at *
  cases ha : y.ackbit
  · rw [h0 y hy ha]
    exact runs_abort (x := place ph' .wack 8 y) (hy.of_eq rfl rfl rfl rfl rfl rfl rfl rfl)
  · simpa using h1 y hy hb ha

/-! ## The payload loops -/

/-- From the head of the payload loop of a write, `r` bytes to go. -/
theorem runs_writePayload (r : Nat) {w : Word} {n : Len} {x : State} (h : Own w n x) (hk : x.kind = .write)
    (hr : x.bytecnt.toNat + r = n.toNat) : RunsOn (nextWriteByte x) (writePayload r x) := by
  induction r generalizing x with
  | zero =>
    have hlt : ¬ x.bytecnt < x.nBytes := by rw [h.len, BitVec.lt_def]; omega
    rw [nextWriteByte, if_neg hlt]
    exact runs_stop h
  | succ r ih =>
    have hlt : x.bytecnt < x.nBytes := by rw [h.len, BitVec.lt_def]; omega
    rw [nextWriteByte, if_pos hlt, writePayload]
    cases hb : x.txByte with
    | none => rfl
    | some b =>
      refine runs_sendByte h (ph := .wdata) (ph' := .ackWdata) b _ (by decide) (by decide) (fun y => rfl)
        (fun y hy ha => ?_) (fun y hy hbc ha => ?_)
      · simp [endPhase, place, ha]
      · have hlen := n.isLt
        have e : endPhase (place .ackWdata .wack 8 y) = nextWriteByte (countByte (place .ackWdata .wack 8 y)) := by
          simp [endPhase, place, ha]
        rw [e]
        have hc : (countByte (place .ackWdata .wack 8 y)).bytecnt = x.bytecnt + 1 := by simp [countByte, place, hbc]
        have hk' : (countByte (place .ackWdata .wack 8 y)).kind = .write := by
          have : (countByte (place .ackWdata .wack 8 y)).cmd = x.cmd := by
            rw [h.cmd, ← hy.cmd]; rfl
          unfold State.kind at hk ⊢
          rwa [this]
        have := ih (x := countByte (place .ackWdata .wack 8 y)) (hy.of_eq rfl rfl rfl rfl rfl rfl rfl rfl) hk'
          (by rw [hc, BitVec.toNat_add]; simp; omega)
        exact writePayload_place .ackWdata .wack 8 r (countByte y) ▸ this

/-- From the head of the payload loop of a read, `r` bytes to go. -/
theorem runs_readPayload (r : Nat) {w : Word} {n : Len} {x : State} (h : Own w n x)
    (hr : x.bytecnt.toNat + r = n.toNat) : Runs (nextReadByte x) (.next (readPayload r x)) := by
  induction r generalizing x with
  | zero =>
    have hlt : ¬ x.bytecnt < x.nBytes := by rw [h.len, BitVec.lt_def]; omega
    rw [nextReadByte, if_neg hlt]
    exact runs_stop h
  | succ r ih =>
    have hlt : x.bytecnt < x.nBytes := by rw [h.len, BitVec.lt_def]; omega
    rw [nextReadByte, if_pos hlt, readPayload]
    have h1 := turns_rbyte (h.driving .rdata .rbyte 0 (by decide)) rfl rfl
    rw [rbyteP_place] at h1
    have hy : Own w n (storeRxByte (rbyteP x)) := by rw [rbyteP_eq]; exact h.of_eq rfl rfl rfl rfl rfl rfl rfl rfl
    have hyb : (storeRxByte (rbyteP x)).bytecnt = x.bytecnt := by rw [rbyteP_eq]; rfl
    have l1 : x.trace.length + 43 = (storeRxByte (rbyteP x)).trace.length := by
      rw [rbyteP_eq]; simp [storeRxByte, readToks, State.nextBits, List.range, List.range.loop, readBitToks]
    have e1 : endPhase (goTo 7 (place .rdata .rbyte 0 (rbyteP x))) = .next (place .mackp
        (if (storeRxByte (rbyteP x)).moreToRead then .mack else .mnack) 0 (storeRxByte (rbyteP x))) := rfl
    rw [e1] at h1
    generalize storeRxByte (rbyteP x) = y at *
    have hlen := n.isLt
    -- the byte after the acknowledge bit, whichever it was
    have tail : ∀ (p : Prim) (z : State), Own w n z → z.bytecnt = x.bytecnt →
        Runs (nextReadByte (countByte (place .mackp p 4 z))) (.next (readPayload r (countByte z))) := by
      intro p z hz hb
      have hc : (countByte (place .mackp p 4 z)).bytecnt = x.bytecnt + 1 := by simp [countByte, place, hb]
      have := ih (x := countByte (place .mackp p 4 z)) (hz.of_eq rfl rfl rfl rfl rfl rfl rfl rfl)
        (by rw [hc, BitVec.toNat_add]; simp; omega)
      exact readPayload_place .mackp p 4 r (countByte z) ▸ this
    cases hm : y.moreToRead
    · rw [hm] at h1
      have h2 := turns_mnack (hy.driving .mackp .mnack 0 (by decide)) rfl rfl
      have e2 : goTo 4 (mnackP (place .mackp .mnack 0 y)) = place .mackp .mnack 4 (mnackP y) := rfl
      rw [e2] at h2
      refine Runs.of_turns (k := 43 + 5) ((turns_add h1 5).trans h2) ?_ ?_
      · show x.trace.length + 48 = (mnackP y).trace.length
        rw [mnackP_eq]; simp [bitToks, ← l1]
      · have := tail .mnack (mnackP y) (by rw [mnackP_eq]; exact hy.of_eq rfl rfl rfl rfl rfl rfl rfl rfl)
          (by rw [mnackP_eq]; exact hyb)
        exact this
    · rw [hm] at h1
      have h2 := turns_mack (hy.driving .mackp .mack 0 (by decide)) rfl rfl
      have e2 : goTo 4 (mackP (place .mackp .mack 0 y)) = place .mackp .mack 4 (mackP y) := rfl
      rw [e2] at h2
      refine Runs.of_turns (k := 43 + 5) ((turns_add h1 5).trans h2) ?_ ?_
      · show x.trace.length + 48 = (mackP y).trace.length
        rw [mackP_eq]; simp [bitToks, ← l1]
      · have := tail .mack (mackP y) (by rw [mackP_eq]; exact hy.of_eq rfl rfl rfl rfl rfl rfl rfl rfl)
          (by rw [mackP_eq]; exact hyb)
        exact this

/-! ## The commands -/

theorem kind_of_cmd {s t : State} (h : t.cmd = s.cmd) : t.kind = s.kind := by unfold State.kind; rw [h]

theorem w16_of_cmd {s t : State} (h : t.cmd = s.cmd) : t.w16 = s.w16 := by unfold State.w16; rw [h]

theorem reg_of_cmd {s t : State} (h : t.cmd = s.cmd) : t.reg = s.reg := by unfold State.reg; rw [h]

theorem dev_of_cmd {s t : State} (h : t.cmd = s.cmd) : t.dev = s.dev := by unfold State.dev; rw [h]

/-- The last register slot of a write, and the payload. -/
theorem runs_regLo_write {w : Word} {n : Len} {x : State} (h : Own w n x) (hk : x.kind = .write) :
    Runs (enterWbyte .reglo (regLo x.reg) x) (sendByte (regLo x.reg) writeData x) := by
  refine runs_sendByte h (ph := .reglo) (ph' := .ackReglo) _ _ (by decide) (by decide) (fun y => rfl)
    (fun y hy ha => ?_) (fun y hy hbc ha => ?_)
  · simp [endPhase, place, ha]
  · have hk' : (place .ackReglo .wack 8 y).kind = .write := by
      rw [← hk]; exact kind_of_cmd (by rw [h.cmd, ← hy.cmd]; rfl)
    have e : endPhase (place .ackReglo .wack 8 y) = nextWriteByte (clearBytecnt (place .ackReglo .wack 8 y)) := by
      simp only [endPhase, hk']
      simp [place, ha]
    rw [e]
    have := runs_writePayload n.toNat (x := clearBytecnt (place .ackReglo .wack 8 y))
      (hy.of_eq rfl rfl rfl rfl rfl rfl rfl rfl) hk' (by simp [clearBytecnt])
    rw [writeData, hy.len]
    exact writePayload_place .ackReglo .wack 8 n.toNat (clearBytecnt y) ▸ this

/-- The last register slot of a read, the turnaround, the address slot of the read, and the payload. -/
theorem runs_regLo_read {w : Word} {n : Len} {x : State} (h : Own w n x) (hk : x.kind = .read) :
    Runs (enterWbyte .reglo (regLo x.reg) x) (sendByte (regLo x.reg) (readData x.dev) x) := by
  refine runs_sendByte h (ph := .reglo) (ph' := .ackReglo) _ _ (by decide) (by decide) (fun y => rfl)
    (fun y hy ha => ?_) (fun y hy hbc ha => ?_)
  · simp [endPhase, place, ha]
  · have hk' : (place .ackReglo .wack 8 y).kind = .read := by
      rw [← hk]; exact kind_of_cmd (by rw [h.cmd, ← hy.cmd]; rfl)
    have e : endPhase (place .ackReglo .wack 8 y) = .next (place .turnp .turn 0 y) := by
      simp only [endPhase, hk']
      simp [place, ha, enterPhase]
    rw [e]
    show Runs (place .turnp .turn 0 y) _
    have h1 := turns_turn (hy.driving .turnp .turn 0 (by decide)) rfl rfl
    have e1 : endPhase (goTo 0 (turnP (place .turnp .turn 0 y))) = .next (place .start2 .start 0 (turnP y)) := rfl
    rw [e1] at h1
    have ht : Own w n (turnP y) := by rw [turnP_eq]; exact hy.of_eq rfl rfl rfl rfl rfl rfl rfl rfl
    have h2 := turns_start (ht.driving .start2 .start 0 (by decide)) rfl rfl
    have hz : Own w n (startP (turnP y)) := by rw [startP_eq]; exact ht.of_eq rfl rfl rfl rfl rfl rfl rfl rfl
    refine Runs.of_turns (k := 1 + 6) ((turns_add h1 6).trans h2) ?_ ?_
    · show y.trace.length + 7 = (startP (turnP y)).trace.length
      rw [startP_eq, turnP_eq]; simp [startToks]
    · have e2 : endPhase (goTo 5 (startP (place .start2 .start 0 (turnP y)))) =
          .next (enterWbyte .addrr (adb (startP (turnP y)).dev true) (startP (turnP y))) := rfl
      have hdev : (startP (turnP y)).dev = x.dev := dev_of_cmd (by rw [h.cmd, hz.cmd])
      rw [e2, hdev, readData]
      generalize startP (turnP y) = z at *
      refine runs_sendByte hz (ph := .addrr) (ph' := .ackAddrr) _ _ (by decide) (by decide) (fun y => rfl)
        (fun u hu ha => ?_) (fun u hu hbc ha => ?_)
      · simp [endPhase, place, ha]
      · have e3 : endPhase (place .ackAddrr .wack 8 u) = .next (nextReadByte (clearBytecnt (place .ackAddrr .wack 8 u))) := by
          simp [endPhase, place, ha]
        rw [e3]
        have := runs_readPayload n.toNat (x := clearBytecnt (place .ackAddrr .wack 8 u))
          (hu.of_eq rfl rfl rfl rfl rfl rfl rfl rfl) (by simp [clearBytecnt])
        have hn : u.nBytes = n := hu.len
        simp only [hn]
        exact readPayload_place .ackAddrr .wack 8 n.toNat (clearBytecnt u) ▸ this

/-- From the address slot of a write or a read on, `c` being what follows the last register slot. -/
theorem runs_address {w : Word} {n : Len} {x : State} (h : Own w n x) (hk : x.kind ≠ .probe) (c : State → Out)
    (hpl : ∀ ph p u s, c (place ph p u s) = c s)
    (hc : ∀ y, Own w n y → Runs (enterWbyte .reglo (regLo x.reg) y) (sendByte (regLo x.reg) c y)) :
    Runs (enterWbyte .addrw (adb x.dev false) x)
      (sendByte (adb x.dev false)
        (if x.w16 then sendByte (regHi x.reg) (sendByte (regLo x.reg) c) else sendByte (regLo x.reg) c) x) := by
  refine runs_sendByte h (ph := .addrw) (ph' := .ackAddrw) _ _ (by decide) (by decide) (fun y => rfl)
    (fun y hy ha => ?_) (fun y hy hbc ha => ?_)
  · have hk' : (place .ackAddrw .wack 8 y).kind ≠ .probe := by
      rw [kind_of_cmd (s := x) (by rw [h.cmd, ← hy.cmd]; rfl)]; exact hk
    simp only [endPhase, if_neg hk']
    simp [place, ha]
  · have hcmd : (place .ackAddrw .wack 8 y).cmd = x.cmd := by rw [h.cmd, ← hy.cmd]; rfl
    have hk' : (place .ackAddrw .wack 8 y).kind ≠ .probe := by rw [kind_of_cmd hcmd]; exact hk
    have hr' := reg_of_cmd hcmd
    have hz : Own w n (place .ackAddrw .wack 8 y) := hy.of_eq rfl rfl rfl rfl rfl rfl rfl rfl
    have ha' : (place .ackAddrw .wack 8 y).ackbit = true := ha
    have e : endPhase (place .ackAddrw .wack 8 y) =
        (if x.w16 then .next (enterWbyte .reghi (regHi x.reg) (place .ackAddrw .wack 8 y))
          else .next (enterWbyte .reglo (regLo x.reg) (place .ackAddrw .wack 8 y))) := by
      simp only [endPhase, show (place .ackAddrw .wack 8 y).phase = .ackAddrw from rfl]
      rw [if_neg hk', ha', if_neg (by decide), w16_of_cmd hcmd, hr']
    rw [e]
    have last : ∀ u, Own w n u → Runs (enterWbyte .reglo (regLo x.reg) u) (sendByte (regLo x.reg) c u) := hc
    cases x.w16
    · have := last _ hz
      rw [sendByte_place _ _ _ _ _ (fun s => hpl _ _ _ s)] at this
      exact this
    · have hhi : Runs (enterWbyte .reghi (regHi x.reg) (place .ackAddrw .wack 8 y))
          (sendByte (regHi x.reg) (sendByte (regLo x.reg) c) (place .ackAddrw .wack 8 y)) := by
        refine runs_sendByte hz (ph := .reghi) (ph' := .ackReghi) _ _ (by decide) (by decide) (fun y => rfl)
          (fun u hu ha => ?_) (fun u hu hbc ha => ?_)
        · simp [endPhase, place, ha]
        · have hu' : Own w n (place .ackReghi .wack 8 u) := hu.of_eq rfl rfl rfl rfl rfl rfl rfl rfl
          have e : endPhase (place .ackReghi .wack 8 u) =
              .next (enterWbyte .reglo (regLo x.reg) (place .ackReghi .wack 8 u)) := by
            have hr'' : (place .ackReghi .wack 8 u).reg = x.reg := reg_of_cmd (by rw [h.cmd, ← hu.cmd]; rfl)
            simp only [endPhase, hr'']
            simp [place, ha]
          rw [e]
          have := last _ hu'
          rw [sendByte_place _ _ _ _ _ (fun s => hpl _ _ _ s)] at this
          exact this
      rw [sendByte_place _ _ _ _ _ (fun s => sendByte_place _ _ _ _ _ (fun t => hpl _ _ _ t) s)] at hhi
      exact hhi

theorem writeData_place (ph : Phase) (p : Prim) (u : BitVec 4) (s : State) :
    writeData (place ph p u s) = writeData s := writePayload_place ph p u _ (clearBytecnt s)

theorem readData_place (dev : DevAddr) (ph : Phase) (p : Prim) (u : BitVec 4) (s : State) :
    readData dev (place ph p u s) = readData dev s := by
  rw [readData, readData, turnP_place, startP_place]
  refine sendByte_place _ _ ph p u (fun t => ?_) _
  exact congrArg Host.Outcome.next (readPayload_place ph p u t.nBytes.toNat (clearBytecnt t))

/-- The address slot of a probe. -/
theorem runs_probe {w : Word} {n : Len} {x : State} (h : Own w n x) (hk : x.kind = .probe) :
    Runs (enterWbyte .addrw (adb x.dev false) x)
      (.next (finishCommand (if (wackP (wbyteP (adb x.dev false) x)).ackbit then wackP (wbyteP (adb x.dev false) x)
        else markAckFail (wackP (wbyteP (adb x.dev false) x))))) := by
  apply runs_slot h (ph' := .ackAddrw) _ (by decide) (by decide) (fun y => rfl)
  have hy := h.slot (adb x.dev false)
  generalize wackP (wbyteP (adb x.dev false) x) = y at *
  have hk' : (place .ackAddrw .wack 8 y).kind = .probe := by
    rw [← hk]; exact kind_of_cmd (by rw [h.cmd, ← hy.cmd]; rfl)
  have e : endPhase (place .ackAddrw .wack 8 y) =
      .next (if y.ackbit then enterPhase .stopp .stop (place .ackAddrw .wack 8 y) else enterAbort (place .ackAddrw .wack 8 y)) := by
    simp only [endPhase, if_pos hk']; rfl
  rw [e]
  have hz : Own w n (place .ackAddrw .wack 8 y) := hy.of_eq rfl rfl rfl rfl rfl rfl rfl rfl
  cases y.ackbit
  · exact runs_abort hz
  · exact runs_stop hz

/-- From an accepted launch: `START`, then the address slot. -/
theorem runs_launch {w : Word} {s : State} (h : s.ready = true) (ha : s.agenda = []) {o : Out}
    (hr : Own w s.nBytes (afterStart w s) →
      Runs (enterWbyte .addrw (adb (cmdDev w) false) (afterStart w s)) o) :
    Runs (beginCommand (acceptWord w s)) o := by
  have hb : Own w s.nBytes (beginCommand (acceptWord w s)) := by
    have hr := retryN_pos_of_ready h
    simp only [State.ready, Bool.and_eq_true, Bool.not_eq_true'] at h
    exact ⟨rfl, h.2, ha, hr, rfl, rfl⟩
  have h1 := turns_start (hb.driving .start1 .start 0 (by decide)) rfl rfl
  refine Runs.of_turns (k := 6) h1 ?_ ?_
  · show s.trace.length + 6 = (startP (beginCommand (acceptWord w s))).trace.length
    rw [startP_eq]; simp [startToks]
  · have hz : Own w s.nBytes (afterStart w s) := by
      rw [afterStart, startP_eq]; exact hb.of_eq rfl rfl rfl rfl rfl rfl rfl rfl
    exact hr hz

theorem kind_cmdWord (reg : RegAddr) (dev : DevAddr) (op : BitVec 3) (s : State) (h : s.cmd = cmdWord 0 reg dev op) :
    s.kind = (if op.extractLsb' 0 2 = 0 then .probe else if op.extractLsb' 0 2 = 1 then .write else .read) ∧
    s.w16 = op.getLsbD 2 ∧ s.dev = dev ∧ s.reg = reg := by
  have h1 : (cmdWord 0 reg dev op).extractLsb' 0 2 = op.extractLsb' 0 2 := by
    apply BitVec.eq_of_getLsbD_eq
    intro i hi
    rw [BitVec.getLsbD_extractLsb', BitVec.getLsbD_extractLsb', getLsbD_cmdWord]
    have : i < 3 := by omega
    simp [this]
  refine ⟨by rw [State.kind, h, h1], by rw [State.w16, h, getLsbD_cmdWord]; simp, by rw [State.dev, h]; simp, by rw [State.reg, h]; simp⟩

/-- The two ends of a probe as one. -/
theorem probe_end (dev : DevAddr) (x : State) : sendAll [adb dev false] (fun t => .next (finishCommand t)) x =
    .next (finishCommand (if (wackP (wbyteP (adb dev false) x)).ackbit then wackP (wbyteP (adb dev false) x)
      else markAckFail (wackP (wbyteP (adb dev false) x)))) := by
  simp only [sendAll, sendByte, abortCommand]
  split <;> rfl

end Sys2Proof.Machine
end

