-- ==== Sys2Proof/Laws/Invariant.lean ====
section
/-! SUPPORT. The invariant over an engine turn: what keeps the sequencer at positions of the phase graph, the pins being
what the position says. -/

namespace Sys2Proof.Machine

/-- The parts of `State.running`. -/
structure Runnable (s : State) : Prop where
  prim : s.prim ∈ s.phase.runs
  ustep : s.ustep.toNat < (primSeq s.prim false).length
  used : s.phase.usedBy s.kind s.w16 = true
  scl : s.sclOut = sclBefore (decide (s.phase = .start1)) s.prim s.ustep.toNat
  dir : s.sdaDir = dirBefore s.prim s.ustep.toNat
  sda : ∀ v, sdaBefore s s.prim s.ustep.toNat = some v → s.sdaOut = v
  counters : countersOk s s.prim s.ustep.toNat = true
  payload : payloadOk s = true
  cfg : s.cfgValid = true
  lines : s.pinsTaken = false
  word : cmdReserved s.cmd = false
  done : s.done = false
  cmderr : s.cmderr = false
  cfgerr : s.cfgerr = false
  ackfail : s.ackfail = true → s.phase = .stopp

theorem running_iff (s : State) : s.running = true ↔ Runnable s := by
  have hsda : (match sdaBefore s s.prim s.ustep.toNat with | some v => s.sdaOut == v | none => true) = true ↔
      ∀ v, sdaBefore s s.prim s.ustep.toNat = some v → s.sdaOut = v := by
    cases sdaBefore s s.prim s.ustep.toNat <;> simp
  constructor
  · intro h
    simp only [State.running, Bool.and_eq_true, Bool.not_eq_true', decide_eq_true_eq, beq_iff_eq] at h
    obtain ⟨⟨⟨⟨⟨⟨⟨⟨⟨⟨⟨⟨⟨⟨a, b⟩, c⟩, d⟩, e⟩, f⟩, g⟩, h⟩, i⟩, q⟩, j⟩, k⟩, l⟩, m⟩, n⟩ := h
    exact ⟨by simpa using a, b, c, d, e, hsda.mp f, g, h, i, q, j, k, l, m, fun h => by simpa [h] using n⟩
  · rintro ⟨a, b, c, d, e, f, g, h, i, q, j, k, l, m, n⟩
    simp only [State.running, Bool.and_eq_true, Bool.not_eq_true', decide_eq_true_eq, beq_iff_eq]
    refine ⟨⟨⟨⟨⟨⟨⟨⟨⟨⟨⟨⟨⟨⟨by simpa using a, b⟩, c⟩, d⟩, e⟩, hsda.mpr f⟩, g⟩, h⟩, i⟩, q⟩, j⟩, k⟩, l⟩, m⟩, ?_⟩
    cases hf : s.ackfail
    · rfl
    · simp [n hf]

theorem primSeq_length_le (p : Prim) (v : Bool) : (primSeq p v).length ≤ 9 := by cases p <;> cases v <;> decide

theorem primSeq_length (p : Prim) (v : Bool) : (primSeq p v).length = (primSeq p false).length := by
  cases p <;> cases v <;> rfl

/-- A running engine has a next micro-operation. -/
theorem Runnable.uopAt {s : State} (h : Runnable s) : ∃ u, s.uopAt = some u := by
  have hp : s.phase ≠ .idle := by intro e; have := h.prim; rw [e] at this; cases this
  have hl := h.ustep
  rw [← primSeq_length s.prim s.dataBit] at hl
  exact ⟨_, by rw [State.uopAt, if_neg hp, List.getElem?_eq_getElem hl]⟩


/-! ## What the tables of the invariant say of a micro-operation -/

/-- The clock latch after a micro-operation, from before. -/
def uopScl : Uop → Bool → Bool
  | .sclLo, _ => false
  | .sclHi, _ => true
  | .sdaLo, c => c
  | .sdaHi, c => c
  | .dirOut, c => c
  | .dirIn, c => c
  | .wait, c => c
  | .sample, c => c

/-- The data latch. -/
def uopSda : Uop → Bool → Bool
  | .sdaLo, _ => false
  | .sdaHi, _ => true
  | .sclLo, c => c
  | .sclHi, c => c
  | .dirOut, c => c
  | .dirIn, c => c
  | .wait, c => c
  | .sample, c => c

/-- The direction. -/
def uopDir : Uop → Dir → Dir
  | .dirOut, _ => .out
  | .dirIn, _ => .inp
  | .sdaLo, c => c
  | .sdaHi, c => c
  | .sclLo, c => c
  | .sclHi, c => c
  | .wait, c => c
  | .sample, c => c

theorem doUop_sclOut (u : Uop) (s : State) : (doUop u s).sclOut = uopScl u s.sclOut := by cases u <;> rfl
theorem doUop_sdaOut (u : Uop) (s : State) : (doUop u s).sdaOut = uopSda u s.sdaOut := by cases u <;> rfl
theorem doUop_sdaDir (u : Uop) (s : State) : (doUop u s).sdaDir = uopDir u s.sdaDir := by cases u <;> rfl

/-- `sdaBefore`, of the data bit alone. -/
def sdaAt (v : Bool) (p : Prim) (u : Nat) : Option Bool :=
  match p with
  | .start => some (decide (u ≤ 3))
  | .turn => some true
  | .stop => if u = 0 then none else some false
  | .rbyte => if u = 0 then none else some true
  | .wack => if u = 0 then none else some true
  | .wbyte => if u = 0 then none else some v
  | .mack => if u = 0 then none else some false
  | .mnack => if u = 0 then none else some true
  | .wbit => none
  | .rbit => none

theorem sdaBefore_eq (s : State) (p : Prim) (u : Nat) : sdaBefore s p u = sdaAt s.dataBit p u := by cases p <;> rfl

/-- Micro-operation `u` of primitive `p` takes the pins from what the tables say before `u` to what they say before
`n`. -/
def tableOk (p : Prim) (u n : Nat) : Bool :=
  decide (n < (primSeq p false).length) &&
  [true, false].all (fun v => [true, false].all (fun first => [true, false].all (fun c =>
    match (primSeq p v)[u]? with
    | none => true
    | some x =>
      (sclBefore first p n == uopScl x (sclBefore first p u)) && decide (dirBefore p n = uopDir x (dirBefore p u)) &&
      ((sdaAt v p n).all (fun b => uopSda x c == b || (sdaAt v p u).any (fun b' => b' != c))))))

theorem tableOk_of_ordinary (p : Prim) {u : Nat} (h9 : u < (primSeq p false).length) (h : ordinary p u = true) :
    tableOk p u (u + 1) = true := by
  have h' : u < 9 := lt_of_lt_of_le h9 (primSeq_length_le p false)
  interval_cases u <;> cases p <;> first | exact absurd h9 (by decide) | rfl | exact absurd h (by decide)

/-- A move of the position inside a primitive keeps the engine runnable. -/
theorem Runnable.jump {s t : State} {u : Uop} (h : Runnable s) (hu : s.uopAt = some u) (m : Moved (doUop u s) t)
    (hph : t.phase = s.phase) (hpr : t.prim = s.prim) (hok : tableOk s.prim s.ustep.toNat t.ustep.toNat = true)
    (hsda : sdaBefore t s.prim t.ustep.toNat = sdaBefore s s.prim t.ustep.toNat)
    (hc : countersOk t s.prim t.ustep.toNat = true) (hb : t.bytecnt = s.bytecnt) (hd : t.done = s.done)
    (ha : t.ackfail = s.ackfail) : Runnable t := by
  have hp : s.phase ≠ .idle := by intro e; have := h.prim; rw [e] at this; cases this
  rw [State.uopAt, if_neg hp] at hu
  have hpins := m.pins
  simp only [State.pins, Pins.mk.injEq, doUop_sclOut, doUop_sdaOut, doUop_sdaDir] at hpins
  have hcmd : t.cmd = s.cmd := by rw [m.cmd, doUop_cmd]
  obtain ⟨o1, o2, -, o4, o5, -, -, -, -, o10⟩ := sameOutside_trans (sameOutside_doUop u s) m.outside
  simp only [tableOk, Bool.and_eq_true, List.all_eq_true] at hok
  obtain ⟨hn, hok⟩ := hok
  have key : ∀ first c, (sclBefore first s.prim t.ustep.toNat = uopScl u (sclBefore first s.prim s.ustep.toNat)) ∧
      dirBefore s.prim t.ustep.toNat = uopDir u (dirBefore s.prim s.ustep.toNat) ∧
      ((sdaAt s.dataBit s.prim t.ustep.toNat).all
        (fun b => uopSda u c == b || (sdaAt s.dataBit s.prim s.ustep.toNat).any (fun b' => b' != c)) = true) := by
    intro first c
    have := hok s.dataBit (by cases s.dataBit <;> simp) first (by cases first <;> simp) c (by cases c <;> simp)
    rw [hu] at this
    simpa [and_assoc] using this
  obtain ⟨k1, k2, k3⟩ := key (decide (s.phase = .start1)) s.sdaOut
  refine ⟨by rw [hpr, hph]; exact h.prim, by rw [hpr]; simpa using hn, ?_, ?_, ?_, ?_, by rw [hpr]; exact hc, ?_, ?_, ?_, ?_,
    hd.trans h.done, m.cmderr.trans (by simpa using h.cmderr), m.cfgerr.trans (by simpa using h.cfgerr), ?_⟩
  · rw [hph, kind_of_cmd hcmd, w16_of_cmd hcmd]; exact h.used
  · rw [hpins.1, hph, hpr, k1, h.scl]
  · rw [hpins.2.2, hpr, k2, h.dir]
  · intro v hv
    rw [hpr, hsda, sdaBefore_eq] at hv
    rw [hv] at k3
    rw [hpins.2.1]
    simp only [Option.all_some, Bool.or_eq_true, beq_iff_eq] at k3
    rcases k3 with k3 | k3
    · exact k3
    · exfalso
      cases hs : sdaAt s.dataBit s.prim s.ustep.toNat with
      | none => rw [hs] at k3; cases k3
      | some b =>
        have := h.sda b (by rw [sdaBefore_eq]; exact hs)
        rw [hs] at k3; simp [this] at k3
  · have := h.payload; unfold payloadOk at this ⊢; rw [hph, hb, o5]; exact this
  · have := h.cfg; unfold State.cfgValid at this ⊢; rw [o1, o2, o4]; exact this
  · have := h.lines; unfold State.pinsTaken at this ⊢; rw [o1, o2, o10]; exact this
  · rw [hcmd]; exact h.word
  · rw [ha, hph]; exact h.ackfail

theorem retryN_pos_of_cfgValid {s : State} (h : s.cfgValid = true) : 1 ≤ s.retryN.toNat := by
  simp only [State.cfgValid, Bool.and_eq_true, decide_eq_true_eq] at h
  exact h.2

theorem Runnable.driving_phase {s : State} (h : Runnable s) : s.phase ≠ .idle := by
  intro e; have := h.prim; rw [e] at this; cases this

theorem of_not_ordinary {p : Prim} {u : Nat} (h : ordinary p u = false) :
    (p = .wbyte ∧ u = 4) ∨ (p = .rbyte ∧ u = 1) ∨ (p = .rbyte ∧ u = 6) ∨ (p = .wack ∧ u = 4) ∨ (p = .wack ∧ u = 5) ∨
    (p = .wack ∧ u = 6) ∨ (u + 1 = (primSeq p false).length ∧ p ≠ .wbyte) := by
  unfold ordinary at h
  split at h <;> simp_all
  cases p <;> simp_all [primSeq, bitSeq]

theorem moved_loadByte (b : Byte) (s : State) : Moved s (loadByte b s) := by
  constructor <;> simp [loadByte, State.pins, sameOutside]

theorem moved_clearRetry (s : State) : Moved s (clearRetry s) := by
  constructor <;> simp [clearRetry, State.pins, sameOutside]

/-- The engine's turn from a runnable state: a move inside the primitive, to a runnable state, or the end of the phase. -/
theorem Runnable.afterUop {s : State} {u : Uop} (h : Runnable s) (hu : s.uopAt = some u) :
    (∃ t, afterUop (doUop u s) = .next t ∧ Runnable t ∧ t.phase = s.phase ∧ t.rxmem = s.rxmem ∧ t.rxCount = s.rxCount ∧
      t.bytecnt = s.bytecnt ∧ t.busy = s.busy ∧ Moved (doUop u s) t) ∨
    (s.ustep.toNat + 1 = (primSeq s.prim false).length ∧
      ∃ t, afterUop (doUop u s) = endPhase t ∧ Moved (doUop u s) t ∧ t.phase = s.phase ∧ t.prim = s.prim ∧
        t.bytecnt = s.bytecnt ∧ t.shreg = s.shreg ∧ t.rxmem = s.rxmem ∧ t.rxCount = s.rxCount ∧ t.ackbit = s.ackbit ∧
        t.done = s.done ∧ t.ackfail = s.ackfail ∧ t.busy = s.busy) := by
  have h9 := lt_of_lt_of_le h.ustep (primSeq_length_le _ _)
  by_cases ho : ordinary s.prim s.ustep.toNat = true
  · left
    have hn : (s.ustep + 1#4).toNat = s.ustep.toNat + 1 := by rw [BitVec.toNat_add]; simp; omega
    refine ⟨goTo (s.ustep + 1#4) (doUop u s), ?_, ?_, by simp, by simp, by simp, by simp, by simp, moved_goTo _ _⟩
    · rw [afterUop_of_ordinary (by simpa using ho)]; simp
    · refine h.jump hu (moved_goTo _ _) (by simp) (by simp) ?_ ?_ ?_ (by simp) (by simp) (by simp)
      · rw [goTo_ustep, hn]; exact tableOk_of_ordinary _ h.ustep ho
      · rw [sdaBefore_eq, sdaBefore_eq]; simp [State.dataBit]
      · rw [goTo_ustep, hn]
        have hc := h.counters
        have hl := h.ustep
        revert hc ho hl
        generalize s.ustep.toNat = m at *
        intro ho hc hl
        interval_cases m <;> cases hp : s.prim <;> simp_all [countersOk, ordinary, primSeq, bitSeq]
  · have hcnt := h.counters
    have hN := retryN_pos_of_cfgValid h.cfg
    rcases of_not_ordinary (by simpa using ho) with ⟨hp, h4⟩ | ⟨hp, h4⟩ | ⟨hp, h4⟩ | ⟨hp, h4⟩ | ⟨hp, h4⟩ | ⟨hp, h4⟩ | ⟨hl, hw⟩
    · have e4 : s.ustep = 4 := BitVec.eq_of_toNat_eq h4
      rw [hp] at hcnt
      have hb : s.bitcnt.toNat < 8 := by simpa [countersOk] using hcnt
      have hinc : (s.bitcnt + 1#4).toNat = s.bitcnt.toNat + 1 := by rw [BitVec.toNat_add]; simp; omega
      rw [afterUop_wbyte (by simpa using hp) (by simpa using e4), afterSentBit]
      by_cases h8 : s.bitcnt + 1#4 = 8#4
      · right
        refine ⟨by rw [hp, h4]; rfl, countBit (doUop u s), by rw [if_pos (by simpa [countBit] using h8)], moved_countBit _, ?_⟩
        simp [countBit]
      · left
        have h8' : s.bitcnt.toNat + 1 ≠ 8 := fun e => h8 (BitVec.eq_of_toNat_eq (by rw [hinc, e]; rfl))
        refine ⟨goTo 0 (countBit (doUop u s)), by rw [if_neg (by simpa [countBit] using h8)], ?_, by simp [countBit],
          by simp [countBit], by simp [countBit], by simp [countBit], by simp [countBit], (moved_countBit _).trans (moved_goTo _ _)⟩
        refine h.jump hu ((moved_countBit _).trans (moved_goTo _ _)) (by simp [countBit]) (by simp [countBit]) ?_ ?_ ?_
          (by simp [countBit]) (by simp [countBit]) (by simp [countBit])
        · rw [hp, h4]; rfl
        · rw [hp]; rfl
        · rw [hp]; simp [countersOk, countBit, hinc]; omega
    · have e4 : s.ustep = 1 := BitVec.eq_of_toNat_eq h4
      left
      rw [afterUop_rbyte_begin (by simpa using hp) (by simpa using e4)]
      refine ⟨_, rfl, ?_, by simp [loadByte], by simp [loadByte], by simp [loadByte], by simp [loadByte], by simp [loadByte],
        (moved_loadByte _ _).trans (moved_goTo _ _)⟩
      refine h.jump hu ((moved_loadByte _ _).trans (moved_goTo _ _)) (by simp [loadByte]) (by simp [loadByte]) ?_ ?_ ?_
          (by simp [loadByte]) (by simp [loadByte]) (by simp [loadByte])
      · rw [hp, h4]; rfl
      · rw [hp]; rfl
      · rw [hp]; simp [countersOk, loadByte]
    · have e4 : s.ustep = 6 := BitVec.eq_of_toNat_eq h4
      left
      rw [hp, h4] at hcnt
      have hb : s.bitcnt.toNat < 8 := by simpa [countersOk] using hcnt
      have hinc : (s.bitcnt + 1#4).toNat = s.bitcnt.toNat + 1 := by rw [BitVec.toNat_add]; simp; omega
      rw [afterUop_rbyte_bit (by simpa using hp) (by simpa using e4)]
      refine ⟨_, rfl, ?_, ?_, ?_, ?_, ?_, ?_, moved_afterReadBit _⟩
      · have hq : (afterReadBit (doUop u s)).phase = s.phase ∧ (afterReadBit (doUop u s)).prim = s.prim ∧
            (afterReadBit (doUop u s)).bytecnt = s.bytecnt ∧ (afterReadBit (doUop u s)).done = s.done ∧
            (afterReadBit (doUop u s)).ackfail = s.ackfail := by
          unfold afterReadBit; dsimp only; split <;> simp [countBit, shiftInBit]
        obtain ⟨q1, q2, q3, q4, q5⟩ := hq
        have hs : (afterReadBit (doUop u s)).ustep = 7 ∨
            ((afterReadBit (doUop u s)).ustep = 2 ∧ (afterReadBit (doUop u s)).bitcnt.toNat < 8) := by
          unfold afterReadBit; dsimp only
          split
          · left; rfl
          · next hne =>
            right
            refine ⟨rfl, ?_⟩
            have hne' : s.bitcnt + 1#4 ≠ 8#4 := by simpa [countBit, shiftInBit] using hne
            have h8' : s.bitcnt.toNat + 1 ≠ 8 := fun e => hne' (BitVec.eq_of_toNat_eq (by rw [hinc, e]; rfl))
            simp [countBit, shiftInBit, hinc]; omega
        refine h.jump hu (moved_afterReadBit _) q1 q2 ?_ ?_ ?_ q3 q4 q5
        · rcases hs with hs | ⟨hs, -⟩ <;> rw [hs, hp, h4] <;> rfl
        · rw [hp]; rfl
        · rcases hs with hs | ⟨hs, hs'⟩ <;> rw [hs, hp]
          · simp [countersOk]
          · simpa [countersOk] using hs'
      all_goals unfold afterReadBit; dsimp only; split <;> simp [countBit, shiftInBit]
    · have e4 : s.ustep = 4 := BitVec.eq_of_toNat_eq h4
      left
      rw [afterUop_wack_begin (by simpa using hp) (by simpa using e4)]
      refine ⟨_, rfl, ?_, by simp [clearRetry], by simp [clearRetry], by simp [clearRetry], by simp [clearRetry], by simp [clearRetry],
        (moved_clearRetry _).trans (moved_goTo _ _)⟩
      refine h.jump hu ((moved_clearRetry _).trans (moved_goTo _ _)) (by simp [clearRetry]) (by simp [clearRetry]) ?_ ?_ ?_
          (by simp [clearRetry]) (by simp [clearRetry]) (by simp [clearRetry])
      · rw [hp, h4]; rfl
      · rw [hp]; rfl
      · have : (doUop u s).retryN = s.retryN := by cases u <;> rfl
        rw [hp]; simp [countersOk, clearRetry, this]; omega
    · have e4 : s.ustep = 5 := BitVec.eq_of_toNat_eq h4
      left
      rw [hp, h4] at hcnt
      have hr : s.retrycnt.toNat < s.retryN.toNat := by simpa [countersOk] using hcnt
      have hlt := s.retryN.isLt
      have hinc : (s.retrycnt + 1#8).toNat = s.retrycnt.toNat + 1 := by rw [BitVec.toNat_add]; simp; omega
      have hrn : (doUop u s).retryN = s.retryN := by cases u <;> rfl
      rw [afterUop_wack_poll (by simpa using hp) (by simpa using e4)]
      refine ⟨_, rfl, ?_, ?_, ?_, ?_, ?_, ?_, moved_afterPoll _⟩
      · have hq : (afterPoll (doUop u s)).phase = s.phase ∧ (afterPoll (doUop u s)).prim = s.prim ∧
            (afterPoll (doUop u s)).bytecnt = s.bytecnt ∧ (afterPoll (doUop u s)).done = s.done ∧
            (afterPoll (doUop u s)).ackfail = s.ackfail := by
          unfold afterPoll; dsimp only; repeat' split
          all_goals simp [setAck]
        obtain ⟨q1, q2, q3, q4, q5⟩ := hq
        have hs : (afterPoll (doUop u s)).ustep = 7 ∨ ((afterPoll (doUop u s)).ustep = 6 ∧
            (afterPoll (doUop u s)).retrycnt.toNat < (afterPoll (doUop u s)).retryN.toNat) := by
          unfold afterPoll; dsimp only
          split
          · left; rfl
          · split
            · left; rfl
            · next hne =>
              right
              refine ⟨rfl, ?_⟩
              have hne' : s.retrycnt + 1#8 ≠ s.retryN := by simpa [hrn] using hne
              have h8' : s.retrycnt.toNat + 1 ≠ s.retryN.toNat := fun e => hne' (BitVec.eq_of_toNat_eq (by rw [hinc, e]))
              simp [hinc, hrn]; omega
        refine h.jump hu (moved_afterPoll _) q1 q2 ?_ ?_ ?_ q3 q4 q5
        · rcases hs with hs | ⟨hs, -⟩ <;> rw [hs, hp, h4] <;> rfl
        · rw [hp]; rfl
        · rcases hs with hs | ⟨hs, hs'⟩ <;> rw [hs, hp]
          · simp [countersOk]
          · simpa [countersOk] using hs'
      all_goals unfold afterPoll; dsimp only; repeat' split
      all_goals simp [setAck]
    · have e4 : s.ustep = 6 := BitVec.eq_of_toNat_eq h4
      left
      rw [hp, h4] at hcnt
      have hr : s.retrycnt.toNat < s.retryN.toNat := by simpa [countersOk] using hcnt
      have hrn : (doUop u s).retryN = s.retryN := by cases u <;> rfl
      rw [afterUop_wack_again (by simpa using hp) (by simpa using e4)]
      refine ⟨_, rfl, ?_, by simp, by simp, by simp, by simp, by simp, moved_goTo _ _⟩
      refine h.jump hu (moved_goTo _ _) (by simp) (by simp) ?_ ?_ ?_ (by simp) (by simp) (by simp)
      · rw [hp, h4]; rfl
      · rw [hp]; rfl
      · rw [hp]; simpa [countersOk, hrn] using hr
    · right
      refine ⟨hl, doUop u s, ?_, moved_refl _, by simp, by simp, by simp, by simp, by simp, by simp, by simp, by simp,
        by simp, by simp⟩
      unfold Machine.afterUop
      split <;> simp_all [primSeq]
/-! ## From one phase to the next -/

/-- Where the last micro-operation of a primitive other than `STOP` leaves the pins, and what else `State.running` asks. -/
structure Landed (s : State) : Prop where
  scl : s.sclOut = false
  dir : s.sdaDir = .out
  cfg : s.cfgValid = true
  lines : s.pinsTaken = false
  word : cmdReserved s.cmd = false
  done : s.done = false
  cmderr : s.cmderr = false
  cfgerr : s.cfgerr = false

theorem Landed.enter {s : State} (h : Landed s) (ph : Phase) (p : Prim) (hp : p ∈ ph.runs) (hs : ph ≠ .start1)
    (hu : ph.usedBy s.kind s.w16 = true) (hsda : p = .start ∨ p = .turn → s.sdaOut = true)
    (hb : p = .wbyte → s.bitcnt = 0) (hpay : ph = .wdata ∨ ph = .ackWdata ∨ ph = .rdata ∨ ph = .mackp → s.bytecnt < s.nBytes)
    (ha : s.ackfail = true → ph = .stopp) : Runnable (enterPhase ph p s) := by
  have h1 : ∀ first, p ≠ .start → sclBefore first p 0 = false := by intro f hf; cases p <;> first | rfl | exact absurd rfl hf
  have h2 : sclBefore false p 0 = false := by cases p <;> rfl
  refine ⟨hp, ?_, hu, ?_, ?_, ?_, ?_, ?_, h.cfg, h.lines, h.word, h.done, h.cmderr, h.cfgerr, ha⟩
  · show 0 < (primSeq p false).length
    cases p <;> first | decide | (cases ph <;> simp [Phase.runs] at hp)
  · show s.sclOut = sclBefore (decide (ph = .start1)) p 0
    rw [h.scl, decide_eq_false hs, h2]
  · show s.sdaDir = dirBefore p 0
    rw [h.dir]; cases p <;> rfl
  · intro v hv
    have hv' : sdaAt (State.dataBit (enterPhase ph p s)) p 0 = some v := by rw [← sdaBefore_eq]; exact hv
    show s.sdaOut = v
    cases p <;> simp [sdaAt] at hv'
    · rw [hsda (.inl rfl), hv']
    · rw [hsda (.inr rfl), hv']
  · show countersOk (enterPhase ph p s) p 0 = true
    cases p with
    | wbyte =>
      have e : s.bitcnt = 0 := hb rfl
      exact decide_eq_true (show s.bitcnt.toNat < 8 by rw [e]; decide)
    | _ => simp [countersOk]
  · show payloadOk (enterPhase ph p s) = true
    cases ph <;> first | rfl | exact decide_eq_true (hpay (by simp))

theorem Landed.enterWbyte {s : State} (h : Landed s) (ph : Phase) (b : Byte) (hp : .wbyte ∈ ph.runs) (hs : ph ≠ .start1)
    (hu : ph.usedBy s.kind s.w16 = true)
    (hpay : ph = .wdata ∨ ph = .ackWdata ∨ ph = .rdata ∨ ph = .mackp → s.bytecnt < s.nBytes)
    (ha : s.ackfail = false) : Runnable (enterWbyte ph b s) :=
  Landed.enter (s := loadByte b s) ⟨h.scl, h.dir, h.cfg, h.lines, h.word, h.done, h.cmderr, h.cfgerr⟩ ph .wbyte hp hs hu
    (by simp) (fun _ => rfl) hpay (fun e => by rw [show (loadByte b s).ackfail = s.ackfail from rfl, ha] at e; cases e)

theorem Landed.enterAbort {s : State} (h : Landed s) : Runnable (enterAbort s) :=
  Landed.enter (s := markAckFail s) ⟨h.scl, h.dir, h.cfg, h.lines, h.word, h.done, h.cmderr, h.cfgerr⟩ .stopp .stop (by simp [Phase.runs])
    (by decide) rfl (by simp) (by simp) (by simp) (fun _ => rfl)

/-- Where the last micro-operation of a primitive leaves the pins. -/
theorem Runnable.landed {s t : State} {u : Uop} (h : Runnable s) (hu : s.uopAt = some u)
    (hl : s.ustep.toNat + 1 = (primSeq s.prim false).length) (m : Moved (doUop u s) t) (hd : t.done = s.done) :
    t.sdaDir = .out ∧ (s.prim ≠ .stop → Landed t) ∧ (s.prim = .wack ∨ s.prim = .turn → t.sdaOut = true) ∧
    (s.prim = .stop → t.sclOut = true ∧ t.sdaOut = true) := by
  have hp := h.driving_phase
  rw [State.uopAt, if_neg hp] at hu
  have hpins := m.pins
  simp only [State.pins, Pins.mk.injEq, doUop_sclOut, doUop_sdaOut, doUop_sdaDir] at hpins
  obtain ⟨p1, p2, p3⟩ := hpins
  have hcmd : t.cmd = s.cmd := by rw [m.cmd, doUop_cmd]
  obtain ⟨o1, o2, -, o4, o5, -, -, -, -, o10⟩ := sameOutside_trans (sameOutside_doUop u s) m.outside
  have hcfg : t.cfgValid = true := by have := h.cfg; unfold State.cfgValid at this ⊢; rw [o1, o2, o4]; exact this
  have hlines : t.pinsTaken = false := by have := h.lines; unfold State.pinsTaken at this ⊢; rw [o1, o2, o10]; exact this
  have hk : s.ustep.toNat = (primSeq s.prim false).length - 1 := by omega
  have hscl := h.scl
  have hdir := h.dir
  have hsda := h.sda
  rw [hk] at hu hscl hdir hsda
  have tbl : uopDir u (dirBefore s.prim ((primSeq s.prim false).length - 1)) = .out ∧
      (s.prim ≠ .stop → uopScl u (sclBefore (decide (s.phase = .start1)) s.prim ((primSeq s.prim false).length - 1)) = false) ∧
      (s.prim = .wack ∨ s.prim = .turn → uopSda u s.sdaOut = true) ∧
      (s.prim = .stop → uopScl u (sclBefore (decide (s.phase = .start1)) s.prim ((primSeq s.prim false).length - 1)) = true ∧
        uopSda u s.sdaOut = true) := by
    cases hq : s.prim <;> rw [hq] at hu hsda hk <;> cases hv : s.dataBit <;> rw [hv] at hu <;>
      simp [primSeq, bitSeq, sdaBefore] at hu hsda hk <;> first | omega | subst hu <;> simp_all [uopDir, uopScl, uopSda, dirBefore, sclBefore, primSeq, bitSeq]
  obtain ⟨t1, t2, t3, t4⟩ := tbl
  have hscl' : s.prim ≠ .stop → t.sclOut = false := fun e => by rw [p1, hscl, t2 e]
  refine ⟨by rw [p3, hdir, t1], fun e => ?_, fun e => by rw [p2, t3 e], fun e => ⟨by rw [p1, hscl, (t4 e).1], by rw [p2, (t4 e).2]⟩⟩
  exact ⟨hscl' e, by rw [p3, hdir, t1], hcfg, hlines, by rw [hcmd]; exact h.word, hd.trans h.done,
    m.cmderr.trans (by simpa using h.cmderr), m.cfgerr.trans (by simpa using h.cfgerr)⟩

/-- The payload loop of a write is entered, or left, in a runnable state. -/
theorem Landed.nextWriteByte {s t : State} (h : Landed s) (hk : s.kind = .write) (ha : s.ackfail = false)
    (he : nextWriteByte s = .next t) : Runnable t ∧ t.busy = s.busy ∧ t.rxmem = s.rxmem := by
  unfold Machine.nextWriteByte at he
  split at he
  · next hlt =>
    split at he
    · cases he
    · cases he
      exact ⟨h.enterWbyte .wdata _ (by simp [Phase.runs]) (by decide) (by simp [Phase.usedBy, hk]) (fun _ => hlt) ha, rfl, rfl⟩
  · cases he
    exact ⟨h.enter .stopp .stop (by simp [Phase.runs]) (by decide) rfl (by simp) (by simp) (by simp) (fun _ => rfl), rfl, rfl⟩

/-- The payload loop of a read likewise. -/
theorem Landed.nextReadByte {s : State} (h : Landed s) (hk : s.kind = .read) (ha : s.ackfail = false) :
    Runnable (nextReadByte s) ∧ (nextReadByte s).busy = s.busy ∧ (nextReadByte s).rxmem = s.rxmem := by
  unfold Machine.nextReadByte
  split
  · next hlt =>
    exact ⟨h.enter .rdata .rbyte (by simp [Phase.runs]) (by decide) (by simp [Phase.usedBy, hk]) (by simp) (by simp) (fun _ => hlt)
      (fun e => by rw [ha] at e; cases e), rfl, rfl⟩
  · exact ⟨h.enter .stopp .stop (by simp [Phase.runs]) (by decide) rfl (by simp) (by simp) (by simp) (fun _ => rfl), rfl, rfl⟩

/-- The end of a phase: the next phase in a runnable state, or completion. -/
theorem Runnable.endPhase {s t z : State} {u : Uop} (h : Runnable s) (hu : s.uopAt = some u)
    (hl : s.ustep.toNat + 1 = (primSeq s.prim false).length) (m : Moved (doUop u s) t) (hph : t.phase = s.phase)
    (hd : t.done = s.done) (ha : t.ackfail = s.ackfail) (hb : t.bytecnt = s.bytecnt) (hz : endPhase t = .next z) :
    (Runnable z ∧ z.busy = t.busy ∧ (Memory.wf t.rxmem = true → Memory.wf z.rxmem = true)) ∨
    (s.phase = .stopp ∧ z = completeCommand t ∧ t.sdaDir = .out ∧ t.sclOut = true ∧ t.sdaOut = true) := by
  obtain ⟨ldir, land, lsda, lstop⟩ := h.landed hu hl m hd
  have hcmd : t.cmd = s.cmd := by rw [m.cmd, doUop_cmd]
  have hkind := kind_of_cmd hcmd
  have hw16 := w16_of_cmd hcmd
  obtain ⟨-, -, -, -, o5, -⟩ := sameOutside_trans (sameOutside_doUop u s) m.outside
  have hused := h.used
  rw [← hkind, ← hw16] at hused
  have hpr := h.prim
  have hpay := h.payload
  have hfail : s.phase ≠ .stopp → t.ackfail = false := fun e => by
    rw [ha]; cases hf : s.ackfail
    · rfl
    · exact absurd (h.ackfail hf) e
  unfold payloadOk at hpay
  unfold Machine.endPhase at hz
  rw [hph] at hz
  have wbyte : ∀ ph b, Landed t → t.ackfail = false → .wbyte ∈ ph.runs → ph ≠ .start1 → ph.usedBy t.kind t.w16 = true →
      (ph = .wdata ∨ ph = .ackWdata ∨ ph = .rdata ∨ ph = .mackp → t.bytecnt < t.nBytes) → z = enterWbyte ph b t →
      Runnable z ∧ z.busy = t.busy ∧ (Memory.wf t.rxmem = true → Memory.wf z.rxmem = true) := by
    intro ph b L f e1 e2 e3 e4 e; subst e; exact ⟨L.enterWbyte ph b e1 e2 e3 e4 f, rfl, id⟩
  have other : ∀ ph p, Landed t → (t.ackfail = true → ph = .stopp) → p ∈ ph.runs → p ≠ .wbyte → ph ≠ .start1 →
      ph.usedBy t.kind t.w16 = true → (p = .start ∨ p = .turn → t.sdaOut = true) →
      (ph = .wdata ∨ ph = .ackWdata ∨ ph = .rdata ∨ ph = .mackp → t.bytecnt < t.nBytes) → z = enterPhase ph p t →
      Runnable z ∧ z.busy = t.busy ∧ (Memory.wf t.rxmem = true → Memory.wf z.rxmem = true) := by
    intro ph p L f e1 e2 e3 e4 e5 e6 e; subst e
    exact ⟨L.enter ph p e1 e3 e4 e5 (fun e => absurd e e2) e6 f, rfl, id⟩
  have fail : Landed t → z = enterAbort t →
      Runnable z ∧ z.busy = t.busy ∧ (Memory.wf t.rxmem = true → Memory.wf z.rxmem = true) := by
    intro L e; subst e; exact ⟨L.enterAbort, rfl, id⟩
  have nofail : s.phase ≠ .stopp → ∀ {ph : Phase}, t.ackfail = true → ph = .stopp := fun e ph f => by
    rw [hfail e] at f; cases f
  have single : ∀ {q : Prim}, s.phase.runs = [q] → s.prim = q := fun e => by simpa [e] using hpr
  cases hq : s.phase <;> rw [hq] at hz hused hpay
  case idle => exact absurd hq h.driving_phase
  all_goals dsimp only at hz
  case start1 =>
    have L := land (by rw [single (q := .start) (by rw [hq]; rfl)]; decide)
    cases hz
    exact .inl (wbyte .addrw _ L (hfail (by simp [hq])) (by simp [Phase.runs]) (by decide) rfl (by simp) rfl)
  case addrw =>
    have L := land (by rw [single (q := .wbyte) (by rw [hq]; rfl)]; decide)
    cases hz
    exact .inl (other .ackAddrw .wack L (nofail (by simp [hq])) (by simp [Phase.runs]) (by decide) (by decide) rfl (by simp) (by simp) rfl)
  case ackAddrw =>
    have L := land (by rw [single (q := .wack) (by rw [hq]; rfl)]; decide)
    left
    split at hz
    · split at hz <;> cases hz
      · exact other .stopp .stop L (fun _ => rfl) (by simp [Phase.runs]) (by decide) (by decide) rfl (by simp) (by simp) rfl
      · exact fail L rfl
    · next hk =>
      split at hz
      · cases hz; exact fail L rfl
      · split at hz <;> cases hz
        · next hw => exact wbyte .reghi _ L (hfail (by simp [hq])) (by simp [Phase.runs]) (by decide) (by simp [Phase.usedBy, hk, hw]) (by simp) rfl
        · exact wbyte .reglo _ L (hfail (by simp [hq])) (by simp [Phase.runs]) (by decide) (by simp [Phase.usedBy, hk]) (by simp) rfl
  case reghi =>
    have L := land (by rw [single (q := .wbyte) (by rw [hq]; rfl)]; decide)
    cases hz
    exact .inl (other .ackReghi .wack L (nofail (by simp [hq])) (by simp [Phase.runs]) (by decide) (by decide) hused (by simp) (by simp) rfl)
  case ackReghi =>
    have L := land (by rw [single (q := .wack) (by rw [hq]; rfl)]; decide)
    left
    split at hz <;> cases hz
    · refine wbyte .reglo _ L (hfail (by simp [hq])) (by simp [Phase.runs]) (by decide) ?_ (by simp) rfl
      simp only [Phase.usedBy, Bool.and_eq_true] at hused ⊢
      exact hused.1
    · exact fail L rfl
  case reglo =>
    have L := land (by rw [single (q := .wbyte) (by rw [hq]; rfl)]; decide)
    cases hz
    exact .inl (other .ackReglo .wack L (nofail (by simp [hq])) (by simp [Phase.runs]) (by decide) (by decide) hused (by simp) (by simp) rfl)
  case ackReglo =>
    have L := land (by rw [single (q := .wack) (by rw [hq]; rfl)]; decide)
    left
    split at hz
    · cases hz; exact fail L rfl
    · split at hz
      · next hk =>
        have L' : Landed (clearBytecnt t) := ⟨L.scl, L.dir, L.cfg, L.lines, L.word, L.done, L.cmderr, L.cfgerr⟩
        obtain ⟨r1, r2, r3⟩ := L'.nextWriteByte hk (hfail (by simp [hq])) hz
        exact ⟨r1, r2, fun e => by rw [r3]; exact e⟩
      · next hk =>
        cases hz
        have hk' : t.kind = .read := by
          simp only [Phase.usedBy] at hused
          cases hkk : t.kind <;> simp_all
        exact other .turnp .turn L (nofail (by simp [hq])) (by simp [Phase.runs]) (by decide) (by decide) (by simp [Phase.usedBy, hk'])
          (fun _ => lsda (.inl (single (by rw [hq]; rfl)))) (by simp) rfl
  case wdata =>
    have L := land (by rw [single (q := .wbyte) (by rw [hq]; rfl)]; decide)
    cases hz
    exact .inl (other .ackWdata .wack L (nofail (by simp [hq])) (by simp [Phase.runs]) (by decide) (by decide) hused (by simp)
      (fun _ => by rw [hb, o5]; simpa using hpay) rfl)
  case ackWdata =>
    have L := land (by rw [single (q := .wack) (by rw [hq]; rfl)]; decide)
    left
    split at hz
    · cases hz; exact fail L rfl
    · have L' : Landed (countByte t) := ⟨L.scl, L.dir, L.cfg, L.lines, L.word, L.done, L.cmderr, L.cfgerr⟩
      obtain ⟨r1, r2, r3⟩ := L'.nextWriteByte (show t.kind = .write by simpa [Phase.usedBy] using hused) (hfail (by simp [hq])) hz
      exact ⟨r1, r2, fun e => by rw [r3]; exact e⟩
  case turnp =>
    have L := land (by rw [single (q := .turn) (by rw [hq]; rfl)]; decide)
    cases hz
    exact .inl (other .start2 .start L (nofail (by simp [hq])) (by simp [Phase.runs]) (by decide) (by decide) hused
      (fun _ => lsda (.inr (single (by rw [hq]; rfl)))) (by simp) rfl)
  case start2 =>
    have L := land (by rw [single (q := .start) (by rw [hq]; rfl)]; decide)
    cases hz
    exact .inl (wbyte .addrr _ L (hfail (by simp [hq])) (by simp [Phase.runs]) (by decide) hused (by simp) rfl)
  case addrr =>
    have L := land (by rw [single (q := .wbyte) (by rw [hq]; rfl)]; decide)
    cases hz
    exact .inl (other .ackAddrr .wack L (nofail (by simp [hq])) (by simp [Phase.runs]) (by decide) (by decide) hused (by simp) (by simp) rfl)
  case ackAddrr =>
    have L := land (by rw [single (q := .wack) (by rw [hq]; rfl)]; decide)
    left
    split at hz <;> cases hz
    · have L' : Landed (clearBytecnt t) := ⟨L.scl, L.dir, L.cfg, L.lines, L.word, L.done, L.cmderr, L.cfgerr⟩
      obtain ⟨r1, r2, r3⟩ := L'.nextReadByte (show t.kind = .read by simpa [Phase.usedBy] using hused) (hfail (by simp [hq]))
      exact ⟨r1, r2, fun e => by rw [r3]; exact e⟩
    · exact fail L rfl
  case rdata =>
    have L := land (by rw [single (q := .rbyte) (by rw [hq]; rfl)]; decide)
    cases hz
    left
    have L' : Landed (storeRxByte t) := ⟨L.scl, L.dir, L.cfg, L.lines, L.word, L.done, L.cmderr, L.cfgerr⟩
    have hlt : t.bytecnt < t.nBytes := by rw [hb, o5]; simpa using hpay
    refine ⟨L'.enter .mackp _ ?_ (by decide) hused ?_ ?_ (fun _ => hlt) (fun e => nofail (by simp [hq]) e), rfl, fun e => ?_⟩
    · split <;> simp [Phase.runs]
    · split <;> simp
    · split <;> simp
    · refine Memory.wf_write _ ?_ e
      have := t.nBytes.isLt
      rw [BitVec.lt_def] at hlt
      omega
  case mackp =>
    have L := land (by
      have : s.prim = .mack ∨ s.prim = .mnack := by simpa [hq, Phase.runs] using hpr
      rcases this with e | e <;> rw [e] <;> decide)
    cases hz
    left
    have L' : Landed (countByte t) := ⟨L.scl, L.dir, L.cfg, L.lines, L.word, L.done, L.cmderr, L.cfgerr⟩
    obtain ⟨r1, r2, r3⟩ := L'.nextReadByte (show t.kind = .read by simpa [Phase.usedBy] using hused) (hfail (by simp [hq]))
    exact ⟨r1, r2, fun e => by rw [r3]; exact e⟩
  case stopp =>
    cases hz
    obtain ⟨e1, e2⟩ := lstop (single (by rw [hq]; rfl))
    exact .inr ⟨rfl, rfl, ldir, e1, e2⟩

/-! ## The invariant over an engine turn -/

theorem inv_busy_iff {s : State} (hb : s.busy = true) : s.Inv = true ↔
    s.agenda.all Turn.lawful = true ∧ Memory.wf s.txmem = true ∧ Memory.wf s.rxmem = true ∧ Runnable s := by
  rw [← running_iff]
  simp [State.Inv, hb, and_assoc]

/-- An engine turn keeps the invariant. -/
theorem inv_engineTurn {s t : State} (hI : s.Inv = true) (h : engineTurn s = .next t) : t.Inv = true := by
  rcases engineTurn_cases s with ⟨-, e⟩ | ⟨-, -, e⟩ | ⟨-, -, -, e⟩ | ⟨hb, hp, u, hu, e⟩
  · rw [e] at h; cases h; exact hI
  · rw [e] at h; cases h
  · rw [e] at h; cases h
  · obtain ⟨i1, i2, i3, r⟩ := (inv_busy_iff hb).mp hI
    have outside : sameOutside s t := by
      rw [e] at h
      exact sameOutside_trans (sameOutside_doUop u s) (moved_afterUop h).outside
    obtain ⟨-, -, -, -, -, o6, -, -, o9, -⟩ := outside
    rw [e] at h
    rcases r.afterUop hu with ⟨t', e', rt, -, q1, -, -, hbt, -⟩ | ⟨hl, z, e', m, z1, z2, z3, z4, z5, z6, z7, z8, z9, z10⟩
    · rw [e'] at h; cases h
      exact (inv_busy_iff (hbt.trans hb)).mpr ⟨by rw [o9]; exact i1, by rw [o6]; exact i2, by rw [q1]; exact i3, rt⟩
    · rw [e'] at h
      rcases r.endPhase hu hl m z1 z8 z9 z3 h with ⟨rt, b, w⟩ | ⟨e1, e2, e3, e4, e5⟩
      · exact (inv_busy_iff (by rw [b, z10, hb])).mpr
          ⟨by rw [o9]; exact i1, by rw [o6]; exact i2, w (by rw [z5]; exact i3), rt⟩
      · subst e2
        have f1 := m.cmderr.trans (show (doUop u s).cmderr = s.cmderr by simp)
        have f2 := m.cfgerr.trans (show (doUop u s).cfgerr = s.cfgerr by simp)
        simp only [State.Inv, Bool.and_eq_true]
        refine ⟨⟨⟨by rw [o9]; exact i1, by rw [o6]; exact i2⟩, by simpa [completeCommand, forgetDatapath, z5] using i3⟩, ?_⟩
        simp [completeCommand, forgetDatapath, State.pinsIdle, State.flagsOk, e3, e4, e5, f1, f2, r.cmderr, r.cfgerr]

end Sys2Proof.Machine
end

