-- ==== Sys2Proof/Laws/PerInstr.lean ====
section
/-! SUPPORT. Laws stated of every instruction, one lemma per constructor. Family TableRow: the encoding of a
well-formed instruction lies in its own row of spec/opcode_table.json, by the row's mask and match (`30_encoding.md`
R103, R104, R107, R108). -/

namespace Sys2Proof.Laws.TableRow

/-- A row of the table. -/
inductive Row where
  /-- Mask 0xFC000007 and a match: a command or a reserved `OP`. -/
  | op (matched : Word)
  /-- Some of the bits of mask 0xFC000000 set: the row RESERVED_RSV. -/
  | rsv
  /-- Mask 0xF and a match: a primitive. -/
  | prim (matched : BitVec 4)
  /-- Mask 0x7 and a match: a micro-operation. -/
  | uop (matched : BitVec 3)
deriving DecidableEq, Repr

/-- The encoded instruction lies in the row. -/
def Row.admits (r : Row) (e : Encoded) : Prop :=
  match r, e with
  | .op m, .cmd w => w &&& 0xFC000007 = m
  | .rsv, .cmd w => w &&& 0xFC000000 ≠ 0
  | .prim m, .prim c _ => c &&& 0xF = m
  | .uop m, .uop c => c &&& 0x7 = m
  | _, _ => False

/-- The row of an instruction. -/
def rowOf : Instr → Row
  | .probe .. => .op 0
  | .wr8 .. => .op 1
  | .rd8 .. => .op 2
  | .wr16 .. => .op 5
  | .rd16 .. => .op 6
  | .reservedOp3 .. => .op 3
  | .reservedOp4 .. => .op 4
  | .reservedOp7 .. => .op 7
  | .reservedRsv .. => .rsv
  | .start => .prim 0
  | .stop => .prim 1
  | .wbit _ => .prim 2
  | .rbit => .prim 3
  | .wbyte _ => .prim 4
  | .rbyte => .prim 5
  | .wack => .prim 6
  | .mack => .prim 7
  | .mnack => .prim 8
  | .turn => .prim 9
  | .sdaLo => .uop 0
  | .sdaHi => .uop 1
  | .sclLo => .uop 2
  | .sclHi => .uop 3
  | .dirOut => .uop 4
  | .dirIn => .uop 5
  | .wait => .uop 6
  | .sample => .uop 7

/-- The encoding of a well-formed instruction lies in its row. -/
def Statement (i : Instr) : Prop := i.wf = true → (rowOf i).admits (encode i)

theorem cmdWord_op (reg : RegAddr) (dev : DevAddr) (op : BitVec 3) :
    cmdWord 0 reg dev op &&& 0xFC000007 = op.setWidth 32 := by
  apply BitVec.eq_of_getLsbD_eq
  intro i hi
  have key : (cmdWord 0 reg dev op).getLsbD i = (if i < 3 then op.getLsbD i else if i < 10 then dev.getLsbD (i - 3)
      else if i < 26 then reg.getLsbD (i - 10) else false) := by
    simp only [cmdWord, BitVec.getLsbD_append]
    split_ifs <;> first | rfl | omega | simp_all
  rw [BitVec.getLsbD_and, key, BitVec.getLsbD_setWidth]
  interval_cases i <;> simp

theorem cmdWord_rsv (rsv : BitVec 6) (reg : RegAddr) (dev : DevAddr) (op : BitVec 3) (h : rsv ≠ 0) :
    cmdWord rsv reg dev op &&& 0xFC000000 ≠ 0 := by
  intro hz
  apply h
  apply BitVec.eq_of_getLsbD_eq
  intro i hi
  have h1 : (cmdWord rsv reg dev op).getLsbD (26 + i) = rsv.getLsbD i := by
    have := congrArg (fun x => BitVec.getLsbD x i) (cmdRsv_cmdWord rsv reg dev op)
    simpa [cmdRsv, hi] using this
  have h2 := congrArg (fun x => BitVec.getLsbD x (26 + i)) hz
  simp only [BitVec.getLsbD_and, h1] at h2
  interval_cases i <;> simpa using h2

theorem probe (dev : DevAddr) (reg : RegAddr) : Statement (.probe dev reg) := fun _ => cmdWord_op reg dev 0
theorem wr8 (dev : DevAddr) (reg : RegAddr) : Statement (.wr8 dev reg) := fun _ => cmdWord_op reg dev 1
theorem rd8 (dev : DevAddr) (reg : RegAddr) : Statement (.rd8 dev reg) := fun _ => cmdWord_op reg dev 2
theorem wr16 (dev : DevAddr) (reg : RegAddr) : Statement (.wr16 dev reg) := fun _ => cmdWord_op reg dev 5
theorem rd16 (dev : DevAddr) (reg : RegAddr) : Statement (.rd16 dev reg) := fun _ => cmdWord_op reg dev 6
theorem reservedOp3 (dev : DevAddr) (reg : RegAddr) : Statement (.reservedOp3 dev reg) := fun _ => cmdWord_op reg dev 3
theorem reservedOp4 (dev : DevAddr) (reg : RegAddr) : Statement (.reservedOp4 dev reg) := fun _ => cmdWord_op reg dev 4
theorem reservedOp7 (dev : DevAddr) (reg : RegAddr) : Statement (.reservedOp7 dev reg) := fun _ => cmdWord_op reg dev 7
theorem reservedRsv (op : BitVec 3) (dev : DevAddr) (reg : RegAddr) (rsv : BitVec 6) :
    Statement (.reservedRsv op dev reg rsv) := fun h => cmdWord_rsv rsv reg dev op (by simpa [Instr.wf] using h)
theorem start : Statement .start := fun _ => rfl
theorem stop : Statement .stop := fun _ => rfl
theorem wbit (v : Bool) : Statement (.wbit v) := fun _ => rfl
theorem rbit : Statement .rbit := fun _ => rfl
theorem wbyte (b : Byte) : Statement (.wbyte b) := fun _ => rfl
theorem rbyte : Statement .rbyte := fun _ => rfl
theorem wack : Statement .wack := fun _ => rfl
theorem mack : Statement .mack := fun _ => rfl
theorem mnack : Statement .mnack := fun _ => rfl
theorem turn : Statement .turn := fun _ => rfl
theorem sdaLo : Statement .sdaLo := fun _ => rfl
theorem sdaHi : Statement .sdaHi := fun _ => rfl
theorem sclLo : Statement .sclLo := fun _ => rfl
theorem sclHi : Statement .sclHi := fun _ => rfl
theorem dirOut : Statement .dirOut := fun _ => rfl
theorem dirIn : Statement .dirIn := fun _ => rfl
theorem wait : Statement .wait := fun _ => rfl
theorem sample : Statement .sample := fun _ => rfl

end Sys2Proof.Laws.TableRow
end

