-- ==== Sys2Proof/Laws/Registers.lean ====
section
/-! SUPPORT. Register words with their reserved upper bits zero (`10_state.md` R30): their values, and what a write
keeps. -/

namespace Sys2Proof.Machine

theorem toNat_low16 (x : BitVec 16) : BitVec.toNat (w := 32) ((0#16 : BitVec 16) ++ x) = x.toNat := by
  simpa using BitVec.toNat_append (0#16) x

theorem toNat_low8 (x : BitVec 8) : BitVec.toNat (w := 32) ((0#24 : BitVec 24) ++ x) = x.toNat := by
  simpa using BitVec.toNat_append (0#24) x

theorem toNat_two_bytes (y x : BitVec 8) :
    BitVec.toNat (w := 32) ((0#16 : BitVec 16) ++ y ++ x) = x.toNat + 256 * y.toNat := by
  have h := BitVec.toNat_append ((0#16) ++ y) x
  have h2 := BitVec.toNat_append (0#16) y
  simp at h h2
  rw [h2, ← Nat.shiftLeft_add_eq_or_of_lt x.isLt, Nat.shiftLeft_eq] at h
  refine Eq.trans h ?_
  omega

/-- The low 16 bits, stored as two bytes. -/
theorem two_bytes_eq_and (v : Word) :
    ((0#16 : BitVec 16) ++ v.extractLsb' 8 8 ++ v.extractLsb' 0 8 : Word) = v &&& 0x0000FFFF := by
  apply BitVec.eq_of_toNat_eq
  rw [toNat_two_bytes]
  simp only [BitVec.extractLsb'_toNat, BitVec.toNat_and]
  rw [show BitVec.toNat (65535 : Word) = 2 ^ 16 - 1 from rfl, Nat.and_two_pow_sub_one_eq_mod]
  simp only [Nat.shiftRight_eq_div_pow]
  omega

theorem low16_eq_and (v : Word) : ((0#16 : BitVec 16) ++ v.extractLsb' 0 16 : Word) = v &&& 0x0000FFFF := by
  apply BitVec.eq_of_toNat_eq
  rw [toNat_low16]
  simp only [BitVec.extractLsb'_toNat, BitVec.toNat_and]
  rw [show BitVec.toNat (65535 : Word) = 2 ^ 16 - 1 from rfl, Nat.and_two_pow_sub_one_eq_mod, Nat.shiftRight_zero]

theorem low8_eq_and (v : Word) : ((0#24 : BitVec 24) ++ v.extractLsb' 0 8 : Word) = v &&& 0x000000FF := by
  apply BitVec.eq_of_toNat_eq
  rw [toNat_low8]
  simp only [BitVec.extractLsb'_toNat, BitVec.toNat_and]
  rw [show BitVec.toNat (255 : Word) = 2 ^ 8 - 1 from rfl, Nat.and_two_pow_sub_one_eq_mod, Nat.shiftRight_zero]

end Sys2Proof.Machine
end

