-- ==== Sys2Proof/Machine/EchoSlave.lean ====
section
/-! DEFINITION. The reference environment of `20_memory.md` R80 to R86: the echo slave, and the bench that closes the
loop between it and the engine. Not part of the hardware (R80); the machine's step does not know of it. Log 26. -/

namespace Sys2Proof.Machine

/-- `mode` (R81). -/
inductive EchoMode where
  | idle | recv | ackout | send | ackin
deriving DecidableEq, Repr

/-- The echo slave's parameters and state (R81); `prevScl`, `prevLine` are the pair it saw before, and `store0` is the
model's own: what `store` held at the start, for R252 (log 26). -/
structure Echo where
  ackset : List DevAddr
  regw : Nat
  fill : Byte
  nackAfter : Option Nat
  sda : Bool
  mode : EchoMode
  bits : Nat
  sh : Byte
  nbytes : Nat
  acked : Nat
  selected : Bool
  read : Bool
  regbytes : List Byte
  ptr : Option Nat
  wrbuf : Option (List Byte)
  sendidx : Nat
  masterAck : Bool
  store : List (Nat × List Byte)
  store0 : List (Nat × List Byte)
  prevScl : Bool
  prevLine : Bool
deriving DecidableEq, Repr

/-- The slave at the start. R81 gives `sda`, `mode`, `acked`, `ptr`, `wrbuf` and `regbytes`. It gives no initial value
for the rest: `bits`, `sh`, `nbytes`, `sendidx` start at 0, `selected`, `read`, `master_ack` at false, the pair seen
before is that of an idle bus, and the first contents of `store` are a parameter (DESIGN CHOICE, log 26). -/
def echoInit (ackset : List DevAddr) (regw : Nat) (nackAfter : Option Nat) (store : List (Nat × List Byte)) : Echo where
  ackset := ackset
  regw := regw
  fill := 0xFF
  nackAfter := nackAfter
  sda := true
  mode := .idle
  bits := 0
  sh := 0
  nbytes := 0
  acked := 0
  selected := false
  read := false
  regbytes := []
  ptr := none
  wrbuf := none
  sendidx := 0
  masterAck := false
  store := store
  store0 := store
  prevScl := true
  prevLine := true

/-- `store[p]`. -/
def echoStored (m : List (Nat × List Byte)) (p : Nat) : List Byte :=
  match m with
  | [] => []
  | (k, v) :: m => if k = p then v else echoStored m p

/-- `store[ptr] <- wrbuf` if both are not none; `wrbuf <- none` (R82). -/
def echoCommit (e : Echo) : Echo :=
  match e.ptr, e.wrbuf with
  | some p, some w => { e with store := (p, w) :: e.store.filter (fun c => c.1 != p), wrbuf := none }
  | _, _ => { e with wrbuf := none }

/-- A start condition is seen (R82). -/
def echoStart (e : Echo) : Echo := { e with mode := .recv, bits := 0, sh := 0, nbytes := 0, sda := true }

/-- A stop condition is seen (R82). -/
def echoStop (e : Echo) : Echo :=
  { echoCommit e with mode := .idle, selected := false, acked := 0, sda := true, ptr := none, regbytes := [] }

/-- Drive the next bit (R85). -/
def echoDrive (e : Echo) : Echo := { e with sda := e.sh.getLsbD (7 - e.bits) }

/-- Load the next byte and drive its first bit (R85). -/
def echoLoad (e : Echo) : Echo :=
  let stored := match e.ptr with
    | some p => echoStored e.store p
    | none => []
  echoDrive { e with sh := stored.getD e.sendidx e.fill, bits := 0 }

/-- Acknowledge or not, the end of a received byte (R83). -/
def echoAnswer (ack : Bool) (e : Echo) : Echo :=
  let e := { e with nbytes := e.nbytes + 1 }
  if ack then { e with acked := e.acked + 1, sda := false, mode := .ackout }
  else { e with sda := true, mode := .idle }

/-- Bytes read most significant first. -/
def echoPtr (bs : List Byte) : Nat := bs.foldl (fun a b => a * 256 + b.toNat) 0

/-- A register or payload byte is taken (R83). -/
def echoTake (b : Byte) (e : Echo) : Echo :=
  if e.regbytes.length < e.regw then
    let rb := e.regbytes ++ [b]
    { e with regbytes := rb, ptr := if rb.length = e.regw then some (echoPtr rb) else e.ptr }
  else { e with wrbuf := some (e.wrbuf.getD [] ++ [b]) }

/-- A whole byte has been received (R83). -/
def echoByte (e : Echo) : Echo :=
  let b := e.sh
  let e := { e with bits := 0, sh := 0 }
  let want := match e.nackAfter with
    | none => true
    | some k => decide (e.acked < k)
  if e.nbytes = 0 then
    if want && e.ackset.contains (b.extractLsb' 1 7) then
      let e := { e with selected := true, read := b.getLsbD 0 }
      let e := if e.read then e else { echoCommit e with regbytes := [], ptr := none }
      echoAnswer true e
    else echoAnswer false { e with selected := false }
  else if e.selected && want then echoAnswer true (echoTake b e)
  else echoAnswer false e

/-- A clock rise with the data line at level `d` (R83, R85). -/
def echoRise (d : Bool) (e : Echo) : Echo :=
  match e.mode with
  | .recv => { e with sh := e.sh.shiftConcat d, bits := e.bits + 1 }
  | .ackin => { e with masterAck := !d }
  | .idle => e
  | .ackout => e
  | .send => e

/-- A clock fall (R83, R84, R85). -/
def echoFall (e : Echo) : Echo :=
  match e.mode with
  | .recv => if e.bits = 8 then echoByte e else e
  | .ackout =>
    let e := { e with sda := true }
    if e.read && e.nbytes == 1 then echoLoad { e with mode := .send, sendidx := 0 } else { e with mode := .recv }
  | .send =>
    let e := { e with bits := e.bits + 1 }
    if e.bits = 8 then { e with sda := true, mode := .ackin, masterAck := false } else echoDrive e
  | .ackin =>
    if e.masterAck then echoLoad { e with sendidx := e.sendidx + 1, mode := .send }
    else { e with mode := .idle, sda := true }
  | .idle => e

/-- The slave observes the pair (`SCL_EFF`, `line(SDA_PIN)`) and reacts (R81). -/
def echoObserve (scl line : Bool) (e : Echo) : Echo :=
  let ps := e.prevScl
  let pl := e.prevLine
  let e := { e with prevScl := scl, prevLine := line }
  if ps && scl then
    if pl && !line then echoStart e else if !pl && line then echoStop e else e
  else if !ps && scl then echoRise line e
  else if ps && !scl then echoFall e
  else e

/-- The engine and the slave on one bus. -/
structure Bench where
  engine : State
  slave : Echo
deriving DecidableEq, Repr

/-- One engine turn of the closed loop: the slave's pull answers a `SAMPLE`, and the slave observes the lines after
every micro-operation but `WAIT` and `SAMPLE` (R81). -/
def benchTurn (b : Bench) : Host.Outcome Bench Fault Refusal :=
  match engineTurn { b.engine with answers := [b.slave.sda] } with
  | .next t =>
    match b.engine.uopAt with
    | some .wait => .next { b with engine := t }
    | some .sample => .next { b with engine := t }
    | _ => .next { engine := t, slave := echoObserve t.sclEff (t.sdaLine b.slave.sda) b.slave }
  | .fault r => .fault r
  | .refused r => .refused r

/-- The slave re-initialised: as `echoInit` has it, with its own parameters and its first `store`. -/
def echoReset (e : Echo) : Echo := { echoInit e.ackset e.regw e.nackAfter e.store0 with fill := e.fill }

/-- `rst_n` in the closed loop: "the reference environment ... is re-initialised together with the engine"
(`70_reset_and_hazards.md` R252). -/
def benchReset (b : Bench) : Bench := { engine := resetEngine b.engine, slave := echoReset b.slave }

/-- Who acts next in the closed loop. -/
inductive BenchTurn where
  /-- The engine and, in the same step, the slave. -/
  | engine
  /-- The host makes one access. -/
  | host (op : HostOp)
  /-- `rst_n` is asserted and released. -/
  | rst
deriving DecidableEq, Repr

/-- One turn of the closed loop. -/
def benchTake (t : BenchTurn) (b : Bench) : Host.Outcome Bench Fault Refusal :=
  match t with
  | .engine => benchTurn b
  | .host op =>
    match hostAct op b.engine with
    | .next s => .next { b with engine := s }
    | .fault r => .fault r
    | .refused r => .refused r
  | .rst => .next (benchReset b)

/-- The closed loop over a list of turns. -/
def benchRun : List BenchTurn → Bench → Host.Outcome Bench Fault Refusal
  | [], b => .next b
  | t :: rest, b =>
    match benchTake t b with
    | .next c => benchRun rest c
    | .fault r => .fault r
    | .refused r => .refused r

/-- The host writes a command word and the loop runs for `fuel` turns. -/
def benchCommand (w : Word) (fuel : Nat) (b : Bench) : Host.Outcome Bench Fault Refusal :=
  benchRun (.host (.write 3 w) :: List.replicate fuel .engine) b

end Sys2Proof.Machine
end

