-- ==== Sys2Proof/Tests/Slice0.lean ====
section
/-! SUPPORT. Tests: words written out from the encodings of spec/30_encoding.md, small instruction tests with the results
spec/95_test_vectors.md or a rule gives, and for each obligation with hypotheses a state that meets them. -/

namespace Sys2Proof.Tests

open Sys2Proof.Machine

/-! ## WellFormed -/

/-- The one check: RESERVED_RSV with `RSV = 0` is no row of the table. -/
theorem test_wf_refuses_rsv_zero : (Instr.reservedRsv 3 0x40 0 0).wf = false := by decide

theorem test_wf_accepts_rsv_nonzero : (Instr.reservedRsv 3 0x40 0 1).wf = true := by decide

/-! ## Decoding, word by word (R91, R92, R107, R108): RSV 6 bits, REG 16, DEV 7, OP 3 -/

theorem test_decode_probe :
    decode (.cmd 0b000000_0000000000000000_1000000_000) = .ok (.probe 0x40 0) := by decide
theorem test_decode_wr8 :
    decode (.cmd 0b000000_0000000001000000_0111100_001) = .ok (.wr8 0x3C 0x0040) := by decide
theorem test_decode_rd8 :
    decode (.cmd 0b000000_0000000000000010_1000000_010) = .ok (.rd8 0x40 0x0002) := by decide
theorem test_decode_reservedOp3 :
    decode (.cmd 0b000000_1111111111111111_1111111_011) = .ok (.reservedOp3 0x7F 0xFFFF) := by decide
theorem test_decode_reservedOp4 :
    decode (.cmd 0b000000_0000000000000000_0000001_100) = .ok (.reservedOp4 0x01 0) := by decide
theorem test_decode_wr16 :
    decode (.cmd 0b000000_0001001000110100_1010000_101) = .ok (.wr16 0x50 0x1234) := by decide
theorem test_decode_rd16 :
    decode (.cmd 0b000000_1000000000000001_1000001_110) = .ok (.rd16 0x41 0x8001) := by decide
theorem test_decode_reservedOp7 :
    decode (.cmd 0b000000_0000000000000000_0000000_111) = .ok (.reservedOp7 0 0) := by decide
theorem test_decode_reservedRsv :
    decode (.cmd 0b100001_0000000000000001_1000000_001) = .ok (.reservedRsv 1 0x40 1 0x21) := by decide
theorem test_decode_start : decode (.prim 0b0000 0) = .ok .start := by decide
theorem test_decode_stop : decode (.prim 0b0001 0) = .ok .stop := by decide
theorem test_decode_wbit : decode (.prim 0b0010 1) = .ok (.wbit true) := by decide
theorem test_decode_rbit : decode (.prim 0b0011 0) = .ok .rbit := by decide
theorem test_decode_wbyte : decode (.prim 0b0100 0x80) = .ok (.wbyte 0x80) := by decide
theorem test_decode_rbyte : decode (.prim 0b0101 0) = .ok .rbyte := by decide
theorem test_decode_wack : decode (.prim 0b0110 0) = .ok .wack := by decide
theorem test_decode_mack : decode (.prim 0b0111 0) = .ok .mack := by decide
theorem test_decode_mnack : decode (.prim 0b1000 0) = .ok .mnack := by decide
theorem test_decode_turn : decode (.prim 0b1001 0) = .ok .turn := by decide
theorem test_decode_sdaLo : decode (.uop 0b000) = .ok .sdaLo := by decide
theorem test_decode_sdaHi : decode (.uop 0b001) = .ok .sdaHi := by decide
theorem test_decode_sclLo : decode (.uop 0b010) = .ok .sclLo := by decide
theorem test_decode_sclHi : decode (.uop 0b011) = .ok .sclHi := by decide
theorem test_decode_dirOut : decode (.uop 0b100) = .ok .dirOut := by decide
theorem test_decode_dirIn : decode (.uop 0b101) = .ok .dirIn := by decide
theorem test_decode_wait : decode (.uop 0b110) = .ok .wait := by decide
theorem test_decode_sample : decode (.uop 0b111) = .ok .sample := by decide
theorem test_decode_unused_prim : decode (.prim 0b1010 0) = .error (.unusedPrim 10) := by decide

/-- Rows of the table, by their widths: 32, 4 and 3 bits; in whole bytes a primitive is 8. -/
theorem test_table_command : decodeTableWord 32 0x00048506 = some (.rd16 0x20 0x0121) := by decide
theorem test_table_prim : decodeTableWord 4 9 = some .turn ∧ decodeTableWord 8 9 = some .turn := by decide
theorem test_table_prim_operand : decodeTableWord 16 0xA504 = some (.wbyte 0xA5) := by decide
theorem test_table_uop : decodeTableWord 3 7 = some .sample := by decide
theorem test_table_unused : decodeTableWord 8 0x0A = none ∧ decodeTableWord 8 0x10 = none := by decide

/-! ## States -/

/-- The engine after reset and a bring-up: clock pin 0, data pin 1, N = 2, one payload byte. -/
def idle1 : State := { State.reset with sdaPin := 1, retryN := 2, nBytes := 1, txmem := [(0, 0xA5)] }

theorem idle1_ready : idle1.ready = true := by
  simp [idle1, State.reset, State.ready, State.cfgValid, State.pinsTaken, Config.npins]

/-- `idle1` with the answers of the environment. -/
def answering (l : List Bool) : State := { idle1 with answers := l }

theorem answering_ready (l : List Bool) : (answering l).ready = true := idle1_ready

/-- The engine in the middle of an `RD16` of one byte. -/
def busyAt (ph : Phase) (p : Prim) (u : BitVec 4) (scl sda : Bool) (d : Dir) : State :=
  { idle1 with
    busy := true, phase := ph, prim := p, ustep := u, sclOut := scl, sdaOut := sda, sdaDir := d
    cmd := 0x0048D286 }

/-- The invariant at a state, split so that the configuration's validity, which rests on `NPINS`, stands apart. -/
theorem inv_of_parts {s : State} (hc : s.cfgValid = true)
    (h : (!s.busy || s.busy && s.agenda.all Turn.lawful && Memory.wf s.txmem && Memory.wf s.rxmem
      && s.phase.runs.contains s.prim && decide (s.ustep.toNat < (primSeq s.prim false).length)
      && s.phase.usedBy s.kind s.w16 && s.sclOut == sclBefore (decide (s.phase = .start1)) s.prim s.ustep.toNat
      && decide (s.sdaDir = dirBefore s.prim s.ustep.toNat)
      && (match sdaBefore s s.prim s.ustep.toNat with
          | some v => s.sdaOut == v
          | none => true)
      && countersOk s s.prim s.ustep.toNat && payloadOk s && !s.pinsTaken && !cmdReserved s.cmd && !s.done && !s.cmderr && !s.cfgerr
      && !s.ackfail) = true) (hb : s.busy = true) : s.Inv = true := by
  simp only [hb, Bool.not_true, Bool.false_or, Bool.true_and, Bool.and_eq_true] at h
  simp only [State.Inv, State.running, hb, hc, if_true, Bool.and_eq_true, Bool.or_eq_true]
  tauto

theorem busyAt_cfgValid (ph : Phase) (p : Prim) (u : BitVec 4) (scl sda : Bool) (d : Dir) :
    (busyAt ph p u scl sda d).cfgValid = true := by
  simp [busyAt, idle1, State.reset, State.cfgValid, Config.npins]

/-- A predicate of the next state, false at a fault and at a refusal. -/
def after (o : Out) (p : State → Bool) : Bool :=
  match o with
  | .next t => p t
  | .fault _ => false
  | .refused _ => false

theorem exists_of_after {o : Out} {p : State → Bool} (h : after o p = true) : ∃ t, o = .next t ∧ p t = true := by
  unfold after at h
  split at h
  · exact ⟨_, rfl, h⟩
  · cases h
  · cases h

/-! ## Instructions, one step each -/

theorem test_sdaLo : after (exec .sdaLo idle1) (fun t => t.sdaOut == false && t.pullsLow 1 && t.trace == [.d0]) := by decide
theorem test_sdaHi :
    after (exec .sdaHi { idle1 with sdaOut := false }) (fun t => t.sdaOut && !t.pullsLow 1 && t.trace == [.d1]) := by decide
theorem test_sclLo : after (exec .sclLo idle1) (fun t => t.sclOut == false && t.pullsLow 0 && t.trace == [.c0]) := by decide
theorem test_sclHi :
    after (exec .sclHi { idle1 with sclOut := false }) (fun t => t.sclOut && !t.pullsLow 0 && t.trace == [.c1]) := by decide
theorem test_dirOut :
    after (exec .dirOut { idle1 with sdaDir := .inp, sdaOut := false }) (fun t => t.sdaEff == false) := by decide
theorem test_dirIn : after (exec .dirIn { idle1 with sdaOut := false }) (fun t => t.sdaEff) := by decide
theorem test_wait :
    after (exec .wait { idle1 with delay := 3 }) (fun t => t.dlycnt == 0 && t.trace == [.w]) := by decide
theorem test_sample :
    after (exec .sample { answering [false, true] with sdaDir := .inp })
      (fun t => t.bit == false && t.answers == [true] && t.trace == [.s0]) := by decide

/-- E, R141: the trace of a `START`. -/
theorem test_start :
    after (exec .start idle1) (fun t => t.trace == [.d1, .c1, .w, .d0, .w, .c0] && t.pullsLow 0 && t.pullsLow 1) := by decide
theorem test_stop :
    after (exec .stop { idle1 with sclOut := false }) (fun t => t.trace == [.d0, .w, .c1, .w, .d1] && t.pinsIdle) := by
  decide
theorem test_wbit :
    after (exec (.wbit true) { idle1 with sclOut := false }) (fun t => t.trace == [.d1, .w, .c1, .w, .c0]) := by decide
theorem test_rbit :
    after (exec .rbit { answering [false] with sdaDir := .inp, sclOut := false })
      (fun t => t.trace == [.w, .c1, .w, .s0, .c0] && t.bit == false) := by decide
/-- The example of R145: one high bit, then seven low. -/
theorem test_wbyte :
    after (exec (.wbyte 0x80) { idle1 with sclOut := false })
      (fun t => t.trace.take 6 == [.d1, .w, .c1, .w, .c0, .d0] && t.trace.count .d0 == 7 && t.bitcnt == 8) := by
  decide +kernel
/-- The example of R146: 0,1,1,0,0,1,0,0 is 0x64. -/
theorem test_rbyte :
    after (exec .rbyte { answering [false, true, true, false, false, true, false, false] with sclOut := false })
      (fun t => t.shreg == 0x64 && t.trace.length == 43 && t.sdaDir == .out) := by decide +kernel
theorem test_wack_first :
    after (exec .wack { answering [false] with sclOut := false })
      (fun t => t.ackbit && t.trace == [.d1, .i, .w, .c1, .w, .s0, .c0, .o]) := by decide +kernel
/-- The second trace of R147: N = 3, no acknowledge. -/
theorem test_wack_gives_up :
    after (exec .wack { answering [true, true, true] with retryN := 3, sclOut := false })
      (fun t => t.ackbit == false &&
        t.trace == [.d1, .i, .w, .c1, .w, .s1, .w, .s1, .w, .s1, .c0, .o]) := by decide +kernel
theorem test_mack :
    after (exec .mack { idle1 with sclOut := false }) (fun t => t.trace == [.d0, .w, .c1, .w, .c0]) := by decide
theorem test_mnack :
    after (exec .mnack { idle1 with sclOut := false }) (fun t => t.trace == [.d1, .w, .c1, .w, .c0]) := by decide
theorem test_turn : after (exec .turn idle1) (fun t => t.trace == [.w]) := by decide

/-- R171: `PROBE 0x40` acknowledged, 59 micro-operations, `STATUS = DONE`. -/
theorem test_probe_present :
    after (exec (.probe 0x40 0) (answering [false])) (fun t => t.trace.length == 59 && t.statusWord == 0x2) := by
  rw [exec_probe_of_ready (answering_ready _)]; decide +kernel
/-- Nobody answers: N samples, `ACKFAIL` and `DONE`. -/
theorem test_probe_absent :
    after (exec (.probe 0x40 0) (answering [true, true])) (fun t => t.trace.count .s1 == 2 && t.statusWord == 0x6) := by
  rw [exec_probe_of_ready (answering_ready _)]; decide +kernel
/-- R182: 107 + 48 micro-operations. -/
theorem test_wr8_one_byte :
    after (exec (.wr8 0x40 0) (answering [false, false, false])) (fun t => t.trace.length == 155 && t.statusWord == 0x2) := by
  rw [exec_wr8_of_ready (answering_ready _)]; decide +kernel
/-- The payload slot is not acknowledged. -/
theorem test_wr8_aborts :
    after (exec (.wr8 0x40 0) (answering [false, false, true, true])) (fun t => t.pinsIdle && t.statusWord == 0x6) := by
  rw [exec_wr8_of_ready (answering_ready _)]; decide +kernel
/-- R182: 155 + 48 micro-operations. -/
theorem test_wr16_one_byte :
    after (exec (.wr16 0x50 0x1234) (answering [false, false, false, false]))
      (fun t => t.trace.length == 203 && t.statusWord == 0x2) := by
  rw [exec_wr16_of_ready (answering_ready _)]; decide +kernel
/-- R174 with n = 1: the byte read is 0x64, `RXCOUNT = 1`, 162 + 48 micro-operations. -/
theorem test_rd8_one_byte :
    after (exec (.rd8 0x40 1) (answering [false, false, false, false, true, true, false, false, true, false, false]))
      (fun t => t.rxmem == [(0, 0x64)] && t.rxCount == 1 && t.trace.length == 210) := by
  rw [exec_rd8_of_ready (answering_ready _)]; decide +kernel
/-- The address+read slot is not acknowledged: nothing stored. -/
theorem test_rd8_aborts :
    after (exec (.rd8 0x40 1) (answering [false, false, true, true]))
      (fun t => t.rxmem == [] && t.rxCount == 0 && t.statusWord == 0x6) := by
  rw [exec_rd8_of_ready (answering_ready _)]; decide +kernel
/-- R182: 210 micro-operations for n = 0. -/
theorem test_rd16_no_byte :
    after (exec (.rd16 0x50 0x1234) { answering [false, false, false, false] with nBytes := 0 })
      (fun t => t.rxCount == 0 && t.trace.length == 210) := by
  rw [exec_rd16_of_ready (s := { answering [false, false, false, false] with nBytes := 0 }) idle1_ready]; decide +kernel
theorem test_reservedOp3 :
    after (exec (.reservedOp3 0 0) idle1) (fun t => t.cmd == 3 && t.statusWord == 0xA && t.trace == []) := by decide
theorem test_reservedOp4 :
    after (exec (.reservedOp4 1 0) idle1) (fun t => t.cmd == 0xC && t.statusWord == 0xA && t.pinsIdle) := by decide
theorem test_reservedOp7 :
    after (exec (.reservedOp7 0 0) State.reset) (fun t => t.cmd == 7 && t.statusWord == 0xA) := by decide
theorem test_reservedRsv :
    after (exec (.reservedRsv 0 0x40 0 1) idle1) (fun t => t.cmd == 0x04000200 && t.statusWord == 0xA) := by decide
/-- R31: an unconfigured engine refuses. -/
theorem test_unconfigured : after (exec (.probe 0x40 0) State.reset) (fun t => t.statusWord == 0x12) := by decide

/-! ## The step -/

/-- The instruction of a row runs in the very next step after reset. -/
theorem test_fetch_prim : after (step (State.reset.withFetchWord 4 0)) (fun t => t.trace == startToks) := by decide
theorem test_fetch_uop : after (step (State.reset.withFetchWord 3 2)) (fun t => t.trace == [.c0]) := by decide
theorem test_fetch_command : after (step (State.reset.withFetchWord 32 0x00000003)) (fun t => t.cmderr) := by decide

/-- With nothing placed, reset idles. -/
theorem test_reset_idles : step State.reset = .next State.reset := by simp [step, State.reset, engineTurn]

/-- `PINS_DRIVEN_BY_OTHERS`. -/
theorem test_pull_while_busy :
    pullLine 1 (busyAt .start1 .start 0 true true .out) = .fault .pinsDrivenByOthers := by
  simp [pullLine, busyAt, idle1, State.reset, State.pinsTaken]

/-- `PINS_DRIVEN_BY_OTHERS` at the launch that would make `BUSY` 1; a refused launch takes no line. -/
theorem test_launch_on_pulled_line :
    hostWrite 3 0x00000200 { idle1 with extPull := [1] } = .fault .pinsDrivenByOthers := by
  have h : ({ idle1 with extPull := [1] } : State).cfgValid = true := by
    simp [idle1, State.reset, State.cfgValid, Config.npins]
  rw [hostWrite, launch, h]; rfl
theorem test_refused_launch_on_pulled_line :
    after (hostWrite 3 0x00000003 { idle1 with extPull := [1] }) (fun t => t.cmderr) := by decide

/-- R13: `WBIT 0` under a low clock moves the data line and the clock; what the latch does in input mode, and a token
that changes nothing, does not show. -/
theorem test_pinChanges_wbit :
    pinChanges ⟨false, true, .out⟩ (bitToks false) = [(false, false), (true, false), (false, false)] := by decide
theorem test_pinChanges_input_mode :
    pinChanges ⟨false, true, .inp⟩ [.d0, .w, .d0, .o] = [(false, false)] := by decide

/-- R252: the slave, in the middle of sending a 0 bit, is re-initialised together with the engine. -/
theorem test_bench_reset :
    (benchReset { engine := busyAt .rdata .rbyte 5 true true .inp
                  slave := { echoInit [0x40] 1 none [(1, [0x64])] with mode := .send, sda := false, store := [] } }).slave
      = echoInit [0x40] 1 none [(1, [0x64])] := by decide

/-- The echo slave acknowledges its own address: a start, then eight bits 0x80. -/
theorem test_echo_takes_start :
    (echoObserve true false (echoInit [0x40] 1 none [])).mode = .recv := by decide

/-! ## Witnesses: for each obligation with hypotheses, a state and operands that meet them, clause by clause -/

theorem witness_DecodeEncodeAgree : (Instr.reservedRsv 7 0x7F 0xFFFF 0x3F).wf = true := by decide
theorem witness_WorkedCommandWordsDecode : State.reset.busy = false := by decide
theorem witness_UnusedPrimitiveNumbersAreRefused_lowest : 10 ≤ (10 : BitVec 4).toNat := by decide
theorem witness_UnusedPrimitiveNumbersAreRefused_highest : 10 ≤ (15 : BitVec 4).toNat := by decide
theorem witness_UnusedPrimitiveNumbersAreRefused_turn :
    ({ idle1 with agenda := [.issue (.prim 15 0)] } : State).agenda = .issue (.prim 15 0) :: [] := rfl
theorem witness_StepRunsIssuedInstruction :
    (State.reset.withFetchWord 4 0).agenda = .issue (.prim 0 0) :: [] ∧ decode (.prim 0 0) = .ok .start := by decide
theorem witness_StepRunsIssuedInstruction_host :
    ({ idle1 with agenda := [.host (.read 7)] } : State).agenda = .host (.read 7) :: [] ∧
    ({ idle1 with agenda := [.host (.write 3 0x200)] } : State).agenda = .host (.write 3 0x200) :: [] ∧
    ({ idle1 with agenda := [.host (.txWrite 65535 1)] } : State).agenda = .host (.txWrite 65535 1) :: [] ∧
    ({ idle1 with agenda := [.host (.rxRead 0)] } : State).agenda = .host (.rxRead 0) :: [] := by decide
theorem witness_StepRunsIssuedInstruction_others :
    ({ idle1 with agenda := [.rst] } : State).agenda = .rst :: [] ∧
    ({ idle1 with agenda := [.pull 1, .release 1] } : State).agenda = .pull 1 :: [.release 1] ∧
    ({ idle1 with agenda := [.release 1] } : State).agenda = .release 1 :: [] := by decide
theorem witness_EngineTurnIssuesNamedMicroOperation :
    (busyAt .start1 .start 0 true true .out).busy = true ∧ (busyAt .start1 .start 0 true true .out).pinsTaken = false ∧
    (busyAt .start1 .start 0 true true .out).uopAt = some .sdaHi ∧
    (busyAt .start1 .start 0 true true .out).agenda = [] := by decide
theorem witness_EngineTurnIssuesNamedMicroOperation_engine_first :
    ({ busyAt .stopp .stop 4 true false .out with agenda := [.engine, .rst] } : State).agenda = .engine :: [.rst] := rfl
theorem witness_IdleEngineDoesNothing : State.reset.busy = false ∧ State.reset.agenda = [] := by decide
theorem witness_LatchMicroOperations_driven : idle1.sdaDir = .out := by decide
theorem witness_LatchMicroOperations_input : ({ idle1 with sdaDir := .inp } : State).sdaDir = .inp := by decide
theorem witness_DirectionMicroOperations : idle1.sdaOut = true := by decide
theorem witness_SampleReadsDataLine : (busyAt .ackAddrw .wack 5 true true .inp).sdaDir = .inp := by decide
theorem witness_StartSequence_first : idle1.sdaDir = .out ∧ idle1.sdaOut = true ∧ idle1.sclOut = true := by decide
theorem witness_StartSequence_repeated :
    (busyAt .start2 .start 0 false true .out).sdaDir = .out ∧ (busyAt .start2 .start 0 false true .out).sdaOut = true := by
  decide
theorem witness_StopSequence :
    (busyAt .stopp .stop 0 false true .out).sdaDir = .out ∧ (busyAt .stopp .stop 0 false true .out).sclOut = false := by
  decide
theorem witness_BitReader : (busyAt .rdata .rbyte 2 false true .inp).sdaDir = .inp := by decide

/-- The first sample, and the last the bound allows. -/
theorem witness_WackStopsAtFirstZero_first :
    1 ≤ 1 ∧ 1 ≤ (answering [false]).retryN.toNat ∧ (∀ i < 1 - 1, (answering [false]).envAt i = true) ∧
    (answering [false]).envAt (1 - 1) = false := by decide
theorem witness_WackStopsAtFirstZero_last :
    1 ≤ 2 ∧ 2 = (answering [true, false]).retryN.toNat ∧ (∀ i < 2 - 1, (answering [true, false]).envAt i = true) ∧
    (answering [true, false]).envAt (2 - 1) = false := by decide
theorem witness_WackGivesUpAfterBound :
    1 ≤ (answering [true, true]).retryN.toNat ∧
    ∀ i < (answering [true, true]).retryN.toNat, (answering [true, true]).envAt i = true := by decide
/-- N = 1. -/
theorem witness_WackGivesUpAfterBound_one :
    1 = ({ answering [true] with retryN := 1 } : State).retryN.toNat ∧
    ∀ i < ({ answering [true] with retryN := 1 } : State).retryN.toNat,
      State.envAt { answering [true] with retryN := 1 } i = true := by decide

theorem witness_LaunchDecidesInOrder_busy : (busyAt .start1 .start 0 true true .out).busy = true := by decide
theorem witness_LaunchDecidesInOrder_reserved : idle1.busy = false ∧ cmdReserved 0x04000200 = true := by decide
theorem reset_not_cfgValid : State.reset.cfgValid = false := by simp [State.cfgValid, State.reset]
theorem witness_LaunchDecidesInOrder_unconfigured :
    State.reset.busy = false ∧ cmdReserved 0x00000200 = false ∧ State.reset.cfgValid = false :=
  ⟨by decide, by decide, reset_not_cfgValid⟩
theorem idle1_cfgValid : idle1.cfgValid = true := by simp [idle1, State.reset, State.cfgValid, Config.npins]
theorem witness_LaunchDecidesInOrder_accepted :
    idle1.busy = false ∧ cmdReserved 0x0048D286 = false ∧ idle1.cfgValid = true ∧ idle1.pinsTaken = false :=
  ⟨by decide, by decide, idle1_cfgValid, by decide⟩
theorem witness_LaunchDecidesInOrder_next : ∃ t, hostWrite 3 3 idle1 = .next t :=
  (exists_of_after (p := fun _ => true) (by decide)).imp fun _ h => h.1
theorem witness_ReservedWordsAreRefused : idle1.busy = false ∧ (0x20 : BitVec 6) ≠ 0 := by decide
theorem witness_InvalidConfigurationIsRefused :
    (Instr.rd16 0x50 0x1234).isCommand = true ∧ State.reset.busy = false ∧ State.reset.cfgValid = false :=
  ⟨by decide, by decide, reset_not_cfgValid⟩
theorem witness_ReentrantLaunchFaults :
    (Instr.reservedOp7 0 0).isCommandWord = true ∧ (Instr.probe 0x40 0).isCommandWord = true ∧
    (busyAt .start1 .start 0 true true .out).busy = true := by decide
theorem witness_LinesDrivenByOthersFault_command :
    (Instr.probe 0x40 0).isCommand = true ∧ ({ idle1 with extPull := [1] } : State).busy = false ∧
    ({ idle1 with extPull := [1] } : State).cfgValid = true ∧ ({ idle1 with extPull := [1] } : State).pinsTaken = true :=
  ⟨by decide, by decide, idle1_cfgValid, by decide⟩
theorem witness_LinesDrivenByOthersFault_launch :
    ({ idle1 with extPull := [0] } : State).busy = false ∧ cmdReserved 0x00000200 = false ∧
    ({ idle1 with extPull := [0] } : State).cfgValid = true ∧ ({ idle1 with extPull := [0] } : State).pinsTaken = true :=
  ⟨by decide, by decide, idle1_cfgValid, by decide⟩
theorem witness_LinesDrivenByOthersFault_no_fault :
    idle1.busy = false ∧ 2 ≠ (busyAt .stopp .stop 0 false true .out).sclPin.toNat ∧
    2 ≠ (busyAt .stopp .stop 0 false true .out).sdaPin.toNat ∧
    (busyAt .stopp .stop 0 false true .out).pinsTaken = false := by decide
theorem witness_LinesDrivenByOthersFault_engine :
    ({ busyAt .stopp .stop 0 false true .out with extPull := [0] } : State).busy = true ∧
    ({ busyAt .stopp .stop 0 false true .out with extPull := [0] } : State).pinsTaken = true := by decide
theorem witness_LinesDrivenByOthersFault_pull :
    (busyAt .stopp .stop 0 false true .out).busy = true ∧ 0 = (busyAt .stopp .stop 0 false true .out).sclPin.toNat ∧
    1 = (busyAt .stopp .stop 0 false true .out).sdaPin.toNat := by decide

theorem witness_ProbeAnswersPresence_present :
    (answering [false]).ready = true ∧ 1 ≤ (answering [false]).retryN.toNat ∧
    (∀ i < 1 - 1, (answering [false]).envAt i = true) ∧ (answering [false]).envAt (1 - 1) = false :=
  ⟨answering_ready _, by decide, by decide, by decide⟩
theorem witness_ProbeAnswersPresence_present_late :
    (answering [true, false]).ready = true ∧ 2 ≤ (answering [true, false]).retryN.toNat ∧
    (∀ i < 2 - 1, (answering [true, false]).envAt i = true) ∧ (answering [true, false]).envAt (2 - 1) = false :=
  ⟨answering_ready _, by decide, by decide, by decide⟩
theorem witness_ProbeAnswersPresence_absent :
    (answering [true, true]).ready = true ∧
    ∀ i < (answering [true, true]).retryN.toNat, (answering [true, true]).envAt i = true :=
  ⟨answering_ready _, by decide⟩

theorem idle1_holds : idle1.holds [0xA5] := by
  intro i h
  obtain rfl : i = 0 := by simpa using h
  rfl
theorem witness_WriteDeliversPayload_wr8 :
    (answering [false, true, false, false]).ready = true ∧ [(0xA5 : Byte)].length = (answering []).nBytes.toNat ∧
    (answering [false, true, false, false]).holds [0xA5] ∧ (answering [false, true, false, false]).pollsOk [1, 2, 1] ∧
    (answering [false, true, false, false]).willAnswer (ackAnswers [1, 2, 1]) ∧
    [1, 2, 1].length = 2 + [(0xA5 : Byte)].length :=
  ⟨answering_ready _, by decide, idle1_holds, by unfold State.pollsOk; decide, by unfold State.willAnswer; decide, by decide⟩
theorem witness_WriteDeliversPayload_wr16 :
    (answering [false, false, false, false]).ready = true ∧ (answering []).holds [0xA5] ∧
    (answering [false, false, false, false]).pollsOk [1, 1, 1, 1] ∧
    (answering [false, false, false, false]).willAnswer (ackAnswers [1, 1, 1, 1]) ∧
    [1, 1, 1, 1].length = 3 + [(0xA5 : Byte)].length :=
  ⟨answering_ready _, idle1_holds, by unfold State.pollsOk; decide, by unfold State.willAnswer; decide, by decide⟩
/-- No payload. -/
theorem witness_WriteDeliversPayload_empty :
    State.ready { answering [false, false] with nBytes := 0 } = true ∧
    ([] : List Byte).length = ({ answering [false, false] with nBytes := 0 } : State).nBytes.toNat ∧
    State.holds { answering [false, false] with nBytes := 0 } [] ∧
    State.pollsOk { answering [false, false] with nBytes := 0 } [1, 1] ∧
    State.willAnswer { answering [false, false] with nBytes := 0 } (ackAnswers [1, 1]) :=
  ⟨idle1_ready, by decide, by simp [State.holds], by unfold State.pollsOk; decide, by unfold State.willAnswer; decide⟩

/-- The address slot, the last register slot, and the last payload slot of a `WR8`. -/
theorem witness_WriteAbortsAtFailedSlot_address :
    (answering [true, true]).ready = true ∧ ([] : List Byte).length ≤ (answering []).nBytes.toNat ∧
    (answering [true, true]).holds [] ∧ (answering [true, true]).pollsOk [] ∧
    (answering [true, true]).willAnswer (ackAnswers [] ++ List.replicate (answering [true, true]).retryN.toNat true) ∧
    (adb 0x40 false :: regLo 0 :: [])[([] : List Nat).length]? = some (adb 0x40 false) :=
  ⟨answering_ready _, by decide, by simp [State.holds], by simp [State.pollsOk], by unfold State.willAnswer; decide, rfl⟩
theorem witness_WriteAbortsAtFailedSlot_wr16_register :
    (answering [false, false, true, true]).pollsOk [1, 1] ∧
    (answering [false, false, true, true]).willAnswer
      (ackAnswers [1, 1] ++ List.replicate (answering []).retryN.toNat true) ∧
    (adb 0x40 false :: regHi 0x1234 :: regLo 0x1234 :: [])[[1, 1].length]? = some 0x34 :=
  ⟨by unfold State.pollsOk; decide, by unfold State.willAnswer; decide, by decide⟩
theorem witness_WriteAbortsAtFailedSlot_payload :
    (answering [false, false, true, true]).ready = true ∧ [(0xA5 : Byte)].length ≤ (answering []).nBytes.toNat ∧
    (answering [false, false, true, true]).holds [0xA5] ∧ (answering [false, false, true, true]).pollsOk [1, 1] ∧
    (answering [false, false, true, true]).willAnswer
      (ackAnswers [1, 1] ++ List.replicate (answering []).retryN.toNat true) ∧
    (adb 0x40 false :: regLo 0 :: [0xA5])[[1, 1].length]? = some 0xA5 :=
  ⟨answering_ready _, by decide, idle1_holds, by unfold State.pollsOk; decide, by unfold State.willAnswer; decide, rfl⟩

theorem witness_WriteOfUnwrittenByteFaults_wr8 :
    State.ready { answering [false, false] with txmem := [] } = true ∧
    ([] : List Byte).length < ({ answering [false, false] with txmem := [] } : State).nBytes.toNat ∧
    State.holds { answering [false, false] with txmem := [] } [] ∧ Memory.read [] ([] : List Byte).length = none ∧
    State.pollsOk { answering [false, false] with txmem := [] } [1, 1] ∧
    State.willAnswer { answering [false, false] with txmem := [] } (ackAnswers [1, 1]) ∧
    [1, 1].length = 2 + ([] : List Byte).length :=
  ⟨idle1_ready, by decide, by simp [State.holds], rfl, by unfold State.pollsOk; decide, by unfold State.willAnswer; decide,
    by decide⟩
theorem witness_WriteOfUnwrittenByteFaults_wr16 :
    State.pollsOk { answering [false, false, false] with txmem := [] } [1, 1, 1] ∧
    State.willAnswer { answering [false, false, false] with txmem := [] } (ackAnswers [1, 1, 1]) ∧
    [1, 1, 1].length = 3 + ([] : List Byte).length :=
  ⟨by unfold State.pollsOk; decide, by unfold State.willAnswer; decide, by decide⟩

/-- The eight answers of a byte 0x64. -/
def bits64 : List Bool := [false, true, true, false, false, true, false, false]

theorem witness_ReadFillsReceiveBuffer_rd8 :
    (answering ([false, false, false] ++ bits64)).ready = true ∧ [bits64].length = (answering []).nBytes.toNat ∧
    (∀ bs ∈ [bits64], bs.length = 8) ∧ (answering ([false, false, false] ++ bits64)).pollsOk ([1, 1] ++ [1]) ∧
    (answering ([false, false, false] ++ bits64)).willAnswer (ackAnswers ([1, 1] ++ [1]) ++ [bits64].flatten) ∧
    [1, 1].length = 2 :=
  ⟨answering_ready _, by decide, by decide, by unfold State.pollsOk; decide, by unfold State.willAnswer; decide, by decide⟩
theorem witness_ReadFillsReceiveBuffer_rd16_empty :
    State.ready { answering [false, false, false, false] with nBytes := 0 } = true ∧
    ([] : List (List Bool)).length = ({ answering [] with nBytes := 0 } : State).nBytes.toNat ∧
    State.pollsOk { answering [false, false, false, false] with nBytes := 0 } ([1, 1, 1] ++ [1]) ∧
    State.willAnswer { answering [false, false, false, false] with nBytes := 0 }
      (ackAnswers ([1, 1, 1] ++ [1]) ++ ([] : List (List Bool)).flatten) ∧ [1, 1, 1].length = 3 :=
  ⟨idle1_ready, by decide, by unfold State.pollsOk; decide, by unfold State.willAnswer; decide, by decide⟩

theorem witness_ReadAbortsInAddressing_register :
    (answering [false, true, true]).ready = true ∧ (answering [false, true, true]).pollsOk [1] ∧
    (answering [false, true, true]).willAnswer (ackAnswers [1] ++ List.replicate (answering []).retryN.toNat true) ∧
    [adb 0x40 false, regLo 1][[1].length]? = some 1 ∧ [adb 0x40 false, regHi 1, regLo 1][[1].length]? = some 0 :=
  ⟨answering_ready _, by unfold State.pollsOk; decide, by unfold State.willAnswer; decide, by decide, by decide⟩
theorem witness_ReadAbortsInAddressing_rd8_direction :
    (answering [false, false, true, true]).pollsOk [1, 1] ∧
    (answering [false, false, true, true]).willAnswer
      (ackAnswers [1, 1] ++ List.replicate (answering []).retryN.toNat true) ∧ [1, 1].length = 2 :=
  ⟨by unfold State.pollsOk; decide, by unfold State.willAnswer; decide, by decide⟩
theorem witness_ReadAbortsInAddressing_rd16_direction :
    (answering [false, false, false, true, true]).pollsOk [1, 1, 1] ∧
    (answering [false, false, false, true, true]).willAnswer
      (ackAnswers [1, 1, 1] ++ List.replicate (answering []).retryN.toNat true) ∧ [1, 1, 1].length = 3 :=
  ⟨by unfold State.pollsOk; decide, by unfold State.willAnswer; decide, by decide⟩

theorem idle1_written : ∀ i < idle1.nBytes.toNat, Memory.read idle1.txmem i ≠ none := by decide
theorem witness_CommandsEndInEveryEnvironment :
    idle1.ready = true ∧ ∀ i < idle1.nBytes.toNat, Memory.read idle1.txmem i ≠ none := ⟨idle1_ready, idle1_written⟩

/-- Commands that answer a next state: a read that succeeds, a probe that fails, a refused word. -/
theorem read_succeeds :
    ∃ t, exec (.rd8 0x40 1) (answering ([false, false, false] ++ bits64)) = .next t ∧ t.ackfail = false ∧
      t.cfgerr = false := by
  obtain ⟨t, h, ht⟩ := exists_of_after (p := fun t => !t.ackfail && !t.cfgerr)
    (o := exec (.rd8 0x40 1) (answering ([false, false, false] ++ bits64)))
    (by rw [exec_rd8_of_ready (answering_ready _)]; decide +kernel)
  exact ⟨t, h, by simpa using ht⟩
theorem read_fails :
    ∃ t, exec (.rd8 0x40 1) (answering [true, true]) = .next t ∧ t.ackfail = true := by
  obtain ⟨t, h, ht⟩ := exists_of_after (p := fun t => t.ackfail) (o := exec (.rd8 0x40 1) (answering [true, true]))
    (by rw [exec_rd8_of_ready (answering_ready _)]; decide +kernel)
  exact ⟨t, h, by simpa using ht⟩
theorem probe_runs : ∃ t, exec (.probe 0x40 0) (answering [false]) = .next t := by
  obtain ⟨t, h, -⟩ := exists_of_after (p := fun _ => true) (o := exec (.probe 0x40 0) (answering [false]))
    (by rw [exec_probe_of_ready (answering_ready _)]; decide +kernel)
  exact ⟨t, h⟩
theorem refused_runs : ∃ t, exec (.reservedOp3 0 0) idle1 = .next t ∧ t.cmderr = true := by
  obtain ⟨t, h, ht⟩ := exists_of_after (p := fun t => t.cmderr) (o := exec (.reservedOp3 0 0) idle1) (by decide)
  exact ⟨t, h, by simpa using ht⟩
theorem unconfigured_runs : ∃ t, exec (.rd8 0x40 0) State.reset = .next t ∧ t.cfgerr = true := by
  obtain ⟨t, h, ht⟩ := exists_of_after (p := fun t => t.cfgerr) (o := exec (.rd8 0x40 0) State.reset) (by decide)
  exact ⟨t, h, by simpa using ht⟩

theorem witness_CommandFrame_read :
    (Instr.rd8 0x40 1).isCommandWord = true ∧ (Instr.rd8 0x40 1).wf = true ∧ (Instr.rd8 0x40 1).isRead = true ∧
    ∃ t, exec (.rd8 0x40 1) (answering ([false, false, false] ++ bits64)) = .next t ∧ t.ackfail = false ∧
      t.cfgerr = false := ⟨by decide, by decide, by decide, read_succeeds⟩
theorem witness_CommandFrame_refused :
    (Instr.reservedOp3 0 0).isCommandWord = true ∧ (Instr.reservedOp3 0 0).wf = true ∧
    (Instr.reservedOp3 0 0).isRead = false ∧ ∃ t, exec (.reservedOp3 0 0) idle1 = .next t ∧ t.cmderr = true :=
  ⟨by decide, by decide, by decide, refused_runs⟩
theorem witness_CommandFrame_failed :
    ∃ t, exec (.rd8 0x40 1) (answering [true, true]) = .next t ∧ t.ackfail = true := read_fails
theorem witness_CommandFrame_unconfigured :
    ∃ t, exec (.rd8 0x40 0) State.reset = .next t ∧ t.cfgerr = true := unconfigured_runs
theorem witness_IgnoredFieldsHaveNoEffect : regLo 0x0001 = regLo 0xFF01 := by decide
theorem witness_StaleDatapathIsNeverRead : (Instr.wr16 0x50 0).isCommand = true ∧ idle1.ready = true :=
  ⟨by decide, idle1_ready⟩

theorem idle_pins (l : List Bool) : (answering l).pinsIdle = true := rfl
theorem witness_OnlyStopIsTheLast_runs :
    (Instr.rd8 0x40 1).isCommand = true ∧ (answering ([false, false, false] ++ bits64)).ready = true ∧
    (answering ([false, false, false] ++ bits64)).pinsIdle = true ∧
    ∃ t, exec (.rd8 0x40 1) (answering ([false, false, false] ++ bits64)) = .next t ∧ t.ackfail = false :=
  ⟨by decide, answering_ready _, idle_pins _, read_succeeds.imp fun _ h => ⟨h.1, h.2.1⟩⟩
theorem witness_OnlyStopIsTheLast_refused :
    (Instr.reservedOp3 0 0).isCommandWord = true ∧ ∃ t, exec (.reservedOp3 0 0) idle1 = .next t ∧ t.cmderr = true :=
  ⟨by decide, refused_runs⟩
theorem witness_StartConditionsCounted_probe :
    (Instr.probe 0x40 0).isRead = false ∧ (answering [false]).ready = true ∧ (answering [false]).pinsIdle = true ∧
    ∃ t, exec (.probe 0x40 0) (answering [false]) = .next t :=
  ⟨by decide, answering_ready _, idle_pins _, probe_runs⟩
theorem witness_StartConditionsCounted_read :
    (Instr.rd8 0x40 1).isRead = true ∧
    ∃ t, exec (.rd8 0x40 1) (answering ([false, false, false] ++ bits64)) = .next t ∧ t.ackfail = false :=
  ⟨by decide, read_succeeds.imp fun _ h => ⟨h.1, h.2.1⟩⟩
theorem witness_StartConditionsCounted_failed_read :
    (Instr.rd8 0x40 1).isRead = true ∧ (answering [true, true]).ready = true ∧ (answering [true, true]).pinsIdle = true ∧
    ∃ t, exec (.rd8 0x40 1) (answering [true, true]) = .next t ∧ t.ackfail = true :=
  ⟨by decide, answering_ready _, idle_pins _, read_fails⟩
/-- The address+read slot fails: two start conditions, as the statement says with `ks = [1, 1]`. -/
theorem witness_StartConditionsCounted_failed_after_restart :
    ∃ t, exec (.rd8 0x40 1) (answering [false, false, true, true]) = .next t ∧ t.ackfail = true ∧
      countStarts (answering []).pins t.trace = 2 := by
  obtain ⟨t, h, ht⟩ := exists_of_after (p := fun t => t.ackfail && countStarts (answering []).pins t.trace == 2)
    (o := exec (.rd8 0x40 1) (answering [false, false, true, true]))
    (by rw [exec_rd8_of_ready (answering_ready _)]; decide +kernel)
  exact ⟨t, h, by simpa using ht⟩
theorem witness_EdgesAreSeparatedByWaits :
    (Instr.probe 0x40 0).isCommand = true ∧ (answering [false]).ready = true ∧ (answering [false]).pinsIdle = true ∧
    ∃ t, exec (.probe 0x40 0) (answering [false]) = .next t :=
  ⟨by decide, answering_ready _, idle_pins _, probe_runs⟩
theorem witness_SizesWithImmediateAcknowledge :
    (answering [false, false, false, false]).ready = true ∧ (answering []).nBytes.toNat = 1 ∧
    (∀ j < 3 + 1, (answering [false, false, false, false]).envAt j = false) ∧
    (∀ i < 1, Memory.read (answering [false, false, false, false]).txmem i ≠ none) :=
  ⟨answering_ready _, by decide, by decide, by decide⟩
theorem witness_CommandLengthIsBounded :
    (Instr.rd8 0x40 1).isCommand = true ∧ (answering [true, true]).ready = true ∧
    ∃ t, exec (.rd8 0x40 1) (answering [true, true]) = .next t :=
  ⟨by decide, answering_ready _, read_fails.imp fun _ h => h.1⟩

theorem witness_MicroStepsRefineWholeCommand :
    (Instr.rd8 0x40 1).isCommandWord = true ∧ (Instr.rd8 0x40 1).wf = true ∧
    (answering ([false, false, false] ++ bits64)).agenda = [] ∧
    ∃ t, exec (.rd8 0x40 1) (answering ([false, false, false] ++ bits64)) = .next t :=
  ⟨by decide, by decide, rfl, read_succeeds.imp fun _ h => h.1⟩
theorem witness_CompletionInLastMicroOperationOfStop :
    (busyAt .stopp .stop 4 true false .out).busy = true ∧ (busyAt .stopp .stop 4 true false .out).pinsTaken = false ∧
    (busyAt .stopp .stop 4 true false .out).phase = .stopp ∧ (busyAt .stopp .stop 4 true false .out).prim = .stop ∧
    (busyAt .stopp .stop 4 true false .out).ustep = 4 := by decide
theorem witness_FailedAcknowledgeEntersStop :
    (busyAt .ackAddrr .wack 8 false true .inp).busy = true ∧ (busyAt .ackAddrr .wack 8 false true .inp).pinsTaken = false ∧
    (busyAt .ackAddrr .wack 8 false true .inp).prim = .wack ∧ (busyAt .ackAddrr .wack 8 false true .inp).ustep = 8 ∧
    (busyAt .ackAddrr .wack 8 false true .inp).ackbit = false ∧
    (busyAt .ackAddrr .wack 8 false true .inp).phase = .ackAddrr := by decide

theorem start_turn : ∃ t, engineTurn (busyAt .start1 .start 3 true true .out) = .next t ∧
    (t.sclOut = true ∧ t.sdaEff = false) := by
  obtain ⟨t, h, ht⟩ := exists_of_after (p := fun t => t.sclOut && !t.sdaEff)
    (o := engineTurn (busyAt .start1 .start 3 true true .out)) (by decide +kernel)
  exact ⟨t, h, by simpa using ht⟩
theorem stop_turn : ∃ t, engineTurn (busyAt .stopp .stop 4 true false .out) = .next t ∧
    (t.sclOut = true ∧ t.sdaEff = true) := by
  obtain ⟨t, h, ht⟩ := exists_of_after (p := fun t => t.sclOut && t.sdaEff)
    (o := engineTurn (busyAt .stopp .stop 4 true false .out)) (by decide +kernel)
  exact ⟨t, h, by simpa using ht⟩
theorem start_inv : (busyAt .start1 .start 3 true true .out).Inv = true :=
  inv_of_parts (busyAt_cfgValid ..) (by decide +kernel) rfl
theorem stop_inv : (busyAt .stopp .stop 4 true false .out).Inv = true :=
  inv_of_parts (busyAt_cfgValid ..) (by decide +kernel) rfl
theorem sample_inv : (busyAt .ackAddrw .wack 5 true true .inp).Inv = true :=
  inv_of_parts (busyAt_cfgValid ..) (by decide +kernel) rfl

theorem witness_EngineTurnFrame : ∃ t, engineTurn (busyAt .start1 .start 3 true true .out) = .next t :=
  start_turn.imp fun _ h => h.1
theorem witness_EngineTurnFrame_not_reading : (busyAt .start1 .start 3 true true .out).phase ≠ .rdata := by decide
theorem witness_PhaseGraphIsFollowed_stays :
    (busyAt .start1 .start 3 true true .out).Inv = true ∧ (busyAt .start1 .start 3 true true .out).busy = true ∧
    ∃ t, engineTurn (busyAt .start1 .start 3 true true .out) = .next t :=
  ⟨start_inv, by decide, start_turn.imp fun _ h => h.1⟩
theorem witness_PhaseGraphIsFollowed_moves :
    (busyAt .stopp .stop 4 true false .out).Inv = true ∧ (busyAt .stopp .stop 4 true false .out).busy = true ∧
    ∃ t, engineTurn (busyAt .stopp .stop 4 true false .out) = .next t :=
  ⟨stop_inv, by decide, stop_turn.imp fun _ h => h.1⟩
/-- The last micro-operation of the `RBYTE` of the only byte: the byte is stored. -/
theorem witness_PhaseGraphIsFollowed_reads :
    (busyAt .rdata .rbyte 7 false true .inp).Inv = true ∧
    ∃ t, engineTurn (busyAt .rdata .rbyte 7 false true .inp) = .next t ∧ t.phase = .mackp := by
  refine ⟨inv_of_parts (busyAt_cfgValid ..) (by decide +kernel) rfl, ?_⟩
  obtain ⟨t, h, ht⟩ := exists_of_after (p := fun t => decide (t.phase = .mackp))
    (o := engineTurn (busyAt .rdata .rbyte 7 false true .inp)) (by decide +kernel)
  exact ⟨t, h, by simpa using ht⟩
theorem witness_PhaseGraphIsFollowed_enters_payload :
    ∃ t, engineTurn { busyAt .ackAddrr .wack 8 false true .inp with ackbit := true } = .next t ∧ t.phase = .rdata := by
  obtain ⟨t, h, ht⟩ := exists_of_after (p := fun t => decide (t.phase = .rdata))
    (o := engineTurn { busyAt .ackAddrr .wack 8 false true .inp with ackbit := true }) (by decide +kernel)
  exact ⟨t, h, by simpa using ht⟩
theorem witness_PhaseGraphIsFollowed_next_payload :
    ∃ t, engineTurn { busyAt .mackp .mack 4 true false .out with nBytes := 2 } = .next t ∧ t.phase = .rdata := by
  obtain ⟨t, h, ht⟩ := exists_of_after (p := fun t => decide (t.phase = .rdata))
    (o := engineTurn { busyAt .mackp .mack 4 true false .out with nBytes := 2 }) (by decide +kernel)
  exact ⟨t, h, by simpa using ht⟩
theorem witness_StepKeepsInvariant : State.reset.Inv = true ∧ ∃ t, step State.reset = .next t :=
  ⟨by decide, _, test_reset_idles⟩
theorem witness_StepKeepsInvariant_running :
    (busyAt .start1 .start 3 true true .out).Inv = true ∧ ∃ t, step (busyAt .start1 .start 3 true true .out) = .next t :=
  ⟨start_inv, start_turn.imp fun _ h => h.1⟩
theorem witness_RunningEngineIsNeverLost : (busyAt .ackAddrw .wack 5 true true .inp).Inv = true := sample_inv
theorem witness_DataMovesUnderHighClockOnlyInFraming_start :
    (busyAt .start1 .start 3 true true .out).Inv = true ∧ (busyAt .start1 .start 3 true true .out).busy = true ∧
    (busyAt .start1 .start 3 true true .out).sclOut = true ∧ (busyAt .start1 .start 3 true true .out).sdaEff = true ∧
    ∃ t, engineTurn (busyAt .start1 .start 3 true true .out) = .next t ∧ (t.sclOut = true ∧ t.sdaEff = false) :=
  ⟨start_inv, by decide, by decide, by decide, start_turn⟩
theorem witness_DataMovesUnderHighClockOnlyInFraming_stop :
    (busyAt .stopp .stop 4 true false .out).Inv = true ∧ (busyAt .stopp .stop 4 true false .out).busy = true ∧
    (busyAt .stopp .stop 4 true false .out).sclOut = true ∧ (busyAt .stopp .stop 4 true false .out).sdaEff = false ∧
    ∃ t, engineTurn (busyAt .stopp .stop 4 true false .out) = .next t ∧ (t.sclOut = true ∧ t.sdaEff = true) :=
  ⟨stop_inv, by decide, by decide, by decide, stop_turn⟩
theorem witness_SampleOnlyUnderHighClock :
    (busyAt .ackAddrw .wack 5 true true .inp).Inv = true ∧ (busyAt .ackAddrw .wack 5 true true .inp).busy = true ∧
    (busyAt .ackAddrw .wack 5 true true .inp).uopAt = some .sample := ⟨sample_inv, by decide, by decide⟩
theorem witness_EngineDrivesOnlyItsTwoLines :
    idle1.sclPin ≠ idle1.sdaPin ∧ 2 ≠ idle1.sdaPin.toNat ∧ 2 ≠ idle1.sclPin.toNat ∧
    ({ idle1 with sdaDir := .inp, sdaOut := false } : State).sdaDir = .inp := by decide
theorem witness_EngineDrivesOnlyItsTwoLines_equal_pins :
    State.reset.sclPin = State.reset.sdaPin ∧ State.reset.Inv = true := by decide
theorem witness_LineIsWiredAnd : idle1.sclPin ≠ idle1.sdaPin ∧ idle1.pinsTaken = false := by decide
theorem witness_HostReadReturnsRegister :
    idle1.busy = false ∧ (busyAt .start1 .start 3 true true .out).busy = true ∧ (6 : Nat) ≠ 5 ∧ 7 ≤ (7 : Nat) := by decide
theorem witness_HostWriteStoresNamedFields : idle1.busy = false ∧ idle1.pinsIdle = true ∧ (5 : Nat) ≤ 5 ∧ (4 : Nat) ≠ 3 := by
  decide
theorem witness_HostWriteStoresNamedFields_next : ∃ t, hostWrite 0 0xFFFFFFFF idle1 = .next t :=
  (exists_of_after (p := fun _ => true) (by decide)).imp fun _ h => h.1
theorem witness_BusyHostAccessFaults :
    (busyAt .start1 .start 3 true true .out).busy = true ∧ (7 : Nat) ≠ 5 ∧ (7 : Nat) ≠ 6 ∧ 5 ≤ (5 : Nat) := by decide
theorem witness_BufferPorts_write :
    idle1.busy = false ∧ (65534 : BitVec 16).toNat < 65535 ∧ (65535 : BitVec 16).toNat = 65535 := by decide
theorem witness_BufferPorts_read :
    (0 : BitVec 16) < ({ idle1 with rxCount := 1, rxmem := [(0, 0x64)] } : State).rxCount ∧
    Memory.read ({ idle1 with rxCount := 1, rxmem := [(0, 0x64)] } : State).rxmem (0 : BitVec 16).toNat = some 0x64 ∧
    ¬ (1 : BitVec 16) < ({ idle1 with rxCount := 1, rxmem := [(0, 0x64)] } : State).rxCount := by decide
theorem witness_ResetAbandonsCommand :
    ({ busyAt .start1 .start 3 true true .out with agenda := [.rst] } : State).agenda = .rst :: [] ∧
    cmdReserved 0x00000200 = false := by decide

end Sys2Proof.Tests
end

section
/-! PROOFS. Family 00_scope: every command that begins ends (O33). `UnderWay` is what holds of a command in progress
from its launch to its completion; each part of a command keeps it or ends the command, whatever the environment
answers. -/

namespace Sys2Proof.Machine

/-! ## A command in progress, and its end -/

/-- A command launched with the word `w` is in progress: `CMD` holds the word, neither refusal flag is set, and the
retry bound is legal (`10_state.md` R39, `43_host_interface.md` R203). -/
structure UnderWay (w : Word) (s : State) : Prop where
  cmd : s.cmd = w
  cmderr : s.cmderr = false
  cfgerr : s.cfgerr = false
  retryN : 1 ≤ s.retryN.toNat

/-- The outcome is the end of the command launched with the word `w`. -/
def EndsWith (w : Word) (o : Out) : Prop := ∃ t, o = .next t ∧ endedWith w t

/-- The payload of a write command has been written (`20_memory.md` R64). -/
def State.PayloadWritten (s : State) : Prop := ∀ i < s.nBytes.toNat, Memory.read s.txmem i ≠ none

theorem underWay_afterStart {s : State} (w : Word) (h : s.ready = true) : UnderWay w (afterStart w s) := by
  rw [afterStart_eq]
  exact ⟨rfl, rfl, rfl, retryN_pos_of_ready (s := s) h⟩

theorem UnderWay.of_went {w : Word} {s t : State} {tr : List Tok} {n : Nat} (h : UnderWay w s) (hw : Went s t tr n) :
    UnderWay w t :=
  ⟨hw.cmd.trans h.cmd, hw.cmderr.trans h.cmderr, hw.cfgerr.trans h.cfgerr, by rw [hw.retryN]; exact h.retryN⟩

/-! The updates that no `UnderWay` fact looks at. -/

theorem UnderWay.markAckFail {w : Word} {s : State} (h : UnderWay w s) : UnderWay w (markAckFail s) :=
  ⟨h.cmd, h.cmderr, h.cfgerr, h.retryN⟩

theorem UnderWay.clearBytecnt {w : Word} {s : State} (h : UnderWay w s) : UnderWay w (clearBytecnt s) :=
  ⟨h.cmd, h.cmderr, h.cfgerr, h.retryN⟩

theorem UnderWay.countByte {w : Word} {s : State} (h : UnderWay w s) : UnderWay w (countByte s) :=
  ⟨h.cmd, h.cmderr, h.cfgerr, h.retryN⟩

theorem State.PayloadWritten.of_went {s t : State} {tr : List Tok} {n : Nat} (h : s.PayloadWritten)
    (hw : Went s t tr n) : t.PayloadWritten := by
  unfold State.PayloadWritten
  rw [hw.nBytes, hw.txmem]
  exact h

theorem finishCommand_endedWith {w : Word} {s : State} (h : UnderWay w s) (hd : s.sdaDir = .out) :
    endedWith w (finishCommand s) := by
  rw [finishCommand_eq]
  exact ⟨by simp [State.ended, State.pinsIdle, forgetDatapath, hd], h.cmderr, h.cfgerr, h.cmd⟩

theorem abortCommand_endedWith {w : Word} {s : State} (h : UnderWay w s) (hd : s.sdaDir = .out) :
    endedWith w (abortCommand s) :=
  finishCommand_endedWith h.markAckFail hd

/-! ## Write slots -/

/-- A slot that fails ends the command by the abort path (`60_exceptions.md` R232), so only what follows an
acknowledged slot is left to look at. -/
theorem sendByte_endsWith {w : Word} {b : Byte} {c : State → Out} {s : State} (h : UnderWay w s)
    (hc : ∀ t tr n, Went s t tr n → t.bytecnt = s.bytecnt → EndsWith w (c t)) : EndsWith w (sendByte b c s) := by
  rcases sendByte_cases s b c h.retryN with ⟨k, t, -, -, hgo, hw, hb⟩ | ⟨t, habort, hw, -⟩
  · rw [hgo]; exact hc t _ k hw hb
  · exact ⟨_, habort, abortCommand_endedWith (h.of_went hw) hw.dir⟩

theorem sendAll_endsWith {w : Word} {bs : List Byte} {c : State → Out} {s : State} (hne : bs ≠ []) (h : UnderWay w s)
    (hc : ∀ t tr n, Went s t tr n → EndsWith w (c t)) : EndsWith w (sendAll bs c s) := by
  induction bs generalizing s with
  | nil => exact absurd rfl hne
  | cons b bs ih =>
    refine sendByte_endsWith h fun t tr n hw _ => ?_
    cases bs with
    | nil => exact hc t tr n hw
    | cons b' bs => exact ih (by simp) (h.of_went hw) fun u tr' n' hw' => hc u _ _ (hw.trans hw')

/-! ## The payload loops -/

theorem writePayload_endsWith {w : Word} {r : Nat} {s : State} (h : UnderWay w s) (hd : s.sdaDir = .out)
    (hp : s.PayloadWritten) (hr : s.bytecnt.toNat + r ≤ s.nBytes.toNat) : EndsWith w (writePayload r s) := by
  induction r generalizing s with
  | zero => exact ⟨_, rfl, finishCommand_endedWith h hd⟩
  | succ r ih =>
    obtain ⟨b, hb⟩ := Option.ne_none_iff_exists'.mp (hp s.bytecnt.toNat (by omega))
    have hstep : writePayload (r + 1) s = sendByte b (fun t => writePayload r (countByte t)) s := by
      simp [writePayload, State.txByte, hb]
    rw [hstep]
    refine sendByte_endsWith h fun t tr n hw hbc => ?_
    have hpt : t.PayloadWritten := hp.of_went hw
    have hlt := s.nBytes.isLt
    have hcount : (countByte t).bytecnt.toNat = s.bytecnt.toNat + 1 := by
      rw [countByte, hbc]; exact toNat_bytecnt_succ (by omega)
    have hlen : (countByte t).nBytes = s.nBytes := hw.nBytes
    exact ih (h.of_went hw).countByte hw.dir hpt (by rw [hcount, hlen]; omega)

theorem writeData_endsWith {w : Word} {s : State} (h : UnderWay w s) (hd : s.sdaDir = .out) (hp : s.PayloadWritten) :
    EndsWith w (writeData s) :=
  writePayload_endsWith h.clearBytecnt hd hp (by simp [clearBytecnt])

/-- One round of the payload loop of a read (`42_transactions.md` R174): the byte, its place in `RXMEM`, the
acknowledge bit. -/
def readRound (s : State) : State :=
  let s := storeRxByte (rbyteP s)
  countByte (if s.moreToRead then mackP s else mnackP s)

theorem readPayload_succ (r : Nat) (s : State) : readPayload (r + 1) s = readPayload r (readRound s) := rfl

theorem readRound_underWay {w : Word} {s : State} (h : UnderWay w s) :
    UnderWay w (readRound s) ∧ (readRound s).sdaDir = .out := by
  simp only [readRound]
  split
  · rw [mackP_eq, rbyteP_eq]; exact ⟨⟨h.cmd, h.cmderr, h.cfgerr, h.retryN⟩, rfl⟩
  · rw [mnackP_eq, rbyteP_eq]; exact ⟨⟨h.cmd, h.cmderr, h.cfgerr, h.retryN⟩, rfl⟩

theorem readPayload_endedWith {w : Word} (r : Nat) {s : State} (h : UnderWay w s) (hd : s.sdaDir = .out) :
    endedWith w (readPayload r s) := by
  induction r generalizing s with
  | zero => exact finishCommand_endedWith h hd
  | succ r ih =>
    obtain ⟨h', hd'⟩ := readRound_underWay h
    exact ih h' hd'

theorem readData_endsWith {w : Word} (dev : DevAddr) {s : State} (h : UnderWay w s) (hd : s.sdaDir = .out) :
    EndsWith w (readData dev s) := by
  have hstart : Went s (startP (turnP s)) _ _ := (went_turnP hd).trans (went_startP hd)
  refine sendByte_endsWith (h.of_went hstart) fun t _ _ hw _ => ⟨_, rfl, ?_⟩
  exact readPayload_endedWith _ ((h.of_went hstart).of_went hw).clearBytecnt hw.dir

/-! ## The commands -/

/-- A write command once its first bytes `bs`, address and register, are to be sent. -/
theorem write_endsWith {bs : List Byte} {s : State} (w : Word) (hne : bs ≠ []) (h : s.ready = true)
    (hp : s.PayloadWritten) : EndsWith w (sendAll bs writeData (afterStart w s)) := by
  have hu := underWay_afterStart w h
  have hp' : (afterStart w s).PayloadWritten := by rw [afterStart_eq]; exact hp
  exact sendAll_endsWith hne hu fun t _ _ hw => writeData_endsWith (hu.of_went hw) hw.dir (hp'.of_went hw)

/-- A read command once its first bytes `bs`, address and register, are to be sent. -/
theorem read_endsWith {bs : List Byte} {s : State} (w : Word) (dev : DevAddr) (hne : bs ≠ []) (h : s.ready = true) :
    EndsWith w (sendAll bs (readData dev) (afterStart w s)) := by
  have hu := underWay_afterStart w h
  exact sendAll_endsWith hne hu fun t _ _ hw => readData_endsWith dev (hu.of_went hw) hw.dir

/-- `PROBE`, whose one slot is followed by `STOP` whether it is acknowledged or not. -/
theorem probe_endsWith {s : State} (w : Word) (b : Byte) (h : s.ready = true) :
    EndsWith w (sendAll [b] (fun t => .next (finishCommand t)) (afterStart w s)) := by
  have hu := underWay_afterStart w h
  exact sendAll_endsWith (by simp) hu fun t _ _ hw => ⟨_, rfl, finishCommand_endedWith (hu.of_went hw) hw.dir⟩

/-- Settles O33: each command is the slots of its first bytes and then its payload, and each of these keeps the
command under way or ends it. -/
theorem commandsEndInEveryEnvironment : Obligations.CommandsEndInEveryEnvironment := by
  unfold Obligations.CommandsEndInEveryEnvironment
  intro s dev reg h
  rw [exec_probe_of_ready h, exec_rd8_of_ready h, exec_rd16_of_ready h, exec_wr8_of_ready h, exec_wr16_of_ready h]
  exact ⟨probe_endsWith _ _ h, read_endsWith _ dev (by simp) h, read_endsWith _ dev (by simp) h,
    fun hp => ⟨write_endsWith _ (by simp) h hp, write_endsWith _ (by simp) h hp⟩⟩

end Sys2Proof.Machine
end

section
/-! PROOFS. Family 10_state: what a command word leaves. Its launch decides between a refusal and a run; `CommandEnd` is
what holds of the state in which a run ends, on the abort path too (O24, O34). -/

namespace Sys2Proof.Machine

/-! ## The launch of a command word -/

theorem exec_eq_runCommand {i : Instr} (h : i.isCommand = true) :
    cmdReserved (wordOf i) = false ∧ ∃ body, ∀ s, exec i s = runCommand (wordOf i) body s := by
  cases i with
  | probe dev reg => exact ⟨by simp [wordOf, encode, cmdReserved_cmdWord], probeBody dev, fun _ => rfl⟩
  | wr8 dev reg => exact ⟨by simp [wordOf, encode, cmdReserved_cmdWord], wr8Body dev reg, fun _ => rfl⟩
  | rd8 dev reg => exact ⟨by simp [wordOf, encode, cmdReserved_cmdWord], rd8Body dev reg, fun _ => rfl⟩
  | wr16 dev reg => exact ⟨by simp [wordOf, encode, cmdReserved_cmdWord], wr16Body dev reg, fun _ => rfl⟩
  | rd16 dev reg => exact ⟨by simp [wordOf, encode, cmdReserved_cmdWord], rd16Body dev reg, fun _ => rfl⟩
  | _ => cases h

theorem exec_eq_launch {i : Instr} (hi : i.isCommandWord = true) (hw : i.wf = true) (h : i.isCommand = false) :
    cmdReserved (wordOf i) = true ∧ ∀ s, exec i s = launch (wordOf i) s := by
  cases i with
  | reservedOp3 dev reg => exact ⟨by simp [wordOf, encode, cmdReserved_cmdWord], fun _ => rfl⟩
  | reservedOp4 dev reg => exact ⟨by simp [wordOf, encode, cmdReserved_cmdWord], fun _ => rfl⟩
  | reservedOp7 dev reg => exact ⟨by simp [wordOf, encode, cmdReserved_cmdWord], fun _ => rfl⟩
  | reservedRsv op dev reg rsv =>
    have hr : rsv ≠ 0#6 := by simpa [Instr.wf] using hw
    exact ⟨by simp [wordOf, encode, cmdReserved_cmdWord, hr], fun _ => rfl⟩
  | probe | wr8 | rd8 | wr16 | rd16 => cases h
  | _ => cases hi

theorem isCommand_of_isRead {i : Instr} (h : i.isRead = true) : i.isCommand = true := by
  cases i with
  | rd8 | rd16 => rfl
  | _ => cases h

theorem cfgValid_iff (s : State) : s.cfgValid = true ↔ s.sclPin ≠ s.sdaPin ∧ s.sclPin.toNat < Config.npins ∧
    s.sdaPin.toNat < Config.npins ∧ 1 ≤ s.retryN.toNat := by
  simp [State.cfgValid, and_assoc]

/-- Settles O24: of the four things a command can do, only the refusal is left. -/
theorem invalidConfigurationIsRefused : Obligations.InvalidConfigurationIsRefused := by
  unfold Obligations.InvalidConfigurationIsRefused
  refine ⟨cfgValid_iff, fun s i hi hb hc => ?_⟩
  obtain ⟨hr, body, he⟩ := exec_eq_runCommand hi
  rw [he]
  rcases runCommand_cases hr body s with ⟨hb', -⟩ | ⟨-, -, hrun⟩ | ⟨-, hc', -⟩ | ⟨hready, -⟩
  · simp [hb] at hb'
  · rw [hrun]; rfl
  · simp [hc] at hc'
  · simp [State.ready, hc] at hready

/-! ## Slots, for any property of outcomes -/

/-- What holds of the abort path and of what follows an acknowledged slot holds of a write slot. -/
theorem sendByte_elim {P : Out → Prop} {b : Byte} {c : State → Out} {s : State} (hN : 1 ≤ s.retryN.toNat)
    (habort : ∀ t tr n, Went s t tr n → P (.next (abortCommand t))) (hc : ∀ t tr n, Went s t tr n → P (c t)) :
    P (sendByte b c s) := by
  rcases sendByte_cases s b c hN with ⟨k, t, -, -, hgo, hw, -⟩ | ⟨t, hstop, hw, -⟩
  · rw [hgo]; exact hc t _ _ hw
  · rw [hstop]; exact habort t _ _ hw

theorem sendAll_elim {P : Out → Prop} {bs : List Byte} {c : State → Out} {s : State} (hne : bs ≠ [])
    (hN : 1 ≤ s.retryN.toNat) (habort : ∀ t tr n, Went s t tr n → P (.next (abortCommand t)))
    (hc : ∀ t tr n, Went s t tr n → P (c t)) : P (sendAll bs c s) := by
  induction bs generalizing s with
  | nil => exact absurd rfl hne
  | cons b bs ih =>
    refine sendByte_elim hN habort fun t tr n hw => ?_
    cases bs with
    | nil => exact hc t tr n hw
    | cons b' bs =>
      exact ih (by simp) (by rw [hw.retryN]; exact hN) (fun u _ _ hw' => habort u _ _ (hw.trans hw'))
        fun u _ _ hw' => hc u _ _ (hw.trans hw')

theorem Went.clearBytecnt {s t : State} {tr : List Tok} {n : Nat} (h : Went s t tr n) : Went s (clearBytecnt t) tr n :=
  { h with }

theorem Went.countByte {s t : State} {tr : List Tok} {n : Nat} (h : Went s t tr n) : Went s (countByte t) tr n :=
  { h with }

/-! ## The end of a command -/

/-- A command launched in `s` with the word `w` has ended in `t`: the frame, the flags, and what became of `RXMEM` and
`RXCOUNT`, which only a read (`reads`) that was acknowledged throughout touches (`20_memory.md` R63, `60_exceptions.md`
R232). -/
structure CommandEnd (w : Word) (reads : Bool) (s t : State) : Prop where
  outside : sameOutside s t
  ended : endedWith w t
  canonical : Memory.wf s.rxmem = true → Memory.wf t.rxmem = true
  above : ∀ a, s.nBytes.toNat ≤ a → Memory.read t.rxmem a = Memory.read s.rxmem a
  filled : reads = true → t.ackfail = false →
    t.rxCount = s.nBytes ∧ ∀ a < s.nBytes.toNat, Memory.read t.rxmem a ≠ none
  untouched : reads = false ∨ t.ackfail = true → t.rxmem = s.rxmem ∧ t.rxCount = 0

/-- If the outcome is a next state, the command has ended there. -/
def CanEnd (w : Word) (reads : Bool) (s : State) (o : Out) : Prop := ∀ t, o = .next t → CommandEnd w reads s t

theorem CommandEnd.canEnd {w : Word} {reads : Bool} {s t : State} (h : CommandEnd w reads s t) :
    CanEnd w reads s (.next t) := by
  rintro _ ⟨⟩; exact h

/-- An end that leaves `RXMEM` alone. -/
theorem CommandEnd.of_untouched {w : Word} {reads : Bool} {s t : State} (hout : sameOutside s t) (hend : endedWith w t)
    (hmem : t.rxmem = s.rxmem) (hcount : t.rxCount = 0) (hfate : reads = false ∨ t.ackfail = true) :
    CommandEnd w reads s t where
  outside := hout
  ended := hend
  canonical h := by rw [hmem]; exact h
  above a _ := by rw [hmem]
  filled hr ha := by simp [hr, ha] at hfate
  untouched _ := ⟨hmem, hcount⟩

theorem commandEnd_abort {w : Word} {reads : Bool} {s u : State} {tr : List Tok} {n : Nat}
    (h : Went (afterStart w s) u tr n) : CommandEnd w reads s (abortCommand u) := by
  obtain ⟨hfail, hend, hout, hmem, hcount, -⟩ := abortCommand_of_went h
  exact .of_untouched hout hend hmem hcount (.inr hfail)

theorem commandEnd_finish {w : Word} {s u : State} {tr : List Tok} {n : Nat} (h : Went (afterStart w s) u tr n) :
    CommandEnd w false s (finishCommand u) := by
  obtain ⟨-, hend, hout, hmem, hcount, -⟩ := finishCommand_of_went h
  exact .of_untouched hout hend hmem hcount (.inl rfl)

theorem writePayload_canEnd {w : Word} {s : State} (hN : 1 ≤ s.retryN.toNat) (r : Nat) {u : State} {tr : List Tok}
    {n : Nat} (h : Went (afterStart w s) u tr n) : CanEnd w false s (writePayload r u) := by
  induction r generalizing u tr n with
  | zero => exact (commandEnd_finish h).canEnd
  | succ r ih =>
    rw [writePayload]
    cases u.txByte with
    | none => rintro _ ⟨⟩
    | some b =>
      have hN' : 1 ≤ u.retryN.toNat := by rw [h.retryN, afterStart_eq]; exact hN
      exact sendByte_elim hN' (fun t _ _ hw => (commandEnd_abort (h.trans hw)).canEnd)
        fun t _ _ hw => ih (h.trans hw).countByte

/-! ## The payload loop of a read -/

/-- The payload loop of a read launched in `s` with the word `w` has stored the bytes below `BYTECNT` (`42_transactions.md`
R174). -/
structure Filling (w : Word) (s u : State) : Prop where
  underWay : UnderWay w u
  dir : u.sdaDir = .out
  outside : sameOutside s u
  ackfail : u.ackfail = false
  count : u.rxCount = u.bytecnt
  filled : ∀ a < u.bytecnt.toNat, Memory.read u.rxmem a ≠ none
  above : ∀ a, s.nBytes.toNat ≤ a → Memory.read u.rxmem a = Memory.read s.rxmem a
  canonical : Memory.wf s.rxmem = true → Memory.wf u.rxmem = true

theorem filling_clearBytecnt {w : Word} {s u : State} {tr : List Tok} {n : Nat} (hs : s.ready = true)
    (h : Went (afterStart w s) u tr n) : Filling w s (clearBytecnt u) := by
  obtain ⟨-, -, hout, hmem, hcount, -⟩ := finishCommand_of_went h
  exact
    { underWay := ((underWay_afterStart w hs).of_went h).clearBytecnt
      dir := h.dir
      outside := hout
      ackfail := h.ackfail.trans (by rw [afterStart_eq])
      count := hcount
      filled := fun a ha => absurd ha (Nat.not_lt_zero a)
      above := fun a _ => congrArg (Memory.read · a) hmem
      canonical := fun hwf => by rw [show (clearBytecnt u).rxmem = s.rxmem from hmem]; exact hwf }

/-- One round of the loop: eight answers, the byte stored at `BYTECNT`, and `MNACK` exactly after the last one. -/
theorem readRound_eq (s : State) : readRound s =
    { s with
      shreg := byteOfBits s.nextBits, bitcnt := 8, bytecnt := s.bytecnt + 1, dlycnt := 0
      sclOut := false, sdaOut := !s.moreToRead, sdaDir := .out
      rxmem := Memory.write s.rxmem s.bytecnt.toNat (byteOfBits s.nextBits), rxCount := s.bytecnt + 1
      bit := s.envAt 7, answers := s.answers.drop 8, sampleNo := s.sampleNo + 8
      trace := s.trace ++ (readToks s.nextBits ++ bitToks (!s.moreToRead)) } := by
  have hmore : (storeRxByte (rbyteP s)).moreToRead = s.moreToRead := by rw [rbyteP_eq]; rfl
  rw [readRound, hmore]
  cases s.moreToRead <;> simp [mackP_eq, mnackP_eq, rbyteP_eq, storeRxByte, countByte]

theorem Filling.readRound {w : Word} {s u : State} (h : Filling w s u) (hlt : u.bytecnt.toNat < s.nBytes.toNat) :
    Filling w s (readRound u) ∧ (readRound u).bytecnt.toNat = u.bytecnt.toNat + 1 := by
  obtain ⟨hunder, hdir⟩ := readRound_underWay h.underWay
  have hout : sameOutside u (Machine.readRound u) := by simp [readRound_eq, sameOutside]
  have hack : (Machine.readRound u).ackfail = u.ackfail := by rw [readRound_eq]
  have hbyte : (Machine.readRound u).bytecnt = u.bytecnt + 1 := by rw [readRound_eq]
  have hcount : (Machine.readRound u).rxCount = u.bytecnt + 1 := by rw [readRound_eq]
  have hmem : (Machine.readRound u).rxmem = Memory.write u.rxmem u.bytecnt.toNat (byteOfBits u.nextBits) := by
    rw [readRound_eq]
  have hn := s.nBytes.isLt
  have hnext : (Machine.readRound u).bytecnt.toNat = u.bytecnt.toNat + 1 := by
    rw [hbyte]; exact toNat_bytecnt_succ (by omega)
  refine ⟨⟨hunder, hdir, sameOutside_trans h.outside hout, hack.trans h.ackfail, hcount.trans hbyte.symm, ?_, ?_, ?_⟩,
    hnext⟩
  · intro a ha
    have ha' : a < u.bytecnt.toNat + 1 := hnext ▸ ha
    rw [hmem]
    by_cases hlast : a = u.bytecnt.toNat
    · rw [hlast, Memory.read_write_same]; simp
    · rw [Memory.read_write_other _ _ hlast]; exact h.filled a (by omega)
  · intro a ha
    rw [hmem, Memory.read_write_other _ _ (by omega)]; exact h.above a ha
  · intro hwf
    rw [hmem]; exact Memory.wf_write _ (by omega) (h.canonical hwf)

theorem Filling.finish {w : Word} {s u : State} (h : Filling w s u) (hn : u.bytecnt.toNat = s.nBytes.toNat) :
    CommandEnd w true s (finishCommand u) := by
  have hall : u.bytecnt = s.nBytes := BitVec.eq_of_toNat_eq hn
  have hout : sameOutside u (finishCommand u) := by simp [finishCommand_eq, forgetDatapath, sameOutside]
  exact
    { outside := sameOutside_trans h.outside hout
      ended := finishCommand_endedWith h.underWay h.dir
      canonical := h.canonical
      above := h.above
      filled := fun _ _ => ⟨h.count.trans hall, fun a ha => h.filled a (by omega)⟩
      untouched := fun hfate => by
        have hack : (finishCommand u).ackfail = false := h.ackfail
        simp [hack] at hfate }

theorem Filling.readPayload {w : Word} {s : State} (r : Nat) {u : State} (h : Filling w s u)
    (hr : u.bytecnt.toNat + r = s.nBytes.toNat) : CommandEnd w true s (readPayload r u) := by
  induction r generalizing u with
  | zero => exact h.finish hr
  | succ r ih =>
    obtain ⟨h', hnext⟩ := h.readRound (by omega)
    rw [readPayload_succ]
    exact ih h' (by omega)

theorem readData_canEnd {w : Word} {s u : State} {tr : List Tok} {n : Nat} (dev : DevAddr) (hs : s.ready = true)
    (h : Went (afterStart w s) u tr n) : CanEnd w true s (readData dev u) := by
  have hstart : Went (afterStart w s) (startP (turnP u)) _ _ :=
    (h.trans (went_turnP h.dir)).trans (went_startP (went_turnP h.dir).dir)
  have hN : 1 ≤ (startP (turnP u)).retryN.toNat := ((underWay_afterStart w hs).of_went hstart).retryN
  refine sendByte_elim hN (fun t _ _ hw => (commandEnd_abort (hstart.trans hw)).canEnd) fun t _ _ hw => ?_
  have hall := hstart.trans hw
  have hn : t.nBytes = s.nBytes := by rw [hall.nBytes, afterStart_eq]
  exact ((filling_clearBytecnt hs hall).readPayload _ (by simp [hn])).canEnd

/-! ## The commands -/

/-- The first slots of a command, then `c`. -/
theorem sendAll_canEnd {bs : List Byte} {w : Word} {reads : Bool} {c : State → Out} {s : State} (hne : bs ≠ [])
    (hs : s.ready = true) (hc : ∀ t tr n, Went (afterStart w s) t tr n → CanEnd w reads s (c t)) :
    CanEnd w reads s (sendAll bs c (afterStart w s)) :=
  sendAll_elim hne (underWay_afterStart w hs).retryN (fun _ _ _ hw => (commandEnd_abort hw).canEnd) hc

theorem exec_canEnd {i : Instr} {s : State} (hi : i.isCommand = true) (hs : s.ready = true) :
    CanEnd (wordOf i) i.isRead s (exec i s) := by
  have hN := retryN_pos_of_ready hs
  cases i with
  | probe dev reg =>
    rw [exec_probe_of_ready hs]
    exact sendAll_canEnd (by simp) hs fun _ _ _ hw => (commandEnd_finish hw).canEnd
  | wr8 dev reg =>
    rw [exec_wr8_of_ready hs]
    exact sendAll_canEnd (by simp) hs fun _ _ _ hw => writePayload_canEnd hN _ hw.clearBytecnt
  | wr16 dev reg =>
    rw [exec_wr16_of_ready hs]
    exact sendAll_canEnd (by simp) hs fun _ _ _ hw => writePayload_canEnd hN _ hw.clearBytecnt
  | rd8 dev reg =>
    rw [exec_rd8_of_ready hs]
    exact sendAll_canEnd (by simp) hs fun _ _ _ hw => readData_canEnd dev hs hw
  | rd16 dev reg =>
    rw [exec_rd16_of_ready hs]
    exact sendAll_canEnd (by simp) hs fun _ _ _ hw => readData_canEnd dev hs hw
  | _ => cases hi

/-- The three ways a well-formed command word can answer a next state, all from a free engine. -/
theorem exec_commandWord_cases {s t : State} {i : Instr} (hi : i.isCommandWord = true) (hw : i.wf = true)
    (h : exec i s = .next t) : s.busy = false ∧
      ((i.isCommand = false ∧ t = refuseCmdErr (acceptWord (wordOf i) s)) ∨
       t = refuseCfgErr (acceptWord (wordOf i) s) ∨ CommandEnd (wordOf i) i.isRead s t) := by
  cases hc : i.isCommand with
  | false =>
    obtain ⟨hr, he⟩ := exec_eq_launch hi hw hc
    rw [he] at h
    rcases launch_cases (wordOf i) s with ⟨-, e⟩ | ⟨hb, -, e⟩ | ⟨-, hr', -⟩ | ⟨-, hr', -⟩ | ⟨hr', -⟩
    · rw [e] at h; cases h
    · rw [e] at h; cases h; exact ⟨hb, .inl ⟨rfl, rfl⟩⟩
    all_goals simp [hr] at hr'
  | true =>
    obtain ⟨hr, body, he⟩ := exec_eq_runCommand hc
    rcases runCommand_cases hr body s with ⟨-, e⟩ | ⟨hb, -, e⟩ | ⟨-, -, -, e⟩ | ⟨hs, -⟩
    · rw [he, e] at h; cases h
    · rw [he, e] at h; cases h; exact ⟨hb, .inr (.inl rfl)⟩
    · rw [he, e] at h; cases h
    · have hb : s.busy = false := by simp only [State.ready, Bool.and_eq_true, Bool.not_eq_true'] at hs; exact hs.1.1
      exact ⟨hb, .inr (.inr (exec_canEnd hc hs t h))⟩

/-- Settles O34: a refusal touches the flags, `CMD` and `RXCOUNT` only; what a run leaves is `CommandEnd`. -/
theorem commandFrame : Obligations.CommandFrame := by
  unfold Obligations.CommandFrame
  intro s t i hi hw h
  obtain ⟨hb, ⟨hc, rfl⟩ | rfl | hend⟩ := exec_commandWord_cases hi hw h
  · have hread : i.isRead = false := by
      cases hr : i.isRead with
      | false => rfl
      | true => rw [isCommand_of_isRead hr] at hc; cases hc
    simp [sameOutside, hb, hread]
  · simp [sameOutside, hb]
  · obtain ⟨hended, -, hcfgerr, hcmd⟩ := hend.ended
    simp only [State.ended, Bool.and_eq_true, Bool.not_eq_true'] at hended
    obtain ⟨⟨⟨hbusy, hdone⟩, -⟩, -⟩ := hended
    refine ⟨hend.outside, hcmd, hbusy, hdone, hend.above, fun ⟨hr, ha, _⟩ => hend.filled hr ha, fun hfate => ?_⟩
    exact hend.untouched (by simpa [hcfgerr] using hfate)

end Sys2Proof.Machine
end

section
/-! PROOFS. Family 10_state: no command reads a datapath register before writing it (`10_state.md` R25). The first slot
overwrites all of them but `BYTECNT`, `PRIM` and `USTEP`; `BYTECNT` is cleared at the head of the payload, and completion
forgets the rest (O36). -/

namespace Sys2Proof.Machine

/-! ## Slots -/

theorem wbyteP_withStale (b : Byte) (s g : State) :
    wbyteP b (withStale s g) = withStale (wbyteP b s) { g with shreg := b, bitcnt := 8, dlycnt := 0 } := by
  rw [wbyteP_eq, wbyteP_eq]; rfl

theorem wackP_withStale {s : State} (g : State) (hN : 1 ≤ s.retryN.toNat) :
    wackP (withStale s g) = withStale (wackP s)
      { g with retrycnt := (wackP s).retrycnt, ackbit := (wackP s).ackbit, dlycnt := 0 } := by
  rcases wackP_cases s hN with ⟨k, h1, hk, hones, hzero, e⟩ | ⟨hones, e⟩
  · rw [wackP_ack (s := withStale s g) h1 hk hones hzero, e]; rfl
  · rw [wackP_nack (s := withStale s g) hN hones, e]; rfl

theorem finishCommand_withStale (s g : State) : finishCommand (withStale s g) = finishCommand s := rfl

theorem abortCommand_withStale (s g : State) : abortCommand (withStale s g) = abortCommand s := rfl

theorem withStale_ackbit (s g : State) : (withStale s g).ackbit = g.ackbit := rfl

theorem slot_retryN {s : State} (b : Byte) (hN : 1 ≤ s.retryN.toNat) : (wackP (wbyteP b s)).retryN = s.retryN := by
  have hN' : 1 ≤ (wbyteP b s).retryN.toNat := by rw [wbyteP_eq]; exact hN
  obtain ⟨-, -, -, -, -, -, hr, -⟩ := wackP_fields hN'
  rw [hr, wbyteP_eq]

/-- A slot whose continuation does not see the stale registers does not see them either: `ACKBIT`, which decides what
follows, has been written. -/
theorem sendByte_withStale {s g : State} {b : Byte} {c : State → Out} (hN : 1 ≤ s.retryN.toNat)
    (hc : ∀ x, x.bytecnt = g.bytecnt → c (withStale (wackP (wbyteP b s)) x) = c (wackP (wbyteP b s))) :
    sendByte b c (withStale s g) = sendByte b c s := by
  have hN' : 1 ≤ (wbyteP b s).retryN.toNat := by rw [wbyteP_eq]; exact hN
  simp only [sendByte, wbyteP_withStale, wackP_withStale _ hN', withStale_ackbit, abortCommand_withStale]
  split
  · exact hc _ rfl
  · rfl

/-- What follows a slot never reads a stale register, `BYTECNT` included. -/
def ReadsNoStale (c : State → Out) : Prop := ∀ s g : State, 1 ≤ s.retryN.toNat → c (withStale s g) = c s

theorem ReadsNoStale.sendByte {c : State → Out} (h : ReadsNoStale c) (b : Byte) : ReadsNoStale (sendByte b c) :=
  fun s _ hN => sendByte_withStale hN fun x _ => h _ x (by rw [slot_retryN b hN]; exact hN)

theorem ReadsNoStale.sendAll {c : State → Out} (h : ReadsNoStale c) (bs : List Byte) : ReadsNoStale (sendAll bs c) := by
  induction bs with
  | nil => exact h
  | cons b bs ih => exact ih.sendByte b

/-! ## The payload -/

theorem writePayload_withStale (r : Nat) {s g : State} (hN : 1 ≤ s.retryN.toNat) (hb : g.bytecnt = s.bytecnt) :
    writePayload r (withStale s g) = writePayload r s := by
  induction r generalizing s g with
  | zero => exact congrArg Host.Outcome.next (finishCommand_withStale s g)
  | succ r ih =>
    have htx : (withStale s g).txByte = s.txByte := by simp only [State.txByte, withStale, hb]
    rw [writePayload, writePayload, htx]
    cases s.txByte with
    | none => rfl
    | some b =>
      refine sendByte_withStale hN fun x hx => ?_
      have hcount : x.bytecnt = (wackP (wbyteP b s)).bytecnt := by rw [hx, hb, slot_bytecnt hN]
      exact ih (s := countByte (wackP (wbyteP b s))) (g := countByte x) (by rw [countByte_retryN, slot_retryN b hN]; exact hN)
        (by simp [hcount])

theorem readRound_withStale {s g : State} (hb : g.bytecnt = s.bytecnt) :
    readRound (withStale s g) = withStale (readRound s) (readRound (withStale s g)) ∧
      (readRound (withStale s g)).bytecnt = (readRound s).bytecnt := by
  have hmore : (withStale s g).moreToRead = s.moreToRead := by simp only [State.moreToRead, withStale, hb]
  have hbits : (withStale s g).nextBits = s.nextBits := rfl
  have hbyte : (withStale s g).bytecnt = s.bytecnt := hb
  rw [readRound_eq, readRound_eq, hmore, hbits, hbyte]
  exact ⟨rfl, rfl⟩

theorem readPayload_withStale (r : Nat) {s g : State} (hb : g.bytecnt = s.bytecnt) :
    readPayload r (withStale s g) = readPayload r s := by
  induction r generalizing s g with
  | zero => exact finishCommand_withStale s g
  | succ r ih =>
    obtain ⟨hround, hcount⟩ := readRound_withStale hb
    rw [readPayload_succ, readPayload_succ, hround]
    exact ih hcount

theorem writeData_readsNoStale : ReadsNoStale writeData :=
  fun s g hN => writePayload_withStale s.nBytes.toNat (s := clearBytecnt s) (g := clearBytecnt g) hN rfl

theorem readData_readsNoStale (dev : DevAddr) : ReadsNoStale (readData dev) := by
  intro s g hN
  have hslot : ReadsNoStale fun t => .next (readPayload t.nBytes.toNat (clearBytecnt t)) := fun t x _ =>
    congrArg Host.Outcome.next (readPayload_withStale t.nBytes.toNat (s := clearBytecnt t) (g := clearBytecnt x) rfl)
  have hstart : startP (turnP (withStale s g)) = withStale (startP (turnP s)) (startP (turnP (withStale s g))) := rfl
  rw [readData, readData, hstart]
  exact hslot.sendByte _ _ _ hN

/-! ## The commands -/

theorem afterStart_withStale (w : Word) (s g : State) :
    afterStart w (withStale s g) = withStale (afterStart w s) (afterStart w (withStale s g)) := rfl

/-- Settles O36: from a ready engine a command is its first slots and its payload, neither of which reads a stale
register. -/
theorem staleDatapathIsNeverRead : Obligations.StaleDatapathIsNeverRead := by
  unfold Obligations.StaleDatapathIsNeverRead
  intro s g i hi hs
  have hs' : (withStale s g).ready = true := hs
  have agree : ∀ (bs : List Byte) (c : State → Out) (w : Word), ReadsNoStale c →
      sendAll bs c (afterStart w (withStale s g)) = sendAll bs c (afterStart w s) := fun bs c w hc => by
    rw [afterStart_withStale]
    exact hc.sendAll bs _ _ (underWay_afterStart w hs).retryN
  cases i with
  | probe dev reg =>
    rw [exec_probe_of_ready hs', exec_probe_of_ready hs]
    exact agree _ _ _ fun t x _ => congrArg Host.Outcome.next (finishCommand_withStale t x)
  | wr8 dev reg => rw [exec_wr8_of_ready hs', exec_wr8_of_ready hs]; exact agree _ _ _ writeData_readsNoStale
  | wr16 dev reg => rw [exec_wr16_of_ready hs', exec_wr16_of_ready hs]; exact agree _ _ _ writeData_readsNoStale
  | rd8 dev reg => rw [exec_rd8_of_ready hs', exec_rd8_of_ready hs]; exact agree _ _ _ (readData_readsNoStale dev)
  | rd16 dev reg => rw [exec_rd16_of_ready hs', exec_rd16_of_ready hs]; exact agree _ _ _ (readData_readsNoStale dev)
  | _ => cases hi

end Sys2Proof.Machine
end

section
/-! PROOFS. Family 10_state: the invariant holds at reset and every turn of every agent keeps it (O47, O48), and what it
says of the pins (O50 to O52), with the values at reset (O59). -/

namespace Sys2Proof.Machine

/-! ## The invariant and its parts -/

/-- What `State.Inv` asks while `BUSY = 0` (`10_state.md` R23, R36). -/
structure Idle (s : State) : Prop where
  phase : s.phase = .idle
  pins : s.pinsIdle = true
  flags : s.flagsOk = true

/-- The parts of `State.Inv`. -/
structure Sound (s : State) : Prop where
  agenda : s.agenda.all Turn.lawful = true
  txmem : Memory.wf s.txmem = true
  rxmem : Memory.wf s.rxmem = true
  running : s.busy = true → Runnable s
  idle : s.busy = false → Idle s

theorem inv_iff (s : State) : s.Inv = true ↔ Sound s := by
  cases hb : s.busy with
  | true =>
    rw [inv_busy_iff hb]
    exact ⟨fun ⟨ha, ht, hr, h⟩ => ⟨ha, ht, hr, fun _ => h, fun h' => by simp [hb] at h'⟩,
      fun h => ⟨h.agenda, h.txmem, h.rxmem, h.running hb⟩⟩
  | false =>
    have hparts : s.Inv = true ↔ s.agenda.all Turn.lawful = true ∧ Memory.wf s.txmem = true ∧
        Memory.wf s.rxmem = true ∧ s.phase = .idle ∧ s.pinsIdle = true ∧ s.flagsOk = true := by
      simp [State.Inv, hb, and_assoc]
    rw [hparts]
    exact ⟨fun ⟨ha, ht, hr, hp, hi, hf⟩ => ⟨ha, ht, hr, fun h' => by simp [hb] at h', fun _ => ⟨hp, hi, hf⟩⟩,
      fun h => ⟨h.agenda, h.txmem, h.rxmem, (h.idle hb).phase, (h.idle hb).pins, (h.idle hb).flags⟩⟩

theorem pinsIdle_iff (s : State) : s.pinsIdle = true ↔ s.sclOut = true ∧ s.sdaOut = true ∧ s.sdaDir = .out := by
  simp [State.pinsIdle, and_assoc]

theorem ready_iff (s : State) : s.ready = true ↔ s.busy = false ∧ s.cfgValid = true ∧ s.pinsTaken = false := by
  simp [State.ready, and_assoc]

theorem sound_of_idle {s : State} (hb : s.busy = false) (ha : s.agenda.all Turn.lawful = true)
    (ht : Memory.wf s.txmem = true) (hr : Memory.wf s.rxmem = true) (h : Idle s) : Sound s :=
  ⟨ha, ht, hr, fun h' => by simp [hb] at h', fun _ => h⟩

/-! ## The launch, and the commands -/

theorem Sound.refuseCmdErr {s : State} (h : Sound s) (hb : s.busy = false) (w : Word) :
    Sound (refuseCmdErr (acceptWord w s)) :=
  sound_of_idle hb h.agenda h.txmem h.rxmem ⟨(h.idle hb).phase, (h.idle hb).pins, by simp [State.flagsOk]⟩

theorem Sound.refuseCfgErr {s : State} (h : Sound s) (hb : s.busy = false) (w : Word) :
    Sound (refuseCfgErr (acceptWord w s)) :=
  sound_of_idle hb h.agenda h.txmem h.rxmem ⟨(h.idle hb).phase, (h.idle hb).pins, by simp [State.flagsOk]⟩

/-- An accepted launch stands at the first micro-operation of `START`, which the idle pins fit. -/
theorem runnable_beginCommand {s : State} {w : Word} (h : Idle s) (hr : cmdReserved w = false)
    (hs : s.ready = true) : Runnable (beginCommand (acceptWord w s)) := by
  obtain ⟨hscl, hsda, hdir⟩ := (pinsIdle_iff s).mp h.pins
  obtain ⟨-, hcfg, hlines⟩ := (ready_iff s).mp hs
  exact
    { prim := by simp [Phase.runs]
      ustep := (by decide : 0 < (primSeq .start false).length)
      used := rfl
      scl := hscl
      dir := hdir
      sda := by rintro _ ⟨⟩; exact hsda
      counters := rfl
      payload := rfl
      cfg := hcfg
      lines := hlines
      word := hr
      done := rfl
      cmderr := rfl
      cfgerr := rfl
      ackfail := by rintro ⟨⟩ }

theorem Sound.launch {s t : State} {w : Word} (h : Sound s) (hl : launch w s = .next t) : Sound t := by
  rcases launch_cases w s with ⟨-, e⟩ | ⟨hb, -, e⟩ | ⟨hb, -, -, e⟩ | ⟨-, -, -, -, e⟩ | ⟨hr, hs, e⟩ <;>
    rw [e] at hl <;> cases hl
  · exact h.refuseCmdErr hb w
  · exact h.refuseCfgErr hb w
  · have hb : s.busy = false := ((ready_iff s).mp hs).1
    exact ⟨h.agenda, h.txmem, h.rxmem, fun _ => runnable_beginCommand (h.idle hb) hr hs, by rintro ⟨⟩⟩

theorem Sound.commandEnd {s t : State} {w : Word} {reads : Bool} (h : Sound s) (he : CommandEnd w reads s t) :
    Sound t := by
  obtain ⟨-, -, -, -, -, htx, -, -, hagenda, -⟩ := he.outside
  obtain ⟨hended, hcmderr, hcfgerr, -⟩ := he.ended
  simp only [State.ended, Bool.and_eq_true, Bool.not_eq_true', decide_eq_true_eq] at hended
  obtain ⟨⟨⟨hb, hdone⟩, hphase⟩, hpins⟩ := hended
  refine sound_of_idle hb (by rw [hagenda]; exact h.agenda) (by rw [htx]; exact h.txmem) (he.canonical h.rxmem)
    ⟨hphase, hpins, ?_⟩
  simp [State.flagsOk, hcmderr, hcfgerr, hdone]

theorem decodeCmd_isCommandWord (w : Word) : (decodeCmd w).isCommandWord = true := by
  unfold decodeCmd
  repeat' split
  all_goals rfl

theorem decodeCmd_wf (w : Word) : (decodeCmd w).wf = true := by
  unfold decodeCmd
  split
  · next h => simpa [Instr.wf] using h
  · repeat' split
    all_goals rfl

/-- A command word run as a whole. -/
theorem Sound.issue_cmd {s t : State} {w : Word} (h : Sound s) (ht : issueTurn (.cmd w) s = .next t) : Sound t := by
  have hexec : exec (decodeCmd w) s = .next t := ht
  obtain ⟨hb, ⟨-, rfl⟩ | rfl | hend⟩ :=
    exec_commandWord_cases (decodeCmd_isCommandWord w) (decodeCmd_wf w) hexec
  · exact h.refuseCmdErr hb _
  · exact h.refuseCfgErr hb _
  · exact h.commandEnd hend

/-! ## The host, the reset, and the lines -/

/-- A register other than `CMD` is stored while `BUSY = 0`; nothing the invariant then asks about changes. -/
theorem Sound.storeHostReg {s : State} (h : Sound s) (hb : s.busy = false) (idx : Nat) (v : Word) :
    Sound (storeHostReg idx v s) := by
  have hidle := h.idle hb
  unfold Machine.storeHostReg
  split <;> exact sound_of_idle hb h.agenda h.txmem h.rxmem ⟨hidle.phase, hidle.pins, hidle.flags⟩

/-- The invariant does not look at what the ports show or at the number of the next free value. -/
theorem Sound.ports {s : State} (h : Sound s) (v : Word) (b : Byte) (n : Nat) :
    Sound { s with hRdata := v, rxRdata := b, freeNo := n } :=
  { h with running := fun hb => { h.running hb with }, idle := fun hb => { h.idle hb with } }

theorem Sound.hostAct {s t : State} {op : HostOp} (h : Sound s) (ht : hostAct op s = .next t) : Sound t := by
  cases op with
  | read idx =>
    simp only [Machine.hostAct, hostRead] at ht
    split at ht <;> cases ht
    exact h.ports _ _ _
  | write idx v =>
    simp only [Machine.hostAct, hostWrite] at ht
    split at ht
    · cases ht
    · next hb =>
      split at ht
      · exact h.launch ht
      · cases ht; exact h.storeHostReg (by simpa using hb) idx v
  | txWrite i b =>
    simp only [Machine.hostAct, txWrite] at ht
    split at ht
    · cases ht
    · next hb =>
      have hidle := h.idle (by simpa using hb)
      split at ht <;> cases ht
      · next hi =>
        exact sound_of_idle (by simpa using hb) h.agenda (Memory.wf_write b hi h.txmem) h.rxmem
          ⟨hidle.phase, hidle.pins, hidle.flags⟩
      · exact h
  | rxRead i =>
    simp only [Machine.hostAct, rxRead] at ht
    split at ht
    · cases ht
    · split at ht <;> cases ht <;> exact h.ports _ _ _

theorem Sound.resetEngine {s : State} (h : Sound s) : Sound (resetEngine s) :=
  sound_of_idle rfl h.agenda rfl rfl ⟨rfl, rfl, rfl⟩

/-- Other lines may be pulled than before, but none of the engine's while `BUSY = 1`. -/
theorem Sound.extPull {s : State} (h : Sound s) (l : List Nat)
    (hl : s.busy = true → State.pinsTaken { s with extPull := l } = false) : Sound { s with extPull := l } :=
  { h with running := fun hb => { h.running hb with lines := hl hb }, idle := fun hb => { h.idle hb with } }

theorem Sound.pullLine {s t : State} {p : Nat} (h : Sound s) (ht : pullLine p s = .next t) : Sound t := by
  simp only [Machine.pullLine] at ht
  split at ht
  · cases ht
  · next hfree =>
    cases ht
    exact h.extPull _ fun hb => by simpa [hb] using hfree

theorem Sound.releaseLine {s : State} (h : Sound s) (p : Nat) : Sound (releaseLine p s) :=
  h.extPull _ fun hb => by
    have hlines := (h.running hb).lines
    simp only [State.pinsTaken, Bool.or_eq_false_iff, List.contains_eq_mem, decide_eq_false_iff_not,
      List.mem_filter] at hlines ⊢
    exact ⟨fun hm => hlines.1 hm.1, fun hm => hlines.2 hm.1⟩

/-! ## The step -/

theorem Sound.agenda_tail {s : State} {turn : Turn} {rest : List Turn} (h : Sound s) (ha : s.agenda = turn :: rest) :
    turn.lawful = true ∧ Sound { s with agenda := rest } := by
  have hall := h.agenda
  rw [ha, List.all_cons, Bool.and_eq_true] at hall
  exact ⟨hall.1, { h with
    agenda := hall.2, running := fun hb => { h.running hb with }, idle := fun hb => { h.idle hb with } }⟩

/-- Every turn the spec lets an agent take keeps the invariant. -/
theorem Sound.takeTurn {s t : State} {turn : Turn} (h : Sound s) (hl : turn.lawful = true)
    (ht : takeTurn turn s = .next t) : Sound t := by
  cases turn with
  | engine => exact (inv_iff t).mp (inv_engineTurn ((inv_iff s).mpr h) ht)
  | host op => exact h.hostAct ht
  | issue e =>
    cases e with
    | cmd w => exact h.issue_cmd ht
    | prim => cases hl
    | uop => cases hl
  | rst => cases ht; exact h.resetEngine
  | pull p => exact h.pullLine ht
  | release p => cases ht; exact h.releaseLine p

/-- Settles O48: the step takes the first turn of the agenda, which is lawful, or the engine's. -/
theorem stepKeepsInvariant : Obligations.StepKeepsInvariant := by
  unfold Obligations.StepKeepsInvariant
  intro s t hI h
  have hs : Sound s := (inv_iff s).mp hI
  cases ha : s.agenda with
  | nil => rw [step_of_agenda_nil ha] at h; exact inv_engineTurn hI h
  | cons turn rest =>
    obtain ⟨hl, hs'⟩ := hs.agenda_tail ha
    have ht : takeTurn turn { s with agenda := rest } = .next t := by simpa [step, ha] using h
    exact (inv_iff t).mpr (hs'.takeTurn hl ht)

/-- Settles O47: after reset the engine is idle, with empty buffers. -/
theorem resetSatisfiesInvariant : Obligations.ResetSatisfiesInvariant := by
  unfold Obligations.ResetSatisfiesInvariant
  obtain ⟨htx, hrx⟩ := State.reset_buffers_wf
  exact (inv_iff _).mpr (sound_of_idle rfl rfl htx hrx ⟨rfl, rfl, rfl⟩)

/-! ## What the invariant says of the pins -/

/-- The micro-operation the position names, from the table of its primitive. -/
theorem Runnable.primSeq_ustep {s : State} {u : Uop} (h : Runnable s) (hu : s.uopAt = some u) :
    (primSeq s.prim s.dataBit)[s.ustep.toNat]? = some u := by
  rwa [State.uopAt, if_neg h.driving_phase] at hu

theorem primSeq_sample {p : Prim} {v : Bool} {u : Nat} (h : (primSeq p v)[u]? = some .sample) :
    (p = .rbyte ∨ p = .wack) ∧ u = 5 := by
  have hlt : u < 9 := lt_of_lt_of_le (List.getElem?_eq_some_iff.mp h).1 (primSeq_length_le p v)
  cases p with
  | rbyte | wack => interval_cases u <;> simp [primSeq] at h ⊢
  | wbyte => cases v <;> simpa [primSeq, bitSeq] using List.mem_of_getElem? h
  | _ => simpa [primSeq, bitSeq] using List.mem_of_getElem? h

/-- Settles O51: `SAMPLE` stands at `USTEP` 5 of `RBYTE` and `WACK` only. -/
theorem sampleOnlyUnderHighClock : Obligations.SampleOnlyUnderHighClock := by
  unfold Obligations.SampleOnlyUnderHighClock
  intro s hI hb hu
  have r := ((inv_iff s).mp hI).running hb
  obtain ⟨hp, hstep⟩ := primSeq_sample (r.primSeq_ustep hu)
  have hdir := r.dir
  have hscl := r.scl
  rw [hstep] at hdir hscl
  rcases hp with hp | hp <;> rw [hp] at hdir hscl <;> exact ⟨hdir, hscl⟩

/-- Only four of the micro-operations can move `SDA_EFF`. -/
theorem uop_of_sdaEff_ne {u : Uop} {s : State} (h : s.sdaEff ≠ (doUop u s).sdaEff) :
    u = .sdaLo ∨ u = .sdaHi ∨ u = .dirOut ∨ u = .dirIn := by
  cases u with
  | sclLo | sclHi | wait | sample => exact absurd rfl h
  | sdaLo | sdaHi | dirOut | dirIn => simp

/-- Where a primitive touches the data line with the clock high before: the first micro-operation of `START`, and the
two that frame a transaction. -/
theorem primSeq_data_under_high_clock {p : Prim} {v first : Bool} {u : Nat}
    (hd : (primSeq p v)[u]? ∈ [some .sdaLo, some .sdaHi, some .dirOut, some .dirIn])
    (hc : sclBefore first p u = true) : (p = .start ∧ u = 0) ∨ (p = .start ∧ u = 3) ∨ (p = .stop ∧ u = 4) := by
  have hlt : u < 9 := by
    by_contra hge
    have hlen := primSeq_length_le p v
    rw [List.getElem?_eq_none (by omega)] at hd
    simp at hd
  cases p with
  | start => interval_cases u <;> simp_all [primSeq]
  | stop =>
    have hu : 3 ≤ u := by simpa [sclBefore] using hc
    interval_cases u <;> simp_all [primSeq]
  | wbyte | mack | mnack =>
    have hu : 3 ≤ u ∧ u ≤ 4 := by simpa [sclBefore] using hc
    obtain ⟨hlo, hhi⟩ := hu
    interval_cases u <;> simp_all [primSeq, bitSeq]
  | rbyte =>
    have hu : 4 ≤ u ∧ u ≤ 6 := by simpa [sclBefore] using hc
    obtain ⟨hlo, hhi⟩ := hu
    interval_cases u <;> simp_all [primSeq]
  | wack =>
    have hu : 4 ≤ u ∧ u ≤ 7 := by simpa [sclBefore] using hc
    obtain ⟨hlo, hhi⟩ := hu
    interval_cases u <;> simp_all [primSeq]
  | turn | wbit | rbit => cases hc

theorem sdaEff_of_pins {s t : State} (h : t.pins = s.pins) : t.sdaEff = s.sdaEff := by
  simp only [State.pins, Pins.mk.injEq] at h
  simp only [State.sdaEff, h.2.1, h.2.2]

theorem sdaEff_of_out {s : State} (h : s.sdaDir = .out) : s.sdaEff = s.sdaOut := by simp [State.sdaEff, h]

/-- Settles O50: only the micro-operation moves the pins, and of those that touch the data line under a high clock the
first of `START` finds it released already. -/
theorem dataMovesUnderHighClockOnlyInFraming : Obligations.DataMovesUnderHighClockOnlyInFraming := by
  unfold Obligations.DataMovesUnderHighClockOnlyInFraming
  intro s t hI hb ht hclk _ hne
  have r := ((inv_iff s).mp hI).running hb
  obtain ⟨u, hu⟩ := r.uopAt
  rw [engineTurn_of_uopAt hb r.lines hu] at ht
  rw [sdaEff_of_pins (moved_afterUop ht).pins] at hne
  have hdir := r.dir
  have hsda := r.sda
  have hseq := r.primSeq_ustep hu
  rcases primSeq_data_under_high_clock (by rw [hseq]; simpa using uop_of_sdaEff_ne hne) (r.scl.symm.trans hclk) with
    ⟨hp, h0⟩ | ⟨hp, h3⟩ | ⟨hp, h4⟩
  · rw [hp, h0] at hseq hdir hsda
    cases hseq
    have heff : s.sdaEff = true := (sdaEff_of_out hdir).trans (hsda true rfl)
    have heff' : (doUop .sdaHi s).sdaEff = true := sdaEff_of_out (s := sdaHi s) hdir
    exact absurd (heff.trans heff'.symm) hne
  · rw [hp, h3] at hdir hsda
    exact .inl ⟨hp, BitVec.eq_of_toNat_eq h3, (sdaEff_of_out hdir).trans (hsda true rfl)⟩
  · rw [hp, h4] at hdir hsda
    exact .inr ⟨hp, BitVec.eq_of_toNat_eq h4, (sdaEff_of_out hdir).trans (hsda false rfl)⟩

/-! ## The pulls -/

theorem sdaEff_eq_false_iff (s : State) : s.sdaEff = false ↔ s.sdaDir = .out ∧ s.sdaOut = false := by
  cases hd : s.sdaDir <;> simp [State.sdaEff, hd]

/-- With two distinct pins, or with both lines released, no pull of one line is taken for one of the other. -/
theorem pullsLow_iff {s : State} (h : s.sclPin ≠ s.sdaPin ∨ (s.sdaEff = true ∧ s.sclEff = true)) :
    (s.pullsLow s.sdaPin.toNat = true ↔ s.sdaEff = false) ∧ (s.pullsLow s.sclPin.toNat = true ↔ s.sclEff = false) := by
  rcases h with hne | ⟨hsda, hscl⟩
  · have hne' : s.sclPin.toNat ≠ s.sdaPin.toNat := fun e => hne (BitVec.eq_of_toNat_eq e)
    simp [State.pullsLow, hne', hne'.symm]
  · simp [State.pullsLow, hsda, hscl]

/-- In a state of the invariant the engine is idle, both lines released, or has a valid configuration. -/
theorem Sound.pins_distinct_or_released {s : State} (h : Sound s) :
    s.sclPin ≠ s.sdaPin ∨ (s.sdaEff = true ∧ s.sclEff = true) := by
  cases hb : s.busy with
  | true => exact .inl ((cfgValid_iff s).mp (h.running hb).cfg).1
  | false =>
    obtain ⟨hscl, hsda, hdir⟩ := (pinsIdle_iff s).mp (h.idle hb).pins
    exact .inr ⟨(sdaEff_of_out hdir).trans hsda, hscl⟩

/-- Settles O52: what is left to see is that the two pins differ, or both lines are released. -/
theorem engineDrivesOnlyItsTwoLines : Obligations.EngineDrivesOnlyItsTwoLines := by
  unfold Obligations.EngineDrivesOnlyItsTwoLines
  intro s
  refine ⟨sdaEff_eq_false_iff s, rfl, fun h => pullsLow_iff ?_, fun p hsda hscl => ?_, fun hdir => ?_⟩
  · exact h.elim .inl fun hI => ((inv_iff s).mp hI).pins_distinct_or_released
  · simp [State.pullsLow, hsda, hscl]
  · simp [State.sdaEff, hdir]

/-- Settles O59: both pins of the configuration are line 0, so it is invalid, and both lines are released. -/
theorem resetValues : Obligations.ResetValues := by
  unfold Obligations.ResetValues
  refine ⟨rfl, rfl, rfl, rfl, rfl, rfl, rfl, rfl, rfl, rfl, rfl, fun _ => ⟨rfl, rfl⟩, ?_, fun p => ?_⟩
  · simp [State.cfgValid, State.reset]
  · simp [State.pullsLow, State.sdaEff, State.sclEff, State.reset]

end Sys2Proof.Machine
end

section
/-! PROOFS. Family 20_memory: a write command that comes to a payload byte nothing has written (O30). Acknowledged slots
bring it to the payload loop and there past the bytes that are written, with `TXMEM` as it was. -/

namespace Sys2Proof.Machine

theorem State.holds.of_went {s t : State} {bs : List Byte} {tr : List Tok} {n : Nat} (h : s.holds bs)
    (hw : Went s t tr n) : t.holds bs := by
  unfold State.holds
  rw [hw.txmem]
  exact h

theorem State.pollsOk.of_went {s t : State} {ks : List Nat} {tr : List Tok} {n : Nat} (h : s.pollsOk ks)
    (hw : Went s t tr n) : t.pollsOk ks := by
  unfold State.pollsOk
  rw [hw.retryN]
  exact h

/-- The payload loop stops at the first byte nothing has written (`20_memory.md` R64). -/
theorem writeData_of_unwritten {s : State} {bs : List Byte} {ks : List Nat} (hd : s.sdaDir = .out)
    (hlt : bs.length < s.nBytes.toNat) (hbs : s.holds bs) (hnone : Memory.read s.txmem bs.length = none)
    (hl : ks.length = bs.length) (hp : s.pollsOk ks) (hw : s.willAnswer (ackAnswers ks)) :
    writeData s = .fault .txUnwritten := by
  have hlen := s.nBytes.isLt
  obtain ⟨r, hr⟩ : ∃ r, s.nBytes.toNat = bs.length + (r + 1) := ⟨s.nBytes.toNat - bs.length - 1, by omega⟩
  obtain ⟨t, hgo, hwent, -, hcount⟩ := writePayload_ack (s := clearBytecnt s) (m := []) (r := r + 1) hd hl hp
    (by rw [List.append_nil]; exact hw) (by simpa [clearBytecnt, State.holds] using hbs) (by simp [clearBytecnt]; omega)
  have hbyte : t.txByte = none := by
    rw [State.txByte, hwent.txmem, hcount]
    simpa [clearBytecnt] using hnone
  rw [writeData, hr, hgo, writePayload, hbyte]

/-- The same once the slots of address and register, `pre`, are to be sent before the payload. -/
theorem sendAll_writeData_of_unwritten {s : State} {pre bs : List Byte} {ks : List Nat} (hne : pre ≠ [])
    (hlt : bs.length < s.nBytes.toNat) (hbs : s.holds bs) (hnone : Memory.read s.txmem bs.length = none)
    (hl : ks.length = pre.length + bs.length) (hp : s.pollsOk ks) (hw : s.willAnswer (ackAnswers ks)) :
    sendAll pre writeData s = .fault .txUnwritten := by
  obtain ⟨ks₁, ks₂, rfl, hl₁⟩ : ∃ ks₁ ks₂, ks = ks₁ ++ ks₂ ∧ ks₁.length = pre.length :=
    ⟨ks.take pre.length, ks.drop pre.length, (List.take_append_drop ..).symm, by simp; omega⟩
  obtain ⟨hp₁, hp₂⟩ := pollsOk_append hp
  rw [ackAnswers_append] at hw
  obtain ⟨t, hgo, hwent, hw₂⟩ := sendAll_ack writeData hne hl₁ hp₁ hw
  rw [hgo]
  exact writeData_of_unwritten hwent.dir (by rw [hwent.nBytes]; exact hlt) (hbs.of_went hwent)
    (by rw [hwent.txmem]; exact hnone) (by simp at hl; omega) (hp₂.of_went hwent) hw₂

/-- Settles O30: the launch leaves `LEN`, `TXMEM` and the retry bound alone, and the slots are those of the address and
the register before those of the payload. -/
theorem writeOfUnwrittenByteFaults : Obligations.WriteOfUnwrittenByteFaults := by
  unfold Obligations.WriteOfUnwrittenByteFaults
  intro s dev reg bs ks h hlt hbs hnone hp hw
  have hfault : ∀ (w : Word) (pre : List Byte), pre ≠ [] → ks.length = pre.length + bs.length →
      sendAll pre writeData (afterStart w s) = .fault .txUnwritten := fun w pre hne hl => by
    have hw' := willAnswer_afterStart (w := w) hw
    rw [afterStart_eq] at hw' ⊢
    exact sendAll_writeData_of_unwritten hne hlt hbs hnone hl hp hw'
  rw [exec_wr8_of_ready h, exec_wr16_of_ready h]
  exact ⟨hfault _ [adb dev false, regLo reg] (by simp), hfault _ [adb dev false, regHi reg, regLo reg] (by simp)⟩

end Sys2Proof.Machine
end

section
/-! PROOFS. Family 30_encoding: decoding and encoding agree, whole words in both directions (O1, O2), the worked words
and the enumerations (O3, O4), the refusal of reserved words (O23), the unused `PRIM` numbers (O5), the address byte (O6),
and the step as the turn it takes (O7). -/

namespace Sys2Proof.Machine

/-! ## Command words -/

/-- `OP` is one of eight (`30_encoding.md` R91, R92). -/
theorem op_cases (op : BitVec 3) :
    op = 0 ∨ op = 1 ∨ op = 2 ∨ op = 3 ∨ op = 4 ∨ op = 5 ∨ op = 6 ∨ op = 7 := by
  revert op; decide

/-- A word with `RSV` not 0 is reserved whatever its `OP` is (`30_encoding.md` R104). -/
theorem decodeCmd_cmdWord_of_rsv_ne {rsv : BitVec 6} (h : rsv ≠ 0) (reg : RegAddr) (dev : DevAddr) (op : BitVec 3) :
    decodeCmd (cmdWord rsv reg dev op) = .reservedRsv op dev reg rsv := by
  simp only [decodeCmd, cmdRsv_cmdWord, cmdOp_cmdWord, cmdDev_cmdWord, cmdReg_cmdWord, if_pos h]

/-- A property of words holds of all if it holds of those with `RSV` not 0 and of those with `RSV` 0. -/
theorem word_cases {P : Word → Prop} (hrsv : ∀ rsv reg dev op, rsv ≠ 0 → P (cmdWord rsv reg dev op))
    (hop : ∀ reg dev op, P (cmdWord 0 reg dev op)) (w : Word) : P w := by
  rw [← cmdWord_fields w]
  by_cases h : cmdRsv w = 0
  · rw [h]; exact hop _ _ _
  · exact hrsv _ _ _ _ h

theorem encode_decodeCmd (w : Word) : encode (decodeCmd w) = .cmd w := by
  induction w using word_cases with
  | hrsv rsv reg dev op h => rw [decodeCmd_cmdWord_of_rsv_ne h, encode]
  | hop reg dev op =>
    rcases op_cases op with rfl | rfl | rfl | rfl | rfl | rfl | rfl | rfl <;> simp [decodeCmd, encode]

theorem decodeCmd_isCommand (w : Word) : (decodeCmd w).isCommand = !cmdReserved w := by
  induction w using word_cases with
  | hrsv rsv reg dev op h =>
    rw [decodeCmd_cmdWord_of_rsv_ne h, cmdReserved_cmdWord, bne_iff_ne.mpr h]; rfl
  | hop reg dev op =>
    rw [cmdReserved_cmdWord]
    rcases op_cases op with rfl | rfl | rfl | rfl | rfl | rfl | rfl | rfl <;> simp [decodeCmd, Instr.isCommand]

/-- Settles O2: a word is its four fields, of which `RSV` and `OP` choose the row. -/
theorem everyCommandWordHasOneMeaning : Obligations.EveryCommandWordHasOneMeaning := by
  unfold Obligations.EveryCommandWordHasOneMeaning
  exact fun w => ⟨encode_decodeCmd w, decodeCmd_wf w, decodeCmd_isCommandWord w, decodeCmd_isCommand w⟩

/-! ## Every instruction -/

/-- Settles O1, row by row: a command word gives back the fields it was built from; the numbers of the primitives and of
the micro-operations are read from the tables they were written from. -/
theorem decodeEncodeAgree : Obligations.DecodeEncodeAgree := by
  unfold Obligations.DecodeEncodeAgree
  intro i hw
  cases i with
  | probe | wr8 | rd8 | wr16 | rd16 | reservedOp3 | reservedOp4 | reservedOp7 => simp [encode, decode, decodeCmd]
  | reservedRsv op dev reg rsv =>
    have hrsv : rsv ≠ 0 := by simpa [Instr.wf] using hw
    rw [encode, decode, decodeCmd_cmdWord_of_rsv_ne hrsv]
  | wbit v => cases v <;> rfl
  | _ => rfl

/-- To know what an encoding decodes to, encode that. -/
theorem decode_of_encode {i : Instr} {e : Encoded} (hw : i.wf = true) (h : encode i = e) : decode e = .ok i :=
  h ▸ decodeEncodeAgree i hw

/-- Settles O4: each number is the encoding of its row. -/
theorem enumerationsDecode : Obligations.EnumerationsDecode := by
  unfold Obligations.EnumerationsDecode
  and_intros <;> exact decode_of_encode rfl rfl

/-! ## Reserved words -/

/-- While `BUSY = 0` a reserved word completes at once with `CMDERR` (`30_encoding.md` R104, `60_exceptions.md` R233). -/
theorem exec_reserved {i : Instr} {s : State} (hi : i.isCommandWord = true) (hw : i.wf = true)
    (hc : i.isCommand = false) (hb : s.busy = false) :
    exec i s = .next (refuseCmdErr (acceptWord (wordOf i) s)) := by
  obtain ⟨hr, he⟩ := exec_eq_launch hi hw hc
  rw [he]
  rcases launch_cases (wordOf i) s with ⟨hb', -⟩ | ⟨-, -, hl⟩ | ⟨-, hr', -⟩ | ⟨-, hr', -⟩ | ⟨hr', -⟩
  · simp [hb] at hb'
  · exact hl
  all_goals simp [hr] at hr'

/-- Settles O23: all four rows are refused by the same launch, which leaves the state named in the statement. -/
theorem reservedWordsAreRefused : Obligations.ReservedWordsAreRefused := by
  unfold Obligations.ReservedWordsAreRefused
  intro s op dev reg rsv hb
  refine ⟨exec_reserved rfl rfl rfl hb, exec_reserved rfl rfl rfl hb, exec_reserved rfl rfl rfl hb, fun hrsv => ?_,
    fun w => ⟨rfl, ?_⟩⟩
  · exact exec_reserved rfl (bne_iff_ne.mpr hrsv) rfl hb
  · simp [State.statusWord, hb]

/-- Settles O3: each word is the encoding of its row of the table; the two reserved ones are refused. -/
theorem workedCommandWordsDecode : Obligations.WorkedCommandWordsDecode := by
  unfold Obligations.WorkedCommandWordsDecode
  refine ⟨?_, ?_, ?_, ?_, ?_, ?_, ?_, ?_, ?_, ?_, ?_, fun s hb =>
    ⟨⟨_, exec_reserved rfl rfl rfl hb, rfl⟩, ⟨_, exec_reserved rfl rfl rfl hb, rfl⟩⟩⟩ <;>
    exact decode_of_encode rfl rfl

/-! ## Unused numbers, and the step -/

theorem step_of_agenda_cons {s : State} {turn : Turn} {rest : List Turn} (h : s.agenda = turn :: rest) :
    step s = takeTurn turn { s with agenda := rest } := by simp [step, h]

theorem decodePrim_of_unused {code : BitVec 4} (operand : Byte) (h : 10 ≤ code.toNat) :
    decodePrim code operand = .error (.unusedPrim code) := by
  unfold decodePrim
  split
  case h_11 => rfl
  all_goals omega

/-- Settles O5: the error of decoding is the reason the turn is refused for. -/
theorem unusedPrimitiveNumbersAreRefused : Obligations.UnusedPrimitiveNumbersAreRefused := by
  unfold Obligations.UnusedPrimitiveNumbersAreRefused
  intro code operand h
  have herr : decode (.prim code operand) = .error (.unusedPrim code) := decodePrim_of_unused operand h
  refine ⟨herr, fun s rest ha => ?_⟩
  rw [step_of_agenda_cons ha, takeTurn, issueTurn, herr]

theorem issueTurn_of_decode {e : Encoded} {i : Instr} (h : decode e = .ok i) (s : State) :
    issueTurn e s = exec i s := by
  rw [issueTurn, h]

/-- Settles O7: the step takes the first turn of the agenda, and each kind of turn is one function. -/
theorem stepRunsIssuedInstruction : Obligations.StepRunsIssuedInstruction := by
  unfold Obligations.StepRunsIssuedInstruction
  intro s rest
  exact ⟨fun _ _ ha hd => (step_of_agenda_cons ha).trans (issueTurn_of_decode hd _),
    fun _ ha => step_of_agenda_cons ha, fun _ ha => step_of_agenda_cons ha, fun _ _ ha => step_of_agenda_cons ha,
    fun _ _ ha => step_of_agenda_cons ha, fun _ ha => step_of_agenda_cons ha, fun ha => step_of_agenda_cons ha,
    fun _ ha => step_of_agenda_cons ha, fun _ ha => step_of_agenda_cons ha⟩

/-! ## The address byte -/

theorem toNat_adb (dev : DevAddr) (rw : Bool) : (adb dev rw).toNat = 2 * dev.toNat + rw.toNat := by
  have h : (adb dev rw).toNat = dev.toNat <<< 1 ||| rw.toNat :=
    (BitVec.toNat_append dev (BitVec.ofBool rw)).trans (by rw [BitVec.toNat_ofBool])
  rw [h, ← Nat.shiftLeft_add_eq_or_of_lt (Bool.toNat_lt rw), Nat.shiftLeft_eq, Nat.mul_comm]

theorem adb_eq_shift (dev : DevAddr) (rw : Bool) : adb dev rw = (dev.setWidth 8 <<< 1) ||| (if rw then 1 else 0) := by
  have h : (adb dev rw).setWidth 8 = (dev.setWidth 8 <<< 1) ||| (BitVec.ofBool rw).setWidth 8 :=
    BitVec.setWidth_append_eq_shiftLeft_setWidth_or
  rw [BitVec.setWidth_eq] at h
  rw [h]
  cases rw <;> rfl

/-- Settles O6: the byte is `DEV` with one bit below it. -/
theorem addressByteIsShiftedAddress : Obligations.AddressByteIsShiftedAddress := by
  unfold Obligations.AddressByteIsShiftedAddress
  refine ⟨fun dev rw => ⟨toNat_adb dev rw, ?_, ?_, adb_eq_shift dev rw⟩, rfl, rfl, rfl, rfl, rfl⟩
  · exact BitVec.extractLsb'_append_eq_left
  · exact (BitVec.getLsbD_append (x := dev) (y := BitVec.ofBool rw)).trans (by simp)

end Sys2Proof.Machine
end

section
/-! PROOFS. Family 30_encoding: fields a command ignores (O35, `30_encoding.md` R105). A command never reads `CMD`, and
`PROBE` never reads `LEN`, so rewriting these registers before a command or after it leaves the same state. -/

namespace Sys2Proof.Machine

/-! ## Rewriting `CMD` and `LEN` -/

/-- `CMD` and `LEN` rewritten, each by a function of what it holds. -/
def rewriteRegs (f : Word → Word) (g : Len → Len) (s : State) : State :=
  { s with cmd := f s.cmd, nBytes := g s.nBytes }

/-- The outcome with its next state changed by `r`. -/
def mapNext (r : State → State) (o : Out) : Out :=
  match o with
  | .next t => .next (r t)
  | .fault e => .fault e
  | .refused e => .refused e

/-- What `c` does does not depend on what `r` changes, and `c` does not disturb it. -/
def CommutesWith (r : State → State) (c : State → Out) : Prop := ∀ s, c (r s) = mapNext r (c s)

theorem blotCmd_eq (o : Out) : blotCmd o = mapNext (rewriteRegs (fun _ => 0) id) o := by cases o <;> rfl

theorem blotLen_eq (o : Out) : blotLen o = mapNext (rewriteRegs id fun _ => 0) o := by cases o <;> rfl

/-! ## Slots -/

section
variable (f : Word → Word) (g : Len → Len)

theorem wbyteP_rewriteRegs (b : Byte) (s : State) :
    wbyteP b (rewriteRegs f g s) = rewriteRegs f g (wbyteP b s) := by
  rw [wbyteP_eq, wbyteP_eq]; rfl

theorem wackLoop_rewriteRegs (k : Nat) (s : State) :
    wackLoop k (rewriteRegs f g s) = rewriteRegs f g (wackLoop k s) := by
  induction k generalizing s with
  | zero => rfl
  | succ k ih =>
    have hpoll : pollOnce (rewriteRegs f g s) = rewriteRegs f g (pollOnce s) := rfl
    have hnext := ih (waitOne (pollOnce s))
    simp only [wackLoop, hpoll]
    generalize pollOnce s = t at hnext ⊢
    change (if t.bit = false then rewriteRegs f g (setAck true t) else if t.retrycnt = t.retryN then
      rewriteRegs f g (setAck false t) else wackLoop k (rewriteRegs f g (waitOne t))) = _
    rw [hnext, apply_ite (rewriteRegs f g), apply_ite (rewriteRegs f g)]

theorem wackP_rewriteRegs (s : State) : wackP (rewriteRegs f g s) = rewriteRegs f g (wackP s) := by
  have hstart : clearRetry (waitOne (sclHi (waitOne (dirIn (sdaHi (rewriteRegs f g s)))))) =
      rewriteRegs f g (clearRetry (waitOne (sclHi (waitOne (dirIn (sdaHi s)))))) := rfl
  rw [wackP, wackP, hstart, wackLoop_rewriteRegs]; rfl

theorem finishCommand_rewriteRegs (s : State) :
    finishCommand (rewriteRegs f g s) = rewriteRegs f g (finishCommand s) := rfl

theorem abortCommand_rewriteRegs (s : State) :
    abortCommand (rewriteRegs f g s) = rewriteRegs f g (abortCommand s) := rfl

end

theorem CommutesWith.sendByte {f : Word → Word} {g : Len → Len} {c : State → Out}
    (h : CommutesWith (rewriteRegs f g) c) (b : Byte) : CommutesWith (rewriteRegs f g) (sendByte b c) := by
  intro s
  simp only [Machine.sendByte, wbyteP_rewriteRegs, wackP_rewriteRegs, abortCommand_rewriteRegs]
  rw [apply_ite (mapNext (rewriteRegs f g)), ← h]
  rfl

/-! ## The payload -/

theorem writePayload_commutesWith (f : Word → Word) (r : Nat) :
    CommutesWith (rewriteRegs f id) (writePayload r) := by
  induction r with
  | zero => exact fun s => congrArg Host.Outcome.next (finishCommand_rewriteRegs f id s)
  | succ r ih =>
    intro s
    have htx : (rewriteRegs f id s).txByte = s.txByte := rfl
    have hnext : CommutesWith (rewriteRegs f id) fun t => writePayload r (countByte t) := fun t => ih (countByte t)
    rw [writePayload, writePayload, htx]
    cases s.txByte with
    | none => rfl
    | some b => exact hnext.sendByte b s

theorem readRound_rewriteRegs (f : Word → Word) (s : State) :
    readRound (rewriteRegs f id s) = rewriteRegs f id (readRound s) := by
  rw [readRound_eq, readRound_eq]; rfl

theorem readPayload_rewriteRegs (f : Word → Word) (r : Nat) (s : State) :
    readPayload r (rewriteRegs f id s) = rewriteRegs f id (readPayload r s) := by
  induction r generalizing s with
  | zero => exact finishCommand_rewriteRegs f id s
  | succ r ih => rw [readPayload_succ, readPayload_succ, readRound_rewriteRegs, ih]

theorem writeData_commutesWith (f : Word → Word) : CommutesWith (rewriteRegs f id) writeData :=
  fun s => writePayload_commutesWith f s.nBytes.toNat (clearBytecnt s)

theorem readData_commutesWith (f : Word → Word) (dev : DevAddr) : CommutesWith (rewriteRegs f id) (readData dev) := by
  have hpayload : CommutesWith (rewriteRegs f id) fun t => .next (readPayload t.nBytes.toNat (clearBytecnt t)) :=
    fun t => congrArg Host.Outcome.next (readPayload_rewriteRegs f t.nBytes.toNat (clearBytecnt t))
  exact fun s => hpayload.sendByte (adb dev true) (startP (turnP s))

/-! ## The bodies -/

theorem probeBody_commutesWith (f : Word → Word) (g : Len → Len) (dev : DevAddr) :
    CommutesWith (rewriteRegs f g) (probeBody dev) := by
  intro s
  have hstart : startP (rewriteRegs f g s) = rewriteRegs f g (startP s) := rfl
  simp only [probeBody, hstart, wbyteP_rewriteRegs, wackP_rewriteRegs]
  generalize wackP (wbyteP (adb dev false) (startP s)) = t
  have hack : (rewriteRegs f g t).ackbit = t.ackbit := rfl
  rw [hack]
  cases t.ackbit <;> rfl

theorem wr8Body_commutesWith (f : Word → Word) (dev : DevAddr) (reg : RegAddr) :
    CommutesWith (rewriteRegs f id) (wr8Body dev reg) :=
  fun s => ((writeData_commutesWith f).sendByte (regLo reg)).sendByte (adb dev false) (startP s)

theorem rd8Body_commutesWith (f : Word → Word) (dev : DevAddr) (reg : RegAddr) :
    CommutesWith (rewriteRegs f id) (rd8Body dev reg) :=
  fun s => ((readData_commutesWith f dev).sendByte (regLo reg)).sendByte (adb dev false) (startP s)

/-! ## The launch -/

/-- A launch looks at `CMD` only to see whether the word is reserved, and at `LEN` not at all. -/
theorem mapNext_launch {f : Word → Word} {w : Word} (hf : cmdReserved (f w) = cmdReserved w) (g : Len → Len)
    (s : State) : mapNext (rewriteRegs f g) (launch w s) = launch (f w) (rewriteRegs f g s) := by
  have hbusy : (rewriteRegs f g s).busy = s.busy := rfl
  have hcfg : (rewriteRegs f g s).cfgValid = s.cfgValid := rfl
  have hpins : (rewriteRegs f g s).pinsTaken = s.pinsTaken := rfl
  simp only [launch, hbusy, hf, hcfg, hpins]
  split_ifs <;> rfl

/-- A command launched with the rewritten word ends as the command does, rewritten. -/
theorem mapNext_runCommand {f : Word → Word} {g : Len → Len} {body : State → Out} {w : Word}
    (h : CommutesWith (rewriteRegs f g) body) (hf : cmdReserved (f w) = cmdReserved w) (s : State) :
    mapNext (rewriteRegs f g) (runCommand w body s) = runCommand (f w) body (rewriteRegs f g s) := by
  rw [runCommand, runCommand, ← mapNext_launch hf]
  cases launch w s with
  | next t =>
    have hbusy : (rewriteRegs f g t).busy = t.busy := rfl
    simp only [mapNext, hbusy, h t]
    split_ifs <;> rfl
  | fault e => rfl
  | refused e => rfl

/-- The outcome without `CMD` does not depend on which word that is not reserved ran the body. -/
theorem blotCmd_runCommand {body : State → Out} {w w' : Word} (h : CommutesWith (rewriteRegs (fun _ => 0) id) body)
    (hw : cmdReserved w = false) (hw' : cmdReserved w' = false) (s : State) :
    blotCmd (runCommand w body s) = blotCmd (runCommand w' body s) := by
  rw [blotCmd_eq, blotCmd_eq, mapNext_runCommand h hw.symm, mapNext_runCommand h hw'.symm]

/-- Settles O35: the body of `PROBE` takes no register address, those of `WR8` and `RD8` its low byte, and what is left
of the ignored fields stands in `CMD`, or in `LEN`, alone. -/
theorem ignoredFieldsHaveNoEffect : Obligations.IgnoredFieldsHaveNoEffect := by
  unfold Obligations.IgnoredFieldsHaveNoEffect
  intro s dev reg reg' n
  have free : ∀ i : Instr, i.isCommand = true → cmdReserved (wordOf i) = false := fun _ h => (exec_eq_runCommand h).1
  refine ⟨?_, ?_, fun hlo => ⟨?_, ?_⟩⟩
  · exact blotCmd_runCommand (probeBody_commutesWith _ _ dev) (free (.probe dev reg) rfl) (free (.probe dev reg') rfl) s
  · have hrun := mapNext_runCommand (w := cmdWord 0 reg dev 0) (probeBody_commutesWith id (fun _ => 0) dev) rfl
    rw [blotLen_eq, blotLen_eq]
    exact (hrun s).trans (hrun { s with nBytes := n }).symm
  · have hbody : wr8Body dev reg = wr8Body dev reg' := by funext t; rw [wr8Body, wr8Body, hlo]
    simp only [exec, execWr8, hbody]
    exact blotCmd_runCommand (wr8Body_commutesWith _ dev reg') (free (.wr8 dev reg) rfl) (free (.wr8 dev reg') rfl) s
  · have hbody : rd8Body dev reg = rd8Body dev reg' := by funext t; rw [rd8Body, rd8Body, hlo]
    simp only [exec, execRd8, hbody]
    exact blotCmd_runCommand (rd8Body_commutesWith _ dev reg') (free (.rd8 dev reg) rfl) (free (.rd8 dev reg') rfl) s

end Sys2Proof.Machine
end

section
/-! PROOFS. Family 40_pin_microops: what each micro-operation does (O10 to O13), the level of a line (O53), the engine
turn that issues one (O8) and what it leaves unchanged (O46), and the machine one micro-operation at a time, which comes
to the outcome of the whole command (O42). -/

namespace Sys2Proof.Machine

/-! ## Level 0 -/

/-- Settles O10: `SDA_EFF` is the latch in driven mode, 1 in input mode, and 1 with the latch at 1 in either. -/
theorem latchMicroOperations : Obligations.LatchMicroOperations := by
  unfold Obligations.LatchMicroOperations
  intro s
  refine ⟨rfl, rfl, rfl, rfl, fun hd env => ?_, fun hd env => ?_, fun env => ?_⟩
  · simp [State.sdaLine, State.sdaEff, hd]
  · simp [State.sdaLine, State.sdaEff, hd]
  · cases s.sdaDir <;> simp [State.sdaLine, State.sdaEff]

/-- Settles O11: the latch at 1 releases the line in driven mode as input mode does whatever the latch holds. -/
theorem directionMicroOperations : Obligations.DirectionMicroOperations := by
  unfold Obligations.DirectionMicroOperations
  intro s
  refine ⟨rfl, rfl, rfl, fun hout => ?_⟩
  cases hd : s.sdaDir <;> simp [State.sdaEff, hd, hout]

/-- Settles O12: the delay counter ends at 0 from every `DELAY`. -/
theorem waitOnlyRunsDelayCounter : Obligations.WaitOnlyRunsDelayCounter := by
  unfold Obligations.WaitOnlyRunsDelayCounter
  exact fun s => ⟨congrArg Host.Outcome.next (waitOne_eq s), congrArg Host.Outcome.next (turnP_eq s)⟩

theorem sampleSda_eq (s : State) : sampleSda s = { s with
    bit := s.sdaEff && s.envAt 0, answers := s.answers.tail, sampleNo := s.sampleNo + 1
    trace := s.trace ++ [sampleTok (s.sdaEff && s.envAt 0)] } := by
  rw [sampleSda, envBit_eq_envAt, State.sdaLine]

/-- Settles O13: the environment's next answer is the first listed, and `SDA_EFF` is 1 in input mode. -/
theorem sampleReadsDataLine : Obligations.SampleReadsDataLine := by
  unfold Obligations.SampleReadsDataLine
  exact fun s => ⟨congrArg Host.Outcome.next (sampleSda_eq s), fun hd => by simp [State.sdaEff, hd]⟩

/-! ## The level of a line -/

theorem line_eq_false_iff (s : State) (env : Nat → Bool) (p : Nat) :
    s.line env p = false ↔ s.pullsLow p = true ∨ env p = false ∨ p ∈ s.extPull := by
  simp [State.line, imp_iff_not_or, or_assoc]

/-- Where nobody else pulls, the level is the engine's and the environment's. -/
theorem line_of_not_extPull {s : State} {env : Nat → Bool} {p : Nat} (h : s.extPull.contains p = false) :
    s.line env p = (!s.pullsLow p && env p) := by
  rw [State.line, h, Bool.not_false, Bool.and_true]

/-- Settles O53: the engine's pull of each of two distinct lines is its own `EFF`. -/
theorem lineIsWiredAnd : Obligations.LineIsWiredAnd := by
  unfold Obligations.LineIsWiredAnd
  intro s env p
  refine ⟨line_eq_false_iff s env p, fun hne hfree => ?_⟩
  obtain ⟨hscl, hsda⟩ := Bool.or_eq_false_iff.mp hfree
  obtain ⟨hpullSda, hpullScl⟩ := pullsLow_iff (.inl hne)
  have hdata : s.pullsLow s.sdaPin.toNat = !s.sdaEff := Bool.eq_iff_iff.mpr (by simpa using hpullSda)
  have hclock : s.pullsLow s.sclPin.toNat = !s.sclOut := Bool.eq_iff_iff.mpr (by simpa [State.sclEff] using hpullScl)
  rw [line_of_not_extPull hsda, line_of_not_extPull hscl, hdata, hclock, Bool.not_not, Bool.not_not]
  exact ⟨rfl, rfl⟩

/-! ## The engine turn -/

/-- Settles O8: every micro-operation answers a next state, from which the position moves. -/
theorem engineTurnIssuesNamedMicroOperation : Obligations.EngineTurnIssuesNamedMicroOperation := by
  unfold Obligations.EngineTurnIssuesNamedMicroOperation
  exact fun s u hb hp hu => ⟨⟨doUop u s, exec_toInstr u s, engineTurn_of_uopAt hb hp hu⟩, step_of_agenda_nil,
    fun _ ha => step_of_agenda_cons ha⟩

/-- `RXMEM` and `RXCOUNT` keep their values, or a read byte has just been stored at index `BYTECNT` in `RDATA`
(`42_transactions.md` R174, `20_memory.md` R63). -/
def KeepsOrStoresRx (s t : State) : Prop :=
  (t.rxmem = s.rxmem ∧ t.rxCount = s.rxCount) ∨
  (s.phase = .rdata ∧ t.rxmem = Memory.write s.rxmem s.bytecnt.toNat s.shreg)

theorem nextWriteByte_keepsRx {s t : State} (h : nextWriteByte s = .next t) :
    t.rxmem = s.rxmem ∧ t.rxCount = s.rxCount := by
  unfold nextWriteByte at h
  split at h
  · split at h
    · cases h
    · cases h; exact ⟨rfl, rfl⟩
  · cases h; exact ⟨rfl, rfl⟩

theorem nextReadByte_keepsRx (s : State) :
    (nextReadByte s).rxmem = s.rxmem ∧ (nextReadByte s).rxCount = s.rxCount := by
  unfold nextReadByte
  split <;> exact ⟨rfl, rfl⟩

/-- Only the end of `RDATA` stores a byte; every other edge of the phase graph leaves the receive side alone. -/
theorem endPhase_rx {s t : State} (h : endPhase s = .next t) : KeepsOrStoresRx s t := by
  cases hph : s.phase <;> simp only [endPhase, hph] at h
  case idle => cases h
  case rdata => cases h; exact .inr ⟨hph, rfl⟩
  case start1 | addrw | reghi | reglo | wdata | turnp | start2 | addrr | stopp =>
    cases h; exact .inl ⟨rfl, rfl⟩
  case ackAddrw | ackReghi => split_ifs at h <;> cases h <;> exact .inl ⟨rfl, rfl⟩
  case ackReglo =>
    split_ifs at h
    · cases h; exact .inl ⟨rfl, rfl⟩
    · exact .inl (nextWriteByte_keepsRx (s := clearBytecnt s) h)
    · cases h; exact .inl ⟨rfl, rfl⟩
  case ackWdata =>
    split_ifs at h
    · cases h; exact .inl ⟨rfl, rfl⟩
    · exact .inl (nextWriteByte_keepsRx (s := countByte s) h)
  case ackAddrr =>
    split_ifs at h <;> cases h
    · exact .inl (nextReadByte_keepsRx (clearBytecnt s))
    · exact .inl ⟨rfl, rfl⟩
  case mackp => cases h; exact .inl (nextReadByte_keepsRx (countByte s))

theorem afterUop_rx {s t : State} (h : afterUop s = .next t) : KeepsOrStoresRx s t := by
  unfold afterUop at h
  split at h
  · unfold afterSentBit at h
    dsimp only at h
    split at h
    · exact endPhase_rx (s := countBit s) h
    · cases h; exact .inl ⟨rfl, rfl⟩
  · cases h; exact .inl ⟨rfl, rfl⟩
  · cases h
    unfold afterReadBit
    dsimp only
    split <;> exact .inl ⟨rfl, rfl⟩
  · cases h; exact .inl ⟨rfl, rfl⟩
  · cases h
    unfold afterPoll
    dsimp only
    split_ifs <;> exact .inl ⟨rfl, rfl⟩
  · cases h; exact .inl ⟨rfl, rfl⟩
  · split at h
    · exact endPhase_rx h
    · cases h; exact .inl ⟨rfl, rfl⟩

/-- Settles O46: the micro-operation touches the pins and `bit` only, the position's move leaves the outside alone and
the receive side as `afterUop_rx` says. -/
theorem engineTurnFrame : Obligations.EngineTurnFrame := by
  unfold Obligations.EngineTurnFrame
  intro s t h
  rcases engineTurn_cases s with ⟨-, hs⟩ | ⟨-, -, hs⟩ | ⟨-, -, -, hs⟩ | ⟨-, -, u, -, hs⟩
  · rw [hs] at h
    cases h
    exact ⟨sameOutside_refl s, rfl, rfl, rfl, fun _ _ => rfl, fun _ => ⟨rfl, rfl⟩⟩
  · simp [hs] at h
  · simp [hs] at h
  · rw [hs] at h
    have hmoved := moved_afterUop h
    have hrx := afterUop_rx h
    simp only [KeepsOrStoresRx, doUop_rxmem, doUop_rxCount, doUop_phase, doUop_bytecnt] at hrx
    refine ⟨sameOutside_trans (sameOutside_doUop u s) hmoved.outside, by simpa using hmoved.cmd,
      by simpa using hmoved.cmderr, by simpa using hmoved.cfgerr, fun a ha => ?_, fun hph => ?_⟩
    · rcases hrx with ⟨hmem, -⟩ | ⟨-, hmem⟩
      · rw [hmem]
      · rw [hmem, Memory.read_write_other _ _ ha]
    · exact hrx.resolve_right fun hstore => hph hstore.1

/-! ## One micro-operation at a time -/

theorem hostWrite_cmd (w : Word) (s : State) : hostWrite 3 w s = launch w s := by
  cases hb : s.busy <;> simp [hostWrite, launch, busyWriteFault, hb]

/-- A write of `CMD`, the only turn listed, is the launch. -/
theorem step_write_cmd {s : State} (ha : s.agenda = []) (w : Word) :
    step { s with agenda := [.host (.write 3 w)] } = launch w s := by
  have hs : { s with agenda := [] } = s := by rw [← ha]
  change hostWrite 3 w { s with agenda := [] } = launch w s
  rw [hs, hostWrite_cmd]

theorem launch_trace {w : Word} {s t : State} (h : launch w s = .next t) : t.trace = s.trace := by
  rcases launch_cases w s with ⟨-, hl⟩ | ⟨-, -, hl⟩ | ⟨-, -, -, hl⟩ | ⟨-, -, -, -, hl⟩ | ⟨-, -, hl⟩ <;>
    rw [hl] at h <;> cases h <;> rfl

/-- A command whose launch does not begin it ends with the launch. -/
theorem runCommand_of_not_ready {w : Word} {s : State} (body : State → Out) (hr : cmdReserved w = false)
    (h : s.ready ≠ true) : runCommand w body s = launch w s := by
  rcases launch_cases w s with ⟨-, hl⟩ | ⟨-, hr', -⟩ | ⟨hb, -, -, hl⟩ | ⟨-, -, -, -, hl⟩ | ⟨-, hready, -⟩
  · simp [runCommand, hl]
  · simp [hr] at hr'
  · simp [runCommand, hl, hb]
  · simp [runCommand, hl]
  · exact absurd hready h

/-- A command word is its launch, or begins a command. -/
theorem exec_eq_launch_or_begins {i : Instr} {s : State} (hi : i.isCommandWord = true) (hw : i.wf = true) :
    exec i s = launch (wordOf i) s ∨ (i.isCommand = true ∧ s.ready = true) := by
  cases hc : i.isCommand with
  | false => exact .inl ((exec_eq_launch hi hw hc).2 s)
  | true =>
    obtain ⟨hr, body, he⟩ := exec_eq_runCommand hc
    by_cases hready : s.ready = true
    · exact .inr ⟨rfl, hready⟩
    · exact .inl ((he s).trans (runCommand_of_not_ready body hr hready))

/-- The register slots of a command (`30_encoding.md` R96): both bytes when `W16` is 1, the low one when it is 0. -/
def regSlots (w16 : Bool) (reg : RegAddr) : List Byte := if w16 then [regHi reg, regLo reg] else [regLo reg]

section
variable {s : State} (h : s.ready = true) (ha : s.agenda = []) (reg : RegAddr) (dev : DevAddr) {op : BitVec 3}
include h ha

theorem runs_probe_command : Runs (beginCommand (acceptWord (cmdWord 0 reg dev 0) s))
    (sendAll [adb dev false] (fun t => .next (finishCommand t)) (afterStart (cmdWord 0 reg dev 0) s)) := by
  refine runs_launch h ha fun hown => ?_
  obtain ⟨hkind, -, hdev, -⟩ := kind_cmdWord reg dev 0 _ hown.cmd
  have hrun := runs_probe hown hkind
  rw [hdev] at hrun
  rwa [cmdDev_cmdWord, probe_end]

/-- The address slot and the register slots of a write or a read, `c` being what follows them. -/
theorem runs_addressed_command (c : State → Out) (hkind : op.extractLsb' 0 2 ≠ 0)
    (hplace : ∀ ph p u s, c (place ph p u s) = c s)
    (hc : ∀ y, Own (cmdWord 0 reg dev op) s.nBytes y →
      Runs (enterWbyte .reglo (regLo reg) y) (sendByte (regLo reg) c y)) :
    Runs (beginCommand (acceptWord (cmdWord 0 reg dev op) s))
      (sendAll (adb dev false :: regSlots (op.getLsbD 2) reg) c (afterStart (cmdWord 0 reg dev op) s)) := by
  refine runs_launch h ha fun hown => ?_
  obtain ⟨hk, hw16, hdev, hreg⟩ := kind_cmdWord reg dev op _ hown.cmd
  have hrun := runs_address hown (by rw [hk, if_neg hkind]; split <;> decide) c hplace (by rwa [hreg])
  rw [hdev, hw16, hreg] at hrun
  rw [cmdDev_cmdWord]
  generalize op.getLsbD 2 = w16 at hrun ⊢
  cases w16 <;> exact hrun

theorem runs_write_command (hop : op.extractLsb' 0 2 = 1) :
    Runs (beginCommand (acceptWord (cmdWord 0 reg dev op) s))
      (sendAll (adb dev false :: regSlots (op.getLsbD 2) reg) writeData (afterStart (cmdWord 0 reg dev op) s)) := by
  refine runs_addressed_command h ha reg dev writeData (by rw [hop]; decide) writeData_place fun y hy => ?_
  obtain ⟨hk, -, -, hreg⟩ := kind_cmdWord reg dev op y hy.cmd
  exact hreg ▸ runs_regLo_write hy (by rw [hk, hop]; rfl)

theorem runs_read_command (hop : op.extractLsb' 0 2 = 2) :
    Runs (beginCommand (acceptWord (cmdWord 0 reg dev op) s))
      (sendAll (adb dev false :: regSlots (op.getLsbD 2) reg) (readData dev)
        (afterStart (cmdWord 0 reg dev op) s)) := by
  refine runs_addressed_command h ha reg dev (readData dev) (by rw [hop]; decide) (readData_place dev) fun y hy => ?_
  obtain ⟨hk, -, hdev, hreg⟩ := kind_cmdWord reg dev op y hy.cmd
  exact hreg ▸ hdev ▸ runs_regLo_read hy (by rw [hk, hop]; rfl)

end

/-- From the launch of a command the machine comes to what the command's pseudocode gives. -/
theorem runs_exec {s : State} {i : Instr} (h : s.ready = true) (ha : s.agenda = []) (hi : i.isCommand = true) :
    Runs (beginCommand (acceptWord (wordOf i) s)) (exec i s) := by
  cases i with
  | probe dev reg => rw [exec_probe_of_ready h]; exact runs_probe_command h ha reg dev
  | wr8 dev reg => rw [exec_wr8_of_ready h]; exact runs_write_command h ha reg dev (op := 1) rfl
  | wr16 dev reg => rw [exec_wr16_of_ready h]; exact runs_write_command h ha reg dev (op := 5) rfl
  | rd8 dev reg => rw [exec_rd8_of_ready h]; exact runs_read_command h ha reg dev (op := 2) rfl
  | rd16 dev reg => rw [exec_rd16_of_ready h]; exact runs_read_command h ha reg dev (op := 6) rfl
  | _ => cases hi

/-- Settles O42: the first step is the launch; it ends a command word that is refused or faults, and begins the run of
the others. -/
theorem microStepsRefineWholeCommand : Obligations.MicroStepsRefineWholeCommand := by
  unfold Obligations.MicroStepsRefineWholeCommand
  intro s i hi hw ha
  have hfirst := (turns_one _).trans (step_write_cmd ha (wordOf i))
  rcases exec_eq_launch_or_begins (s := s) hi hw with hlaunch | ⟨hc, hready⟩
  · rw [hlaunch]
    exact ⟨1, hfirst, fun t ht => by rw [launch_trace ht]⟩
  · rw [launch_of_ready (exec_eq_runCommand hc).1 hready] at hfirst
    obtain ⟨k, hrun, hlen⟩ := runs_exec hready ha hc
    refine ⟨1 + k, (turns_add hfirst k).trans hrun, fun t ht => ?_⟩
    have hk : s.trace.length + k = t.trace.length := hlen t ht
    omega

end Sys2Proof.Machine
end

section
/-! PROOFS. Family 41_bus_primitives: the framing primitives and their pin-change traces (O14, O15), single bits written
and read (O16, O17), whole bytes group by group (O18, O19), and the poll of `WACK` in its two ends (O20, O21). -/

namespace Sys2Proof.Machine

/-! ## Framing -/

/-- Driven mode with the data released, the clock at either level. -/
theorem startToks_from_released (scl : Bool) :
    countStarts ⟨scl, true, .out⟩ startToks = 1 ∧ countStops ⟨scl, true, .out⟩ startToks = 0 ∧
    pinChanges ⟨scl, true, .out⟩ startToks =
      (if scl then [] else [(true, true)]) ++ [(true, false), (false, false)] := by
  cases scl <;> decide

/-- Driven mode with the clock low, the data at either level. -/
theorem stopToks_from_clock_low (sda : Bool) :
    countStops ⟨false, sda, .out⟩ stopToks = 1 ∧ countStarts ⟨false, sda, .out⟩ stopToks = 0 ∧
    countStops ⟨false, sda, .out⟩ [.d0, .w, .c1, .w] = 0 ∧
    pinChanges ⟨false, sda, .out⟩ stopToks =
      (if sda then [(false, false)] else []) ++ [(true, false), (true, true)] := by
  cases sda <;> decide

/-- Settles O14: `START` is its closed form, and its tokens are counted at each level of the clock. -/
theorem startSequence : Obligations.StartSequence := by
  unfold Obligations.StartSequence
  refine fun s => ⟨congrArg Host.Outcome.next (startP_eq s), fun hdir hsda => ?_⟩
  rw [State.pins, hdir, hsda]
  exact startToks_from_released s.sclOut

/-- Settles O15: `STOP` is its closed form, and its tokens are counted at each level of the data latch. -/
theorem stopSequence : Obligations.StopSequence := by
  unfold Obligations.StopSequence
  refine fun s => ⟨congrArg Host.Outcome.next (stopP_eq s), fun hdir hscl => ?_⟩
  rw [State.pins, hdir, hscl]
  exact stopToks_from_clock_low s.sdaOut

/-! ## One bit -/

/-- Settles O16: `MACK` and `MNACK` are `WBIT` of their bit, which leaves `SDA_OUT` at that bit. -/
theorem bitWriters : Obligations.BitWriters := by
  unfold Obligations.BitWriters
  exact fun s v => ⟨congrArg Host.Outcome.next (wbitP_eq v s), rfl, rfl, ⟨mackP s, rfl, by rw [mackP_eq]⟩,
    ⟨mnackP s, rfl, by rw [mnackP_eq]⟩⟩

/-- Settles O17: `RBIT` is its closed form, whose sample is the one `SAMPLE` takes. -/
theorem bitReader : Obligations.BitReader := by
  unfold Obligations.BitReader
  refine fun s => ⟨?_, (sampleReadsDataLine s).2⟩
  have hread := rbitP_eq s
  rw [envBit_eq_envAt] at hread
  exact congrArg Host.Outcome.next hread

/-! ## Groups of tokens: one group per bit, all of one shape -/

section
variable {f : Bool → List Tok} {n : Nat}

/-- Group `i` of a trace made of groups of `n` tokens, whatever follows the groups. -/
theorem group_of_flatMap (hf : ∀ v, (f v).length = n) (bs : List Bool) (rest : List Tok) {i : Nat}
    (hi : i < bs.length) : ((bs.flatMap f ++ rest).drop (n * i)).take n = f bs[i] := by
  induction bs generalizing i with
  | nil => cases hi
  | cons v bs ih =>
    rw [List.flatMap_cons, List.append_assoc]
    cases i with
    | zero => simp [← hf v]
    | succ i =>
      rw [Nat.mul_succ, Nat.add_comm, ← List.drop_drop, List.drop_left' (hf v)]
      exact ih (Nat.lt_of_succ_lt_succ hi)

theorem length_flatMap_of_groups (hf : ∀ v, (f v).length = n) (bs : List Bool) :
    (bs.flatMap f).length = bs.length * n := by
  simp [List.length_flatMap, hf]

theorem count_flatMap_of_groups {t : Tok} (hf : ∀ v, (f v).count t = n) (bs : List Bool) :
    (bs.flatMap f).count t = bs.length * n := by
  simp [List.count_flatMap, Function.comp_def, hf]

end

@[simp] theorem length_bitToks (v : Bool) : (bitToks v).length = 5 := rfl

@[simp] theorem length_readBitToks (v : Bool) : (readBitToks v).length = 5 := rfl

@[simp] theorem count_w_bitToks (v : Bool) : (bitToks v).count .w = 2 := by cases v <;> rfl

@[simp] theorem count_w_readBitToks (v : Bool) : (readBitToks v).count .w = 2 := by cases v <;> rfl

/-! ## `WBYTE` -/

theorem getElem_msbFirst (b : Byte) {i : Nat} (hi : i < 8) : (msbFirst b)[i]'hi = b.getLsbD (7 - i) := by
  interval_cases i <;> rfl

/-- Settles O18: the trace is one group per bit of `msbFirst b`. -/
theorem writeByteSendsMostSignificantFirst : Obligations.WriteByteSendsMostSignificantFirst := by
  unfold Obligations.WriteByteSendsMostSignificantFirst
  refine fun s b => ⟨byteToks b, congrArg Host.Outcome.next (wbyteP_eq b s),
    length_flatMap_of_groups length_bitToks _, count_flatMap_of_groups count_w_bitToks _, fun i hi => ?_⟩
  have hgroup := group_of_flatMap length_bitToks (msbFirst b) [] (i := i) hi
  rw [List.append_nil, getElem_msbFirst b hi] at hgroup
  exact hgroup

/-! ## `RBYTE` -/

/-- The last bit shifted in is bit 0, and moves those before it up by one. -/
theorem getLsbD_byteOfBits_append (bs : List Bool) (v : Bool) (j : Nat) :
    (byteOfBits (bs ++ [v])).getLsbD j = (decide (j < 8) && if j = 0 then v else (byteOfBits bs).getLsbD (j - 1)) := by
  rw [byteOfBits, List.foldl_append]
  exact BitVec.getLsbD_shiftConcat _ v j

/-- Bit `j` of what `k` answers shift in is the `j`-th from the last. -/
theorem getLsbD_byteOfBits_map_range (f : Nat → Bool) (k : Nat) {j : Nat} (h8 : j < 8) (hj : j < k) :
    (byteOfBits ((List.range k).map f)).getLsbD j = f (k - 1 - j) := by
  induction k generalizing j with
  | zero => cases hj
  | succ k ih =>
    rw [List.range_succ, List.map_append, List.map_singleton, getLsbD_byteOfBits_append, decide_eq_true h8,
      Bool.true_and]
    cases j with
    | zero => rfl
    | succ j =>
      rw [if_neg (Nat.succ_ne_zero j), Nat.add_sub_cancel, ih (by omega) (by omega)]
      congr 1
      omega

theorem getLsbD_byteOfBits_nextBits (s : State) {i : Nat} (hi : i < 8) :
    (byteOfBits s.nextBits).getLsbD (7 - i) = s.envAt i := by
  rw [State.nextBits, getLsbD_byteOfBits_map_range s.envAt 8 (by omega) (by omega)]
  congr 1
  omega

theorem byteOfBits_nextBits_of_released {s : State} (h : ∀ i < 8, s.envAt i = true) :
    byteOfBits s.nextBits = 0xFF := by
  refine BitVec.eq_of_getLsbD_eq fun j hj => ?_
  have hbit := getLsbD_byteOfBits_nextBits s (i := 7 - j) (by omega)
  rw [show 7 - (7 - j) = j by omega, h _ (by omega)] at hbit
  rw [hbit, show (0xFF : Byte) = BitVec.allOnes 8 from rfl, BitVec.getLsbD_allOnes, decide_eq_true hj]

/-- Every bit read is one sample, of either value. -/
theorem count_samples_flatMap_readBitToks (bs : List Bool) :
    (bs.flatMap readBitToks).count .s0 + (bs.flatMap readBitToks).count .s1 = bs.length := by
  induction bs with
  | nil => rfl
  | cons v bs ih =>
    have hv : (readBitToks v).count .s0 + (readBitToks v).count .s1 = 1 := by cases v <;> rfl
    rw [List.flatMap_cons, List.count_append, List.count_append, List.length_cons]
    omega

/-- The token counts of `RBYTE` (`41_bus_primitives.md` R146, R152), of as many bits as it reads. -/
theorem readToks_counts (bs : List Bool) :
    (readToks bs).length = 3 + bs.length * 5 ∧ (readToks bs).count .w = bs.length * 2 ∧
    (readToks bs).count .s0 + (readToks bs).count .s1 = bs.length := by
  have hlen := length_flatMap_of_groups length_readBitToks bs
  have hw := count_flatMap_of_groups count_w_readBitToks bs
  have hs := count_samples_flatMap_readBitToks bs
  refine ⟨?_, ?_, ?_⟩
  · simp [readToks, hlen]; omega
  · simp [readToks, hw]
  · simpa [readToks] using hs

/-- Group `i` of `RBYTE`, after its `D1 I`. -/
theorem readToks_group (bs : List Bool) {i : Nat} (hi : i < bs.length) :
    ((readToks bs).drop (2 + 5 * i)).take 5 = readBitToks bs[i] := by
  rw [readToks, List.append_assoc, ← List.drop_drop]
  exact group_of_flatMap length_readBitToks bs [.o] hi

theorem readToks_drop_groups (bs : List Bool) : (readToks bs).drop (2 + bs.length * 5) = [.o] :=
  List.drop_left' (by simp [length_flatMap_of_groups length_readBitToks bs]; omega)

/-- Settles O19: the trace is one group per bit of `nextBits`, which are the bits of the byte. -/
theorem readByteAssemblesMostSignificantFirst : Obligations.ReadByteAssemblesMostSignificantFirst := by
  unfold Obligations.ReadByteAssemblesMostSignificantFirst
  intro s
  obtain ⟨hlen, hw, hsamples⟩ := readToks_counts s.nextBits
  refine ⟨readToks s.nextBits, byteOfBits s.nextBits, congrArg Host.Outcome.next (rbyteP_eq s),
    fun i hi => getLsbD_byteOfBits_nextBits s hi, byteOfBits_nextBits_of_released, hlen, hw, hsamples, rfl,
    readToks_drop_groups s.nextBits, fun i hi => ?_⟩
  have hgroup := readToks_group s.nextBits (i := i) (by simpa [State.nextBits] using hi)
  rw [hgroup]
  simp [State.nextBits, readBitToks, sampleTok]

/-! ## `WACK` -/

/-- The samples that read 1 before the last one, each followed by a `WAIT` (`41_bus_primitives.md` R147). -/
theorem polls_counts (n : Nat) :
    (List.replicate n [Tok.s1, Tok.w]).flatten.length = 2 * n ∧
    (List.replicate n [Tok.s1, Tok.w]).flatten.count .w = n ∧
    (List.replicate n [Tok.s1, Tok.w]).flatten.count .s0 = 0 ∧
    (List.replicate n [Tok.s1, Tok.w]).flatten.count .s1 = n := by
  simp [List.count_flatten, Nat.mul_comm]

/-- Settles O20: the closed form of a `WACK` acknowledged at its `k`-th sample, `k - 1` polls before the last. -/
theorem wackStopsAtFirstZero : Obligations.WackStopsAtFirstZero := by
  unfold Obligations.WackStopsAtFirstZero
  intro s k hk hN hones hzero
  obtain ⟨hlen, hw, hs0, hs1⟩ := polls_counts (k - 1)
  refine ⟨ackToks k, congrArg Host.Outcome.next (wackP_ack hk hN hones hzero), rfl, ?_, ?_, ?_⟩
  · simp only [ackToks, List.length_append, hlen, List.length_cons, List.length_nil]
    omega
  · simp [ackToks, hw]; omega
  · simp [ackToks, hs0, hs1]; omega

/-- Settles O21: the closed form of a `WACK` whose samples all read 1, `N - 1` polls before the last. -/
theorem wackGivesUpAfterBound : Obligations.WackGivesUpAfterBound := by
  unfold Obligations.WackGivesUpAfterBound
  intro s hN hones
  obtain ⟨hlen, -, hs0, hs1⟩ := polls_counts (s.retryN.toNat - 1)
  refine ⟨nackToks s.retryN.toNat, congrArg Host.Outcome.next (wackP_nack hN hones), rfl, ?_, ?_, ?_⟩
  · simp only [nackToks, List.length_append, hlen, List.length_cons, List.length_nil]
    omega
  · simp [nackToks, hs0]
  · simp [nackToks, hs1]; omega

end Sys2Proof.Machine
end

section
/-! PROOFS. Family 42_transactions: an engine turn follows the phase graph (O43), and no step comes to a position that no
rule enters (O49). -/

namespace Sys2Proof.Machine

/-! ## Edges of the phase graph -/

/-- `t` is where the phase graph goes from the end of the phase of `s` (`42_transactions.md` R178): the next phase, the
index at which a payload phase is entered, the byte a read leaves (R174). -/
structure FollowsGraph (s t : State) : Prop where
  phase : t.phase = s.phaseAfter
  first : s.phase = .ackReglo ∨ s.phase = .ackAddrr → t.phase = .wdata ∨ t.phase = .rdata → t.bytecnt = 0
  next : s.phase = .ackWdata ∨ s.phase = .mackp → t.phase = .wdata ∨ t.phase = .rdata →
    t.bytecnt.toNat = s.bytecnt.toNat + 1
  stored : s.phase = .rdata →
    Memory.read t.rxmem s.bytecnt.toNat = some s.shreg ∧ t.rxCount.toNat = s.bytecnt.toNat + 1

/-- Out of a phase that reads no payload index and ends no read byte, only the phase is left to look at. -/
theorem FollowsGraph.of_phase {s t : State} (hphase : t.phase = s.phaseAfter)
    (hout : s.phase ∉ [.ackReglo, .ackAddrr, .ackWdata, .mackp, .rdata]) : FollowsGraph s t := by
  simp only [List.mem_cons, List.not_mem_nil, or_false, not_or] at hout
  obtain ⟨h1, h2, h3, h4, h5⟩ := hout
  exact ⟨hphase, fun h => absurd h (by simp [h1, h2]), fun h => absurd h (by simp [h3, h4]), fun h => absurd h h5⟩

/-- The graph looks at the phase, the command, `ACKBIT`, `BYTECNT`, `LEN` and `SHREG` of the state it leaves. -/
theorem FollowsGraph.of_eq {s z t : State} (h : FollowsGraph z t) (hphase : z.phase = s.phase) (hcmd : z.cmd = s.cmd)
    (hack : z.ackbit = s.ackbit) (hbyte : z.bytecnt = s.bytecnt) (hlen : z.nBytes = s.nBytes)
    (hshreg : z.shreg = s.shreg) : FollowsGraph s t := by
  have hafter : z.phaseAfter = s.phaseAfter := by
    simp only [State.phaseAfter, hphase, kind_of_cmd hcmd, w16_of_cmd hcmd, hack, hbyte, hlen]
  obtain ⟨h1, h2, h3, h4⟩ := h
  rw [hphase, hbyte] at h3 h4
  rw [hphase] at h2
  exact ⟨h1.trans hafter, h2, h3, hshreg ▸ h4⟩

theorem nextWriteByte_phase {s t : State} (h : nextWriteByte s = .next t) :
    t.phase = (if s.bytecnt.toNat < s.nBytes.toNat then .wdata else .stopp) ∧ t.bytecnt = s.bytecnt := by
  unfold nextWriteByte at h
  split at h
  · next hlt =>
    split at h <;> cases h
    exact ⟨(if_pos (BitVec.lt_def.mp hlt)).symm, rfl⟩
  · next hge => cases h; exact ⟨(if_neg fun hlt => hge (BitVec.lt_def.mpr hlt)).symm, rfl⟩

theorem nextReadByte_phase (s : State) :
    (nextReadByte s).phase = (if s.bytecnt.toNat < s.nBytes.toNat then .rdata else .stopp) ∧
    (nextReadByte s).bytecnt = s.bytecnt := by
  unfold nextReadByte
  split
  · next hlt => exact ⟨(if_pos (BitVec.lt_def.mp hlt)).symm, rfl⟩
  · next hge => exact ⟨(if_neg fun hlt => hge (BitVec.lt_def.mpr hlt)).symm, rfl⟩

/-- A byte below `LEN` has an index that can be counted up. -/
theorem toNat_bytecnt_succ_of_lt {s : State} (h : s.bytecnt < s.nBytes) :
    (s.bytecnt + 1).toNat = s.bytecnt.toNat + 1 := by
  have hn := s.nBytes.isLt
  rw [BitVec.lt_def] at h
  exact toNat_bytecnt_succ (by omega)

/-- The end of a phase that some command of this kind uses, its payload byte below `LEN`, follows the graph. -/
theorem endPhase_followsGraph {s t : State} (hused : s.phase.usedBy s.kind s.w16 = true) (hpay : payloadOk s = true)
    (h : endPhase s = .next t) : FollowsGraph s t := by
  cases hph : s.phase <;> simp only [endPhase, hph] at h
  case idle => cases h
  case start1 | addrw | reghi | reglo | wdata | turnp | start2 | addrr | stopp =>
    cases h; exact .of_phase (by simp only [State.phaseAfter, hph]; rfl) (by simp [hph])
  case ackAddrw =>
    refine .of_phase ?_ (by simp [hph])
    split_ifs at h with hk ha ha hw <;> cases h <;> simp [State.phaseAfter, enterAbort, enterWbyte, *]
  case ackReghi =>
    refine .of_phase ?_ (by simp [hph])
    split_ifs at h with ha <;> cases h <;> simp [State.phaseAfter, hph, ha, enterAbort, enterWbyte]
  case ackReglo =>
    have hprobe : s.kind ≠ .probe := by simpa [hph, Phase.usedBy] using hused
    split_ifs at h with ha hk
    · cases h
      exact ⟨by simp [State.phaseAfter, hph, ha, enterAbort], by simp [enterAbort], by simp [hph], by simp [hph]⟩
    · obtain ⟨hnext, hbyte⟩ := nextWriteByte_phase h
      refine ⟨?_, fun _ _ => hbyte, by simp [hph], by simp [hph]⟩
      simpa [State.phaseAfter, hph, ha, hk] using hnext
    · have hread : s.kind = .read := by cases hkind : s.kind <;> simp_all
      cases h
      exact ⟨by simp [State.phaseAfter, hph, ha, hread], by simp, by simp [hph], by simp [hph]⟩
  case ackWdata =>
    have hsucc := toNat_bytecnt_succ_of_lt (s := s) (by simpa [payloadOk, hph] using hpay)
    split_ifs at h with ha
    · cases h
      exact ⟨by simp [State.phaseAfter, hph, ha, enterAbort], by simp [hph], by simp [enterAbort], by simp [hph]⟩
    · obtain ⟨hnext, hbyte⟩ := nextWriteByte_phase h
      refine ⟨?_, by simp [hph], fun _ _ => by rw [hbyte]; exact hsucc, by simp [hph]⟩
      simp only [State.phaseAfter, hph, if_neg ha, ← hsucc]
      exact hnext
  case ackAddrr =>
    split_ifs at h with ha <;> cases h
    · obtain ⟨hnext, hbyte⟩ := nextReadByte_phase (clearBytecnt s)
      refine ⟨?_, fun _ _ => hbyte, by simp [hph], by simp [hph]⟩
      simpa [State.phaseAfter, hph, ha] using hnext
    · exact ⟨by simp [State.phaseAfter, hph, ha, enterAbort], by simp [enterAbort], by simp [hph], by simp [hph]⟩
  case rdata =>
    cases h
    refine ⟨by simp [State.phaseAfter, hph], by simp [hph], by simp [hph], fun _ => ⟨?_, ?_⟩⟩
    · exact Memory.read_write_same _ _ _
    · exact toNat_bytecnt_succ_of_lt (by simpa [payloadOk, hph] using hpay)
  case mackp =>
    have hsucc := toNat_bytecnt_succ_of_lt (s := s) (by simpa [payloadOk, hph] using hpay)
    cases h
    obtain ⟨hnext, hbyte⟩ := nextReadByte_phase (countByte s)
    refine ⟨?_, by simp [hph], fun _ _ => by rw [hbyte]; exact hsucc, by simp [hph]⟩
    simp only [State.phaseAfter, hph, ← hsucc]
    exact hnext

/-- Settles O43: an engine turn that leaves its primitive ends the phase, in a state that agrees with the one before on
all the graph looks at. -/
theorem phaseGraphIsFollowed : Obligations.PhaseGraphIsFollowed := by
  unfold Obligations.PhaseGraphIsFollowed
  intro s t hI hb ht
  have r := ((inv_iff s).mp hI).running hb
  obtain ⟨u, hu⟩ := r.uopAt
  rw [engineTurn_of_uopAt hb r.lines hu] at ht
  rcases r.afterUop hu with ⟨z, hz, -, hphase, hmem, hcount, hbyte, -⟩ |
    ⟨hlast, z, hz, m, hphase, -, hbyte, hshreg, -, -, hack, -⟩
  · rw [hz] at ht; cases ht
    exact .inl ⟨hphase, hmem, hcount, hbyte⟩
  · rw [hz] at ht
    have hcmd : z.cmd = s.cmd := m.cmd.trans (doUop_cmd u s)
    obtain ⟨-, -, -, -, hlen, -⟩ := sameOutside_trans (sameOutside_doUop u s) m.outside
    have hused : z.phase.usedBy z.kind z.w16 = true := by
      rw [hphase, kind_of_cmd hcmd, w16_of_cmd hcmd]; exact r.used
    have hpay : payloadOk z = true := by
      have hbelow := r.payload
      unfold payloadOk at hbelow ⊢
      rwa [hphase, hbyte, hlen]
    obtain ⟨h1, h2, h3, h4⟩ := (endPhase_followsGraph hused hpay ht).of_eq hphase hcmd hack hbyte hlen hshreg
    exact .inr ⟨hlast, h1, h2, h3, h4⟩

/-! ## Faults -/

/-- The outcome is not the fault of a position that no rule enters (log 21). -/
def NotLost (o : Out) : Prop := o ≠ .fault .sequencerLost

theorem notLost_next (t : State) : NotLost (.next t) := by rintro ⟨⟩

theorem nextWriteByte_notLost (s : State) : NotLost (nextWriteByte s) := by
  unfold nextWriteByte
  split
  · split <;> rintro ⟨⟩
  · exact notLost_next _

/-- Every phase but `IDLE` has its edges in the graph; of these only the head of the payload loop of a write can fault. -/
theorem endPhase_notLost {s : State} (h : s.phase ≠ .idle) : NotLost (endPhase s) := by
  cases hph : s.phase <;> simp only [endPhase, hph]
  case idle => exact absurd hph h
  case ackReglo =>
    split_ifs
    · exact notLost_next _
    · exact nextWriteByte_notLost _
    · exact notLost_next _
  case ackWdata =>
    split_ifs
    · exact notLost_next _
    · exact nextWriteByte_notLost _
  case ackAddrw => split_ifs <;> exact notLost_next _
  all_goals exact notLost_next _

theorem engineTurn_notLost {s : State} (h : s.busy = true → Runnable s) : NotLost (engineTurn s) := by
  rcases engineTurn_cases s with ⟨-, e⟩ | ⟨-, -, e⟩ | ⟨hb, -, hnone, -⟩ | ⟨hb, -, u, hu, e⟩
  · rw [e]; exact notLost_next s
  · rw [e]; rintro ⟨⟩
  · obtain ⟨u, hu⟩ := (h hb).uopAt
    rw [hu] at hnone; cases hnone
  · rw [e]
    have r := h hb
    rcases r.afterUop hu with ⟨z, hz, -⟩ | ⟨-, z, hz, -, hphase, -⟩
    · rw [hz]; exact notLost_next z
    · rw [hz]; exact endPhase_notLost (by rw [hphase]; exact r.driving_phase)

theorem launch_notLost (w : Word) (s : State) : NotLost (launch w s) := by
  rcases launch_cases w s with ⟨-, e⟩ | ⟨-, -, e⟩ | ⟨-, -, -, e⟩ | ⟨-, -, -, -, e⟩ | ⟨-, -, e⟩ <;> rw [e] <;> rintro ⟨⟩

theorem hostAct_notLost (op : HostOp) (s : State) : NotLost (hostAct op s) := by
  cases op with
  | read idx =>
    simp only [hostAct, hostRead, busyReadFault]
    split_ifs <;> rintro ⟨⟩
  | write idx v =>
    simp only [hostAct, hostWrite]
    split_ifs
    · unfold busyWriteFault; split <;> rintro ⟨⟩
    · exact launch_notLost v s
    · exact notLost_next _
  | txWrite i b =>
    simp only [hostAct, txWrite]
    split_ifs <;> rintro ⟨⟩
  | rxRead i =>
    simp only [hostAct, rxRead]
    split
    · rintro ⟨⟩
    · split <;> exact notLost_next _

theorem writePayload_notLost (r : Nat) {s : State} (hN : 1 ≤ s.retryN.toNat) : NotLost (writePayload r s) := by
  induction r generalizing s with
  | zero => exact notLost_next _
  | succ r ih =>
    rw [writePayload]
    cases s.txByte with
    | none => rintro ⟨⟩
    | some b =>
      refine sendByte_elim hN (fun _ _ _ _ => notLost_next _) fun t _ _ hw => ih ?_
      rw [countByte_retryN, hw.retryN]; exact hN

/-- A command run as a whole has no position to lose. -/
theorem exec_command_notLost {i : Instr} (hi : i.isCommand = true) {s : State} (hs : s.ready = true) :
    NotLost (exec i s) := by
  have hslots : ∀ (bs : List Byte) (c : State → Out) (w : Word), bs ≠ [] →
      (∀ t : State, 1 ≤ t.retryN.toNat → NotLost (c t)) → NotLost (sendAll bs c (afterStart w s)) :=
    fun bs c w hne hc => sendAll_elim hne (underWay_afterStart w hs).retryN (fun _ _ _ _ => notLost_next _)
      fun t _ _ hw => hc t ((underWay_afterStart w hs).of_went hw).retryN
  have hread : ∀ (dev : DevAddr) (t : State), 1 ≤ t.retryN.toNat → NotLost (readData dev t) := fun dev t hN =>
    sendByte_elim (s := startP (turnP t)) (by rw [startP_eq, turnP_eq]; exact hN) (fun _ _ _ _ => notLost_next _)
      fun _ _ _ _ => notLost_next _
  cases i with
  | probe dev reg => rw [exec_probe_of_ready hs]; exact hslots _ _ _ (by simp) fun _ _ => notLost_next _
  | wr8 dev reg =>
    rw [exec_wr8_of_ready hs]; exact hslots _ _ _ (by simp) fun t hN => writePayload_notLost _ (s := clearBytecnt t) hN
  | wr16 dev reg =>
    rw [exec_wr16_of_ready hs]; exact hslots _ _ _ (by simp) fun t hN => writePayload_notLost _ (s := clearBytecnt t) hN
  | rd8 dev reg => rw [exec_rd8_of_ready hs]; exact hslots _ _ _ (by simp) (hread dev)
  | rd16 dev reg => rw [exec_rd16_of_ready hs]; exact hslots _ _ _ (by simp) (hread dev)
  | _ => cases hi

theorem issueTurn_cmd_notLost (w : Word) (s : State) : NotLost (issueTurn (.cmd w) s) := by
  rw [issueTurn_of_decode (i := decodeCmd w) rfl]
  rcases exec_eq_launch_or_begins (s := s) (decodeCmd_isCommandWord w) (decodeCmd_wf w) with e | ⟨hi, hs⟩
  · rw [e]; exact launch_notLost _ s
  · exact exec_command_notLost hi hs

theorem pullLine_notLost (p : Nat) (s : State) : NotLost (pullLine p s) := by
  simp only [pullLine]
  split_ifs <;> rintro ⟨⟩

/-- Settles O49: the agenda lists no turn but those of the engine, the host, whole command words, `rst_n` and the lines;
the engine's has a micro-operation and an edge to follow, and the others never end in this fault. -/
theorem runningEngineIsNeverLost : Obligations.RunningEngineIsNeverLost := by
  unfold Obligations.RunningEngineIsNeverLost
  intro s hI
  have hs : Sound s := (inv_iff s).mp hI
  cases ha : s.agenda with
  | nil => rw [step_of_agenda_nil ha]; exact engineTurn_notLost hs.running
  | cons turn rest =>
    obtain ⟨hl, hs'⟩ := hs.agenda_tail ha
    rw [step_of_agenda_cons ha]
    cases turn with
    | engine => exact engineTurn_notLost hs'.running
    | host op => exact hostAct_notLost op _
    | issue e =>
      cases e with
      | cmd w => exact issueTurn_cmd_notLost w _
      | prim | uop => cases hl
    | rst => exact notLost_next _
    | pull p => exact pullLine_notLost p _
    | release p => exact notLost_next _

end Sys2Proof.Machine
end

section
/-! PROOFS. Family 42_transactions: the commands with every slot answered as listed (O27, O28, O31), and their sizes when
that is at the first sample (O40). -/

namespace Sys2Proof.Machine

/-! ## `PROBE` -/

/-- Answers from the first sample on, then those after them. -/
theorem willAnswer_append {s : State} {l m : List Bool} (h : s.willAnswer l)
    (hm : ∀ i (hi : i < m.length), s.envAt (l.length + i) = m[i]) : s.willAnswer (l ++ m) := by
  rw [willAnswer_iff] at h ⊢
  intro i hi
  by_cases hlt : i < l.length
  · rw [List.getElem_append_left hlt]; exact h i hlt
  · rw [List.getElem_append_right (by omega), ← hm (i - l.length) (by simp at hi; omega)]
    congr 1
    omega

/-- Samples of which the `k`-th is the first to read 0 are the answers of a poll acknowledged there. -/
theorem getElem_poll {f : Nat → Bool} {k : Nat} (h1 : 1 ≤ k) (hones : ∀ i < k - 1, f i = true)
    (hzero : f (k - 1) = false) (i : Nat) (hi : i < (List.replicate (k - 1) true ++ [false]).length) :
    f i = (List.replicate (k - 1) true ++ [false])[i] := by
  have hik : i < k := by simpa [Nat.sub_add_cancel h1] using hi
  by_cases hlt : i < k - 1
  · simpa [List.getElem_append_left, hlt] using hones i hlt
  · obtain rfl : i = k - 1 := by omega
    simpa using hzero

/-- Settles O27: the one slot ends as its samples say, and `STOP` follows on either path. -/
theorem probeAnswersPresence : Obligations.ProbeAnswersPresence := by
  unfold Obligations.ProbeAnswersPresence
  intro s dev reg h
  rw [exec_probe_of_ready h]
  have hN : (afterStart (wordOf (.probe dev reg)) s).retryN = s.retryN := by rw [afterStart_eq]
  have henv := envAt_afterStart (wordOf (.probe dev reg)) s
  refine ⟨fun k h1 hk hones hzero => ?_, fun hones => ?_⟩
  · have hw := willAnswer_afterStart (w := wordOf (.probe dev reg)) (willAnswer_iff.mpr (getElem_poll h1 hones hzero))
    obtain ⟨u, hgo, hwent, -, -⟩ := sendByte_ack (b := adb dev false) (m := []) (fun t => .next (finishCommand t)) h1
      (by rw [hN]; exact hk) (by rw [List.append_nil]; exact hw)
    obtain ⟨hack, hend, hout, hmem, hcount, hans, hno, htr⟩ := finishCommand_of_went hwent
    exact ⟨_, hgo, hack, hend, hout, hmem, hcount, hans, hno, by simpa using htr⟩
  · obtain ⟨u, hgo, hwent, -⟩ := sendByte_nack (s := afterStart (wordOf (.probe dev reg)) s) (b := adb dev false)
      (fun t => .next (finishCommand t)) (by rw [hN]; exact retryN_pos_of_ready h)
      (fun i hi => by rw [henv]; exact hones i (by rwa [hN] at hi))
    rw [hN] at hwent
    obtain ⟨hack, hend, hout, hmem, hcount, hans, hno, htr⟩ := abortCommand_of_went hwent
    exact ⟨_, hgo, hack, hend, hout, hmem, hcount, hans, hno, by simpa using htr⟩

/-! ## `WR8` and `WR16` -/

/-- The payload of a write, all of it written and every slot acknowledged. -/
theorem writeData_of_acked {s : State} {bs : List Byte} {ks : List Nat} (hd : s.sdaDir = .out)
    (hlen : bs.length = s.nBytes.toNat) (hbs : s.holds bs) (hl : ks.length = bs.length) (hp : s.pollsOk ks)
    (hw : s.willAnswer (ackAnswers ks)) :
    ∃ u, writeData s = .next (finishCommand u) ∧ Went s u (slotsToks (bs.zip ks)) (ackAnswers ks).length := by
  have hlt := s.nBytes.isLt
  obtain ⟨u, hgo, hwent, -, -⟩ := writePayload_ack (s := clearBytecnt s) (m := []) (r := 0) hd hl hp
    (by rw [List.append_nil]; exact hw) (by simpa [clearBytecnt, State.holds] using hbs) (by simp [clearBytecnt]; omega)
  exact ⟨u, by rw [writeData, ← hlen]; exact hgo, { hwent with }⟩

/-- The same once the slots of address and register, `pre`, are to be sent before the payload. -/
theorem sendAll_writeData_of_acked {s : State} {pre bs : List Byte} {ks : List Nat} (hne : pre ≠ [])
    (hlen : bs.length = s.nBytes.toNat) (hbs : s.holds bs) (hl : ks.length = pre.length + bs.length) (hp : s.pollsOk ks)
    (hw : s.willAnswer (ackAnswers ks)) :
    ∃ u, sendAll pre writeData s = .next (finishCommand u) ∧
      Went s u (slotsToks ((pre ++ bs).zip ks)) (ackAnswers ks).length := by
  obtain ⟨ks₁, ks₂, rfl, hl₁⟩ : ∃ ks₁ ks₂, ks = ks₁ ++ ks₂ ∧ ks₁.length = pre.length :=
    ⟨ks.take pre.length, ks.drop pre.length, (List.take_append_drop ..).symm, by simp; omega⟩
  obtain ⟨hp₁, hp₂⟩ := pollsOk_append hp
  rw [ackAnswers_append] at hw
  obtain ⟨t, hgo, hwent, hw₂⟩ := sendAll_ack writeData hne hl₁ hp₁ hw
  obtain ⟨u, hgo', hwent'⟩ := writeData_of_acked hwent.dir (by rw [hwent.nBytes]; exact hlen) (hbs.of_went hwent)
    (by simp at hl; omega) (hp₂.of_went hwent) hw₂
  rw [List.zip_append hl₁.symm, slotsToks_append, ackAnswers_append, List.length_append]
  exact ⟨u, hgo.trans hgo', hwent.trans hwent'⟩

/-- From the launch of a write, whose address and register slots are `pre`, to its end. -/
theorem write_of_acked {s : State} (w : Word) {pre bs : List Byte} {ks : List Nat} (hne : pre ≠ [])
    (hlen : bs.length = s.nBytes.toNat) (hbs : s.holds bs) (hl : ks.length = pre.length + bs.length) (hp : s.pollsOk ks)
    (hw : s.willAnswer (ackAnswers ks)) :
    ∃ u, sendAll pre writeData (afterStart w s) = .next (finishCommand u) ∧
      Went (afterStart w s) u (slotsToks ((pre ++ bs).zip ks)) (ackAnswers ks).length := by
  have hw' := willAnswer_afterStart (w := w) hw
  rw [afterStart_eq] at hw' ⊢
  exact sendAll_writeData_of_acked hne hlen hbs hl hp hw'

/-- Settles O28: the slots of the address and the register come before those of the payload, whatever their number. -/
theorem writeDeliversPayload : Obligations.WriteDeliversPayload := by
  unfold Obligations.WriteDeliversPayload
  intro s dev reg bs ks h hlen hbs hp hw
  rw [exec_wr8_of_ready h, exec_wr16_of_ready h]
  have hdone : ∀ (w : Word) (pre : List Byte), pre ≠ [] → ks.length = pre.length + bs.length →
      ∃ t, sendAll pre writeData (afterStart w s) = .next t ∧ t.ackfail = false ∧ endedWith w t ∧ sameOutside s t ∧
        t.rxmem = s.rxmem ∧ t.rxCount = 0 ∧ t.answers = s.answers.drop (ackAnswers ks).length ∧
        t.trace = s.trace ++ (startToks ++ slotsToks ((pre ++ bs).zip ks) ++ stopToks) := by
    intro w pre hne hl
    obtain ⟨u, hgo, hwent⟩ := write_of_acked w hne hlen hbs hl hp hw
    obtain ⟨hack, hend, hout, hmem, hcount, hans, -, htr⟩ := finishCommand_of_went hwent
    exact ⟨_, hgo, hack, hend, hout, hmem, hcount, hans, htr⟩
  exact ⟨hdone _ [adb dev false, regLo reg] (by simp), hdone _ [adb dev false, regHi reg, regLo reg] (by simp)⟩

/-! ## `RD8` and `RD16` -/

/-- A read launched in `s` with the word `w` has ended in `t` with Success: it went through the micro-operations `tr`
between `START` and its read slots, which were answered with `data` (`42_transactions.md` R174, `20_memory.md` R63). -/
structure ReadDone (w : Word) (s t : State) (tr : List Tok) (data : List (List Bool)) : Prop where
  ackfail : t.ackfail = false
  ended : endedWith w t
  outside : sameOutside s t
  rxCount : t.rxCount = s.nBytes
  filled : ∀ i (h : i < data.length), Memory.read t.rxmem i = some (byteOfBits data[i])
  above : ∀ a, s.nBytes.toNat ≤ a → Memory.read t.rxmem a = Memory.read s.rxmem a
  trace : t.trace = s.trace ++ (startToks ++ tr ++ readSlotsToks data ++ stopToks)

/-- The payload loop of a read that has come so far with all slots acknowledged. -/
theorem readPayload_done {w : Word} {s u : State} {tr : List Tok} {n : Nat} {data : List (List Bool)} (hs : s.ready = true)
    (h : Went (afterStart w s) u tr n) (hlen : data.length = s.nBytes.toNat) (h8 : ∀ bs ∈ data, bs.length = 8)
    (hw : u.willAnswer data.flatten) : ReadDone w s (readPayload u.nBytes.toNat (clearBytecnt u)) tr data := by
  have hn : u.nBytes = s.nBytes := by rw [h.nBytes, afterStart_eq]
  have hend := (filling_clearBytecnt hs h).readPayload u.nBytes.toNat (by simp [hn])
  obtain ⟨v, hgo, -, -, -, -, -, vack, -, -, vtrace, -, vfilled, -⟩ :=
    readPayload_reads (s := clearBytecnt u) (data := data) h.dir h8 hw (by simp [clearBytecnt, hn, hlen])
  rw [hlen, ← hn] at hgo
  rw [hgo] at hend ⊢
  have hack : (finishCommand v).ackfail = false := vack.trans (h.ackfail.trans (by rw [afterStart_eq]))
  exact
    { ackfail := hack
      ended := hend.ended
      outside := hend.outside
      rxCount := (hend.filled rfl hack).1
      filled := fun i hi => show Memory.read v.rxmem i = _ by simpa using vfilled i hi
      above := hend.above
      trace := by
        have htrace : u.trace = s.trace ++ startToks ++ tr := by rw [h.trace, afterStart_eq]
        simp [finishCommand_eq, vtrace, htrace] }

/-- The turnaround and the repeated `START` (`42_transactions.md` R174). -/
theorem went_restart {s : State} (hd : s.sdaDir = .out) : Went s (startP (turnP s)) ([.w] ++ startToks) 0 :=
  (went_turnP hd).trans (went_startP (went_turnP hd).dir)

/-- From the turnaround of a read to its end, the address+read slot acknowledged at its `k`-th sample. -/
theorem readData_done {w : Word} {s u : State} {tr : List Tok} {n k : Nat} {data : List (List Bool)} (dev : DevAddr)
    (hs : s.ready = true) (h : Went (afterStart w s) u tr n) (hlen : data.length = s.nBytes.toNat)
    (h8 : ∀ bs ∈ data, bs.length = 8) (hp : u.pollsOk [k]) (hw : u.willAnswer (ackAnswers [k] ++ data.flatten)) :
    ∃ t, readData dev u = .next t ∧
      ReadDone w s t (tr ++ ([.w] ++ startToks) ++ slotsToks [(adb dev true, k)]) data := by
  have hrestart := went_restart h.dir
  obtain ⟨h1, hk⟩ := hp k (by simp)
  obtain ⟨t, hgo, hwent, -, hw'⟩ := sendByte_ack (s := startP (turnP u)) (b := adb dev true)
    (fun t => .next (readPayload t.nBytes.toNat (clearBytecnt t))) h1 (by rw [hrestart.retryN]; exact hk)
    (m := data.flatten) (hrestart.willAnswer (l := []) (by simpa [ackAnswers] using hw))
  refine ⟨_, hgo, ?_⟩
  have hslot : slotsToks [(adb dev true, k)] = byteToks (adb dev true) ++ ackToks k := by simp [slotsToks]
  rw [hslot]
  exact readPayload_done hs ((h.trans hrestart).trans hwent) hlen h8 hw'

/-- From the launch of a read, whose address+write and register slots are `pre`, to its end. -/
theorem read_of_acked {s : State} {w : Word} {pre : List Byte} {ks : List Nat} {k : Nat} {data : List (List Bool)}
    (dev : DevAddr) (hne : pre ≠ []) (hs : s.ready = true) (hlen : data.length = s.nBytes.toNat)
    (h8 : ∀ bs ∈ data, bs.length = 8) (hl : ks.length = pre.length) (hp : s.pollsOk (ks ++ [k]))
    (hw : s.willAnswer (ackAnswers (ks ++ [k]) ++ data.flatten)) :
    ∃ t, sendAll pre (readData dev) (afterStart w s) = .next t ∧
      ReadDone w s t (slotsToks (pre.zip ks) ++ ([.w] ++ startToks) ++ slotsToks [(adb dev true, k)]) data := by
  have hp' : (afterStart w s).pollsOk (ks ++ [k]) := by rw [afterStart_eq]; exact hp
  obtain ⟨hp₁, hp₂⟩ := pollsOk_append hp'
  rw [ackAnswers_append, List.append_assoc] at hw
  obtain ⟨u, hgo, hwent, hw'⟩ := sendAll_ack (readData dev) hne hl hp₁ (willAnswer_afterStart (w := w) hw)
  obtain ⟨t, hgo', hdone⟩ := readData_done dev hs hwent hlen h8 (hp₂.of_went hwent) hw'
  exact ⟨t, hgo.trans hgo', hdone⟩

/-- Settles O31: the register is selected by two or by three slots, and what follows is the same. -/
theorem readFillsReceiveBuffer : Obligations.ReadFillsReceiveBuffer := by
  unfold Obligations.ReadFillsReceiveBuffer
  intro s dev reg data ks k h hlen h8 hp hw
  rw [exec_rd8_of_ready h, exec_rd16_of_ready h]
  have hread : ∀ (w : Word) (pre : List Byte), pre ≠ [] → ks.length = pre.length →
      ∃ t, sendAll pre (readData dev) (afterStart w s) = .next t ∧ t.ackfail = false ∧ endedWith w t ∧
        sameOutside s t ∧ t.rxCount = s.nBytes ∧
        (∀ i (h : i < data.length), Memory.read t.rxmem i = some (byteOfBits data[i])) ∧
        (∀ a, s.nBytes.toNat ≤ a → Memory.read t.rxmem a = Memory.read s.rxmem a) ∧
        t.trace = s.trace ++ (startToks ++ slotsToks (pre.zip ks) ++ [.w] ++ startToks ++
          slotsToks [(adb dev true, k)] ++ readSlotsToks data ++ stopToks) := by
    intro w pre hne hl
    obtain ⟨t, hgo, hdone⟩ := read_of_acked (w := w) dev hne h hlen h8 hl hp hw
    exact ⟨t, hgo, hdone.ackfail, hdone.ended, hdone.outside, hdone.rxCount, hdone.filled, hdone.above,
      by simpa using hdone.trace⟩
  exact ⟨hread _ [adb dev false, regLo reg] (by simp), hread _ [adb dev false, regHi reg, regLo reg] (by simp)⟩

/-! ## Sizes -/

/-- A trace of `m` micro-operations, `w` of them `WAIT` and `p` of them `SAMPLE`. -/
structure HasSize (tr : List Tok) (m w p : Nat) : Prop where
  length : tr.length = m
  waits : tr.count .w = w
  samples : tr.count .s0 + tr.count .s1 = p

theorem HasSize.append {l l' : List Tok} {m w p m' w' p' : Nat} (h : HasSize l m w p) (h' : HasSize l' m' w' p') :
    HasSize (l ++ l') (m + m') (w + w') (p + p') := by
  obtain ⟨hlen, hw, hp⟩ := h
  obtain ⟨hlen', hw', hp'⟩ := h'
  refine ⟨?_, ?_, ?_⟩ <;> simp only [List.length_append, List.count_append] <;> omega

theorem hasSize_startToks : HasSize startToks 6 2 0 := ⟨rfl, rfl, rfl⟩

theorem hasSize_stopToks : HasSize stopToks 5 2 0 := ⟨rfl, rfl, rfl⟩

theorem hasSize_bitToks (v : Bool) : HasSize (bitToks v) 5 2 0 := by cases v <;> exact ⟨rfl, rfl, rfl⟩

theorem hasSize_byteToks (b : Byte) : HasSize (byteToks b) 40 16 0 := by
  have hsamples : ∀ v, (bitToks v).count .s0 = 0 ∧ (bitToks v).count .s1 = 0 := by decide
  refine ⟨length_flatMap_of_groups length_bitToks _, count_flatMap_of_groups count_w_bitToks _, ?_⟩
  rw [byteToks, count_flatMap_of_groups (fun v => (hsamples v).1), count_flatMap_of_groups (fun v => (hsamples v).2),
    Nat.mul_zero]

theorem hasSize_ackToks_one : HasSize (ackToks 1) 8 2 1 := ⟨rfl, rfl, rfl⟩

theorem hasSize_readToks {bs : List Bool} (h : bs.length = 8) : HasSize (readToks bs) 43 16 8 := by
  obtain ⟨hlen, hw, hp⟩ := readToks_counts bs
  rw [h] at hlen hw hp
  exact ⟨hlen, hw, hp⟩

/-- Write slots, each acknowledged at its first sample. -/
theorem hasSize_slotsToks (bs : List Byte) :
    HasSize (slotsToks (bs.zip (List.replicate bs.length 1))) (48 * bs.length) (18 * bs.length) bs.length := by
  induction bs with
  | nil => exact ⟨rfl, rfl, rfl⟩
  | cons b bs ih =>
    have hslot := (hasSize_byteToks b).append hasSize_ackToks_one
    rw [List.length_cons, List.replicate_succ, List.zip_cons_cons, slotsToks_cons]
    convert hslot.append ih using 1 <;> omega

theorem readSlotsToks_cons (bs : List Bool) (rest : List (List Bool)) :
    readSlotsToks (bs :: rest) = readToks bs ++ bitToks rest.isEmpty ++ readSlotsToks rest := by
  cases rest <;> simp [readSlotsToks]

theorem hasSize_readSlotsToks {data : List (List Bool)} (h8 : ∀ bs ∈ data, bs.length = 8) :
    HasSize (readSlotsToks data) (48 * data.length) (18 * data.length) (8 * data.length) := by
  induction data with
  | nil => exact ⟨rfl, rfl, rfl⟩
  | cons bs rest ih =>
    have hslot := (hasSize_readToks (h8 bs (by simp))).append (hasSize_bitToks rest.isEmpty)
    rw [readSlotsToks_cons, List.length_cons]
    convert hslot.append (ih fun b hb => h8 b (by simp [hb])) using 1 <;> omega

/-! ## The environments of the table of R182 -/

theorem ackAnswers_replicate_one (m : Nat) : ackAnswers (List.replicate m 1) = List.replicate m false := by
  induction m with
  | zero => rfl
  | succ m ih => rw [List.replicate_succ, ackAnswers_cons, ih]; rfl

theorem willAnswer_firstSamples {s : State} {m : Nat} (h : ∀ j < m, s.envAt j = false) :
    s.willAnswer (ackAnswers (List.replicate m 1)) := by
  rw [ackAnswers_replicate_one, willAnswer_iff]
  intro i hi
  simpa using h i (by simpa using hi)

theorem pollsOk_replicate_one {s : State} (hN : 1 ≤ s.retryN.toNat) (m : Nat) : s.pollsOk (List.replicate m 1) := by
  intro k hk
  rw [List.eq_of_mem_replicate hk]
  exact ⟨le_refl 1, hN⟩

/-- Whatever the environment answers, the next `n` read slots read some `n` bytes of it. -/
theorem exists_data (s : State) (n : Nat) {l : List Bool} (h : s.willAnswer l) :
    ∃ data : List (List Bool), data.length = n ∧ (∀ bs ∈ data, bs.length = 8) ∧ s.willAnswer (l ++ data.flatten) := by
  induction n generalizing l with
  | zero => exact ⟨[], rfl, by simp, by simpa using h⟩
  | succ n ih =>
    have hnext : s.willAnswer (l ++ (List.range 8).map fun j => s.envAt (l.length + j)) :=
      willAnswer_append h fun i hi => by simp
    obtain ⟨data, hlen, h8, hw⟩ := ih hnext
    refine ⟨((List.range 8).map fun j => s.envAt (l.length + j)) :: data, by rw [List.length_cons, hlen],
      List.forall_mem_cons.mpr ⟨by simp, h8⟩, by simpa using hw⟩

theorem exists_holds_of_payloadWritten {s : State} (h : s.PayloadWritten) :
    ∃ bs : List Byte, bs.length = s.nBytes.toNat ∧ s.holds bs := by
  refine ⟨(List.range s.nBytes.toNat).map fun i => (Memory.read s.txmem i).getD 0, by simp, fun i hi => ?_⟩
  have hi' : i < s.nBytes.toNat := by simpa using hi
  obtain ⟨b, hb⟩ := Option.ne_none_iff_exists'.mp (h i hi')
  simp [hb]

/-! ## The table of R182 -/

theorem finishCommand_trace_of_went {w : Word} {s u : State} {tr : List Tok} {n : Nat} (h : Went (afterStart w s) u tr n) :
    (finishCommand u).trace = s.trace ++ (startToks ++ tr ++ stopToks) := by
  obtain ⟨-, -, -, -, -, -, -, htr⟩ := finishCommand_of_went h
  exact htr

/-- A write whose address and register slots are `pre`, every slot acknowledged at its first sample. -/
theorem size_write {s : State} (w : Word) {pre : List Byte} (hne : pre ≠ []) (hs : s.ready = true)
    (hfirst : ∀ j < pre.length + s.nBytes.toNat, s.envAt j = false) (hwritten : s.PayloadWritten) :
    ∃ t tr, sendAll pre writeData (afterStart w s) = .next t ∧ t.trace = s.trace ++ tr ∧
      HasSize tr (11 + 48 * (pre.length + s.nBytes.toNat)) (4 + 18 * (pre.length + s.nBytes.toNat))
        (pre.length + s.nBytes.toNat) := by
  obtain ⟨bs, hlen, hbs⟩ := exists_holds_of_payloadWritten hwritten
  obtain ⟨u, hgo, hwent⟩ := write_of_acked w hne hlen hbs (ks := List.replicate (pre ++ bs).length 1) (by simp)
    (pollsOk_replicate_one (retryN_pos_of_ready hs) _)
    (willAnswer_firstSamples (by rw [List.length_append, hlen]; exact hfirst))
  refine ⟨_, _, hgo, finishCommand_trace_of_went hwent, ?_⟩
  rw [← hlen, ← List.length_append]
  convert (hasSize_startToks.append (hasSize_slotsToks (pre ++ bs))).append hasSize_stopToks using 1 <;> omega

/-- A read whose address+write and register slots are `pre`, every slot acknowledged at its first sample. -/
theorem size_read {s : State} (w : Word) (dev : DevAddr) {pre : List Byte} (hne : pre ≠ []) (hs : s.ready = true)
    (hfirst : ∀ j < pre.length + 1, s.envAt j = false) :
    ∃ t tr, sendAll pre (readData dev) (afterStart w s) = .next t ∧ t.trace = s.trace ++ tr ∧
      HasSize tr (66 + 48 * (pre.length + s.nBytes.toNat)) (25 + 18 * (pre.length + s.nBytes.toNat))
        (1 + pre.length + 8 * s.nBytes.toNat) := by
  have hks : List.replicate (pre.length + 1) 1 = List.replicate pre.length 1 ++ [1] := List.replicate_succ'
  obtain ⟨data, hlen, h8, hw⟩ := exists_data s s.nBytes.toNat (willAnswer_firstSamples hfirst)
  have hp := pollsOk_replicate_one (retryN_pos_of_ready hs) (pre.length + 1)
  rw [hks] at hw hp
  obtain ⟨t, hgo, hdone⟩ := read_of_acked (w := w) dev hne hs hlen h8 (by simp) hp hw
  refine ⟨t, _, hgo, hdone.trace, ?_⟩
  have hrestart : HasSize ([Tok.w] ++ startToks) 7 3 0 := ⟨rfl, rfl, rfl⟩
  have haddress : HasSize (slotsToks [(adb dev true, 1)]) 48 18 1 := hasSize_slotsToks [adb dev true]
  have hselect := ((hasSize_slotsToks pre).append hrestart).append haddress
  rw [← hlen]
  convert ((hasSize_startToks.append hselect).append (hasSize_readSlotsToks h8)).append hasSize_stopToks using 1 <;> omega

/-- Settles O40: each command is `START`, its slots, a read's turnaround and repeated start among them, and `STOP`. -/
theorem sizesWithImmediateAcknowledge : Obligations.SizesWithImmediateAcknowledge := by
  unfold Obligations.SizesWithImmediateAcknowledge
  intro size s dev reg n h hn
  subst hn
  have size_of : ∀ {i : Instr} {o : Out} {m w p m' w' p' : Nat}, exec i s = o → m = m' → w = w' → p = p' →
      (∃ t tr, o = .next t ∧ t.trace = s.trace ++ tr ∧ HasSize tr m w p) → size i s m' w' p' := by
    rintro i _ m w p _ _ _ rfl rfl rfl rfl ⟨t, tr, ho, htr, hlen, hw, hp⟩
    exact ⟨t, tr, ho, htr, hlen, hw, hp⟩
  refine ⟨fun hz => ?_, fun hfirst hwr => ?_, fun hfirst hwr => ?_, fun hfirst => ?_, fun hfirst => ?_⟩
  · obtain ⟨hpresent, -⟩ := probeAnswersPresence s dev reg h
    obtain ⟨t, hgo, -, -, -, -, -, -, -, htr⟩ := hpresent 1 (le_refl 1) (retryN_pos_of_ready h) (by simp) hz
    have hsize :=
      ((hasSize_startToks.append (hasSize_byteToks (adb dev false))).append hasSize_ackToks_one).append hasSize_stopToks
    exact size_of hgo rfl rfl rfl ⟨t, _, rfl, htr, hsize⟩
  · exact size_of (exec_wr8_of_ready h dev reg) (by simp; omega) (by simp; omega) (by simp)
      (size_write _ (by simp) h hfirst hwr)
  · exact size_of (exec_wr16_of_ready h dev reg) (by simp; omega) (by simp; omega) (by simp)
      (size_write _ (by simp) h hfirst hwr)
  · exact size_of (exec_rd8_of_ready h dev reg) (by simp; omega) (by simp; omega) (by simp)
      (size_read _ dev (by simp) h hfirst)
  · exact size_of (exec_rd16_of_ready h dev reg) (by simp; omega) (by simp; omega) (by simp)
      (size_read _ dev (by simp) h hfirst)

end Sys2Proof.Machine
end

section
/-! PROOFS. Family 42_transactions: what the trace of a command is made of, whatever the environment answers, and what
follows for its stop and start conditions (O37, O38), the distance of its edges (O39) and its length (O41). -/

namespace Sys2Proof.Machine

/-! ## What an observer of the two lines keeps -/

theorem run_append (p : Pins) (l m : List Tok) : p.run (l ++ m) = (p.run l).run m := List.foldl_append

theorem countStarts_append (p : Pins) (l m : List Tok) :
    countStarts p (l ++ m) = countStarts p l + countStarts (p.run l) m := by
  induction l generalizing p with
  | nil => simp [countStarts, Pins.run]
  | cons t l ih => rw [List.cons_append, countStarts, countStarts, ih, Nat.add_assoc]; rfl

theorem countStops_append (p : Pins) (l m : List Tok) :
    countStops p (l ++ m) = countStops p l + countStops (p.run l) m := by
  induction l generalizing p with
  | nil => simp [countStops, Pins.run]
  | cons t l ih => rw [List.cons_append, countStops, countStops, ih, Nat.add_assoc]; rfl

/-- The outputs, and whether a `WAIT` has passed since the last change of the clock and of the data line: what
`edgesApart` goes by. -/
structure Watch where
  pins : Pins
  clock : Bool
  data : Bool

/-- The micro-operations of `l` take an observer from `v` to `v'`, past `n` start conditions and no stop condition, with
every two edges apart that `v` allows to be. -/
structure Passes (v v' : Watch) (n : Nat) (l : List Tok) : Prop where
  run : v.pins.run l = v'.pins
  starts : countStarts v.pins l = n
  stops : countStops v.pins l = 0
  apart : ∀ rest, edgesApart v.pins v.clock v.data (l ++ rest) = edgesApart v'.pins v'.clock v'.data rest

theorem Passes.trans {v v' v'' : Watch} {n n' : Nat} {l l' : List Tok} (h : Passes v v' n l) (h' : Passes v' v'' n' l') :
    Passes v v'' (n + n') (l ++ l') where
  run := by rw [run_append, h.run, h'.run]
  starts := by rw [countStarts_append, h.run, h.starts, h'.starts]
  stops := by rw [countStops_append, h.run, h.stops, h'.stops]
  apart rest := by rw [List.append_assoc, h.apart, h'.apart]

theorem passes_nil (v : Watch) : Passes v v 0 [] := ⟨rfl, rfl, rfl, fun _ => rfl⟩

/-- Before a command, idle pins of which both may just have changed (`10_state.md` R23). -/
def idleWatch : Watch := ⟨⟨true, true, .out⟩, false, false⟩

/-- Between the primitives of a command the clock is held low, and has just been lowered, and the data line, driven to
`x`, has been left alone since the last `WAIT` (`10_state.md` R44). -/
def heldWatch (x : Bool) : Watch := ⟨⟨false, x, .out⟩, false, true⟩

/-- Between the bits of `RBYTE` the data line is released under the low clock; `settled`: it has been for a `WAIT`. -/
def readWatch (settled : Bool) : Watch := ⟨⟨false, true, .inp⟩, false, settled⟩

/-- While the engine polls both lines are released, and settled. -/
def pollWatch : Watch := ⟨⟨true, true, .inp⟩, true, true⟩

/-! ## What each part of a command shows -/

theorem passes_startToks : Passes idleWatch (heldWatch false) 1 startToks := ⟨rfl, rfl, rfl, fun _ => rfl⟩

/-- The turnaround and the repeated `START` (`42_transactions.md` R174). -/
theorem passes_restart (x : Bool) : Passes (heldWatch x) (heldWatch false) 1 ([.w] ++ startToks) := by
  cases x <;> exact ⟨rfl, rfl, rfl, fun _ => rfl⟩

theorem passes_bitToks (v x : Bool) : Passes (heldWatch x) (heldWatch v) 0 (bitToks v) := by
  cases v <;> cases x <;> exact ⟨rfl, rfl, rfl, fun _ => rfl⟩

theorem passes_flatMap_bitToks (bs : List Bool) (x : Bool) :
    ∃ y, Passes (heldWatch x) (heldWatch y) 0 (bs.flatMap bitToks) := by
  induction bs generalizing x with
  | nil => exact ⟨x, passes_nil _⟩
  | cons v bs ih =>
    obtain ⟨y, hy⟩ := ih v
    exact ⟨y, (passes_bitToks v x).trans hy⟩

theorem passes_polls (j : Nat) : Passes pollWatch pollWatch 0 (List.replicate j [Tok.s1, Tok.w]).flatten := by
  induction j with
  | zero => exact passes_nil _
  | succ j ih =>
    have hpoll : Passes pollWatch pollWatch 0 [.s1, .w] := ⟨rfl, rfl, rfl, fun _ => rfl⟩
    exact hpoll.trans ih

/-- `WACK` (`41_bus_primitives.md` R147), whatever its last sample reads. -/
theorem passes_poll {last : Tok} (hlast : last = .s0 ∨ last = .s1) (j : Nat) (x : Bool) :
    Passes (heldWatch x) (heldWatch true) 0
      ([.d1, .i, .w, .c1, .w] ++ (List.replicate j [Tok.s1, Tok.w]).flatten ++ [last, .c0, .o]) := by
  have hbegin : Passes (heldWatch x) pollWatch 0 [.d1, .i, .w, .c1, .w] := by
    cases x <;> exact ⟨rfl, rfl, rfl, fun _ => rfl⟩
  have hend : Passes pollWatch (heldWatch true) 0 [last, .c0, .o] := by
    rcases hlast with rfl | rfl <;> exact ⟨rfl, rfl, rfl, fun _ => rfl⟩
  exact (hbegin.trans (passes_polls j)).trans hend

theorem passes_readBitToks (v settled : Bool) : Passes (readWatch settled) (readWatch true) 0 (readBitToks v) := by
  cases v <;> cases settled <;> exact ⟨rfl, rfl, rfl, fun _ => rfl⟩

theorem passes_flatMap_readBitToks {bs : List Bool} (hne : bs ≠ []) (settled : Bool) :
    Passes (readWatch settled) (readWatch true) 0 (bs.flatMap readBitToks) := by
  have hmore : ∀ bs : List Bool, Passes (readWatch true) (readWatch true) 0 (bs.flatMap readBitToks) := fun bs => by
    induction bs with
    | nil => exact passes_nil _
    | cons v bs ih => exact (passes_readBitToks v true).trans ih
  cases bs with
  | nil => exact absurd rfl hne
  | cons v bs => exact (passes_readBitToks v settled).trans (hmore bs)

/-- `RBYTE` (`41_bus_primitives.md` R146). The data line rises at its first micro-operation if it was driven low. -/
theorem passes_readToks {bs : List Bool} (hne : bs ≠ []) (x : Bool) :
    Passes (heldWatch x) (heldWatch true) 0 (readToks bs) := by
  have hbegin : Passes (heldWatch x) (readWatch x) 0 [.d1, .i] := by cases x <;> exact ⟨rfl, rfl, rfl, fun _ => rfl⟩
  have hend : Passes (readWatch true) (heldWatch true) 0 [.o] := ⟨rfl, rfl, rfl, fun _ => rfl⟩
  exact (hbegin.trans (passes_flatMap_readBitToks hne x)).trans hend

/-! ## The inside of a transaction -/

/-- `l` is a stretch of a command between its `START` and its `STOP`, of `n` repeated starts and at most `m` slots, the
retry bound being `N` (`42_transactions.md` R182, R183). -/
structure Inside (N n m : Nat) (l : List Tok) : Prop where
  passes : ∀ x, ∃ y, Passes (heldWatch x) (heldWatch y) n l
  length : l.length ≤ 7 * n + m * (48 + 2 * N)

theorem Inside.append {N n m n' m' : Nat} {l l' : List Tok} (h : Inside N n m l) (h' : Inside N n' m' l') :
    Inside N (n + n') (m + m') (l ++ l') where
  passes x := by
    obtain ⟨y, hy⟩ := h.passes x
    obtain ⟨z, hz⟩ := h'.passes y
    exact ⟨z, hy.trans hz⟩
  length := by
    have hl := h.length
    have hl' := h'.length
    rw [List.length_append, Nat.add_mul]
    omega

theorem inside_nil (N : Nat) : Inside N 0 0 [] := ⟨fun x => ⟨x, passes_nil _⟩, Nat.zero_le _⟩

theorem Inside.mono {N n m m' : Nat} {l : List Tok} (h : Inside N n m l) (hm : m ≤ m') : Inside N n m' l :=
  { h with length := h.length.trans (Nat.add_le_add_left (Nat.mul_le_mul_right _ hm) _) }

theorem inside_restart (N : Nat) : Inside N 1 0 ([.w] ++ startToks) :=
  ⟨fun x => ⟨false, passes_restart x⟩, by simp [startToks]⟩

/-- A write slot polled `k` times, acknowledged or not. -/
theorem inside_slot {N k : Nat} {last : Tok} (hlast : last = .s0 ∨ last = .s1) (h1 : 1 ≤ k) (hk : k ≤ N) (b : Byte) :
    Inside N 0 1 (byteToks b ++
      ([.d1, .i, .w, .c1, .w] ++ (List.replicate (k - 1) [Tok.s1, Tok.w]).flatten ++ [last, .c0, .o])) where
  passes x := by
    obtain ⟨y, hy⟩ := passes_flatMap_bitToks (msbFirst b) x
    exact ⟨true, hy.trans (passes_poll hlast (k - 1) y)⟩
  length := by
    obtain ⟨hpolls, -⟩ := polls_counts (k - 1)
    have hbyte := (hasSize_byteToks b).length
    simp only [List.length_append, hbyte, hpolls, List.length_cons, List.length_nil]
    omega

theorem inside_ackedSlot {N k : Nat} (h1 : 1 ≤ k) (hk : k ≤ N) (b : Byte) : Inside N 0 1 (byteToks b ++ ackToks k) :=
  inside_slot (.inl rfl) h1 hk b

theorem inside_nackedSlot {N : Nat} (h1 : 1 ≤ N) (b : Byte) : Inside N 0 1 (byteToks b ++ nackToks N) :=
  inside_slot (.inr rfl) h1 (le_refl N) b

theorem inside_slotsToks {s : State} {bs : List Byte} {ks : List Nat} (hp : s.pollsOk ks) :
    Inside s.retryN.toNat 0 ks.length (slotsToks (bs.zip ks)) := by
  induction ks generalizing bs with
  | nil => rw [List.zip_nil_right]; exact inside_nil _
  | cons k ks ih =>
    cases bs with
    | nil => exact (inside_nil _).mono (Nat.zero_le _)
    | cons b bs =>
      obtain ⟨h1, hk⟩ := hp k (by simp)
      rw [List.zip_cons_cons, slotsToks_cons, List.length_cons, Nat.add_comm]
      exact (inside_ackedSlot h1 hk b).append (ih fun j hj => hp j (by simp [hj]))

theorem inside_readSlotsToks (N : Nat) {data : List (List Bool)} (h8 : ∀ bs ∈ data, bs.length = 8) :
    Inside N 0 data.length (readSlotsToks data) := by
  induction data with
  | nil => exact inside_nil N
  | cons bs rest ih =>
    have hbs := h8 bs (by simp)
    have hne : bs ≠ [] := by rintro rfl; cases hbs
    have hslot : Inside N 0 1 (readToks bs ++ bitToks rest.isEmpty) :=
      ⟨fun x => ⟨_, (passes_readToks hne x).trans (passes_bitToks _ true)⟩, by
        rw [List.length_append, (hasSize_readToks hbs).length, length_bitToks]; omega⟩
    rw [readSlotsToks_cons, List.length_cons, Nat.add_comm]
    exact hslot.append (ih fun b hb => h8 b (by simp [hb]))

/-! ## Commands that are no read -/

/-- A command launched in `s` has ended in `t`, with `n` repeated starts and at most `m` slots between its `START` and its
`STOP`. -/
def Traced (s t : State) (n m : Nat) : Prop :=
  ∃ tr, t.trace = s.trace ++ (startToks ++ tr ++ stopToks) ∧ Inside s.retryN.toNat n m tr

theorem Traced.mono {s t : State} {n m m' : Nat} (h : Traced s t n m) (hm : m ≤ m') : Traced s t n m' := by
  obtain ⟨tr, htr, hin⟩ := h
  exact ⟨tr, htr, hin.mono hm⟩

theorem traced_finish {w : Word} {s u : State} {tr : List Tok} {n m k : Nat} (h : Went (afterStart w s) u tr k)
    (hin : Inside s.retryN.toNat n m tr) : Traced s (finishCommand u) n m :=
  ⟨tr, finishCommand_trace_of_went h, hin⟩

theorem traced_abort {w : Word} {s u : State} {tr : List Tok} {n m k : Nat} (h : Went (afterStart w s) u tr k)
    (hin : Inside s.retryN.toNat n m tr) : Traced s (abortCommand u) n m := by
  obtain ⟨-, -, -, -, -, -, -, htr⟩ := abortCommand_of_went h
  exact ⟨tr, htr, hin⟩

/-- Both ends of a write slot are a stretch of one slot. -/
theorem sendByte_inside {P : Out → Prop} {b : Byte} {c : State → Out} {s : State} (hN : 1 ≤ s.retryN.toNat)
    (habort : ∀ t tr n, Went s t tr n → Inside s.retryN.toNat 0 1 tr → P (.next (abortCommand t)))
    (hc : ∀ t tr n, Went s t tr n → Inside s.retryN.toNat 0 1 tr → P (c t)) : P (sendByte b c s) := by
  rcases sendByte_cases s b c hN with ⟨k, t, h1, hk, hgo, hw, -⟩ | ⟨t, hstop, hw, -⟩
  · rw [hgo]; exact hc t _ _ hw (inside_ackedSlot h1 hk b)
  · rw [hstop]; exact habort t _ _ hw (inside_nackedSlot hN b)

theorem sendAll_inside {P : Out → Prop} {bs : List Byte} {c : State → Out} {s : State} (hne : bs ≠ [])
    (hN : 1 ≤ s.retryN.toNat)
    (habort : ∀ t tr n, Went s t tr n → Inside s.retryN.toNat 0 bs.length tr → P (.next (abortCommand t)))
    (hc : ∀ t tr n, Went s t tr n → Inside s.retryN.toNat 0 bs.length tr → P (c t)) : P (sendAll bs c s) := by
  induction bs generalizing s with
  | nil => exact absurd rfl hne
  | cons b bs ih =>
    rw [List.length_cons, Nat.add_comm] at habort hc
    refine sendByte_inside hN (fun t tr n hw hin => habort t tr n hw (hin.mono (Nat.le_add_right ..)))
      fun t tr n hw hin => ?_
    cases bs with
    | nil => exact hc t tr n hw hin
    | cons b' bs =>
      refine ih (by simp) (by rw [hw.retryN]; exact hN) (fun u tr' n' hw' hin' => ?_) fun u tr' n' hw' hin' => ?_
      · rw [hw.retryN] at hin'; exact habort u _ _ (hw.trans hw') (hin.append hin')
      · rw [hw.retryN] at hin'; exact hc u _ _ (hw.trans hw') (hin.append hin')

/-- If the outcome is a next state, the command has ended there, without a repeated start and after at most `m` slots. -/
def EndsWithin (s : State) (m : Nat) (o : Out) : Prop := ∀ t, o = .next t → Traced s t 0 m

theorem Traced.endsWithin {s t : State} {m : Nat} (h : Traced s t 0 m) : EndsWithin s m (.next t) := by
  rintro _ ⟨⟩; exact h

theorem writePayload_endsWithin {w : Word} {s : State} (hN : 1 ≤ s.retryN.toNat) (r : Nat) {u : State} {tr : List Tok}
    {n m : Nat} (h : Went (afterStart w s) u tr n) (hin : Inside s.retryN.toNat 0 m tr) :
    EndsWithin s (m + r) (writePayload r u) := by
  induction r generalizing u tr n m with
  | zero => exact (traced_finish h hin).endsWithin
  | succ r ih =>
    have hretry : u.retryN = s.retryN := by rw [h.retryN, afterStart_eq]
    rw [writePayload]
    cases u.txByte with
    | none => rintro _ ⟨⟩
    | some b =>
      refine sendByte_inside (by rw [hretry]; exact hN) (fun t tr' n' hw hin' => ?_) fun t tr' n' hw hin' => ?_
      · rw [hretry] at hin'
        exact (traced_abort (h.trans hw) ((hin.append hin').mono (by omega))).endsWithin
      · rw [hretry] at hin'
        rw [show m + (r + 1) = m + 1 + r by omega]
        exact ih (h.trans hw).countByte (hin.append hin')

theorem probe_endsWithin {w : Word} {s : State} (b : Byte) (hs : s.ready = true) :
    EndsWithin s 1 (sendAll [b] (fun t => .next (finishCommand t)) (afterStart w s)) := by
  have hretry : (afterStart w s).retryN = s.retryN := by rw [afterStart_eq]
  refine sendAll_inside (by simp) (underWay_afterStart w hs).retryN (fun t tr n hw hin => ?_) fun t tr n hw hin => ?_
  · rw [hretry] at hin; exact (traced_abort hw hin).endsWithin
  · rw [hretry] at hin; exact (traced_finish hw hin).endsWithin

theorem write_endsWithin {w : Word} {s : State} {pre : List Byte} (hne : pre ≠ []) (hs : s.ready = true) :
    EndsWithin s (pre.length + s.nBytes.toNat) (sendAll pre writeData (afterStart w s)) := by
  have hretry : (afterStart w s).retryN = s.retryN := by rw [afterStart_eq]
  refine sendAll_inside hne (underWay_afterStart w hs).retryN (fun t tr n hw hin => ?_) fun t tr n hw hin => ?_
  · rw [hretry] at hin; exact (traced_abort hw (hin.mono (Nat.le_add_right ..))).endsWithin
  · rw [hretry] at hin
    have hlen : t.nBytes = s.nBytes := by rw [hw.nBytes, afterStart_eq]
    rw [writeData, hlen]
    exact writePayload_endsWithin (retryN_pos_of_ready hs) _ hw.clearBytecnt hin

/-! ## Reads -/

/-- What the environment answers to `m` slots in a row: each is acknowledged within the bound, or one is not. -/
theorem exists_polls (s : State) (m : Nat) : ∃ ks, s.pollsOk ks ∧
    ((ks.length = m ∧ s.willAnswer (ackAnswers ks)) ∨
     (ks.length < m ∧ s.willAnswer (ackAnswers ks ++ List.replicate s.retryN.toNat true))) := by
  induction m with
  | zero => exact ⟨[], by simp [State.pollsOk], .inl ⟨rfl, by simp [ackAnswers, State.willAnswer]⟩⟩
  | succ m ih =>
    obtain ⟨ks, hp, ⟨hlen, hw⟩ | ⟨hlen, hw⟩⟩ := ih
    · rcases first_zero (fun i => s.envAt ((ackAnswers ks).length + i)) s.retryN.toNat with
        ⟨k, h1, hk, hones, hzero⟩ | hones
      · refine ⟨ks ++ [k], ?_, .inl ⟨by simp [hlen], ?_⟩⟩
        · intro j hj
          rcases List.mem_append.mp hj with hj | hj
          · exact hp j hj
          · rw [List.mem_singleton.mp hj]; exact ⟨h1, hk⟩
        · rw [ackAnswers_append, show ackAnswers [k] = List.replicate (k - 1) true ++ [false] by simp [ackAnswers]]
          exact willAnswer_append hw (getElem_poll h1 hones hzero)
      · refine ⟨ks, hp, .inr ⟨by omega, willAnswer_append hw fun i hi => ?_⟩⟩
        rw [List.getElem_replicate]
        exact hones i (by simpa using hi)
    · exact ⟨ks, hp, .inr ⟨by omega, hw⟩⟩

/-- A read whose repeated start is reached and whose address+read slot is not acknowledged (`60_exceptions.md` R232). -/
theorem readData_of_nacked {w : Word} {s u : State} {tr : List Tok} {n m : Nat} (dev : DevAddr) (hs : s.ready = true)
    (h : Went (afterStart w s) u tr n) (hin : Inside s.retryN.toNat 0 m tr)
    (hw : u.willAnswer (List.replicate s.retryN.toNat true)) :
    ∃ t, readData dev u = .next t ∧ Traced s t 1 (m + 1) := by
  have hrestart := went_restart h.dir
  have hretry : (startP (turnP u)).retryN = s.retryN := by rw [hrestart.retryN, h.retryN, afterStart_eq]
  obtain ⟨t, hgo, hwent, -⟩ := sendByte_nack (s := startP (turnP u)) (b := adb dev true)
    (fun t => .next (readPayload t.nBytes.toNat (clearBytecnt t))) (by rw [hretry]; exact retryN_pos_of_ready hs)
    (fun i hi => by
      rw [hretry] at hi
      rw [envAt_shift hrestart.answers hrestart.sampleNo, Nat.zero_add, willAnswer_iff.mp hw i (by simpa using hi)]
      simp)
  rw [hretry] at hwent
  have hall := (h.trans hrestart).trans hwent
  have hslot := inside_nackedSlot (retryN_pos_of_ready hs) (adb dev true)
  exact ⟨_, hgo, traced_abort hall ((hin.append (inside_restart _)).append hslot)⟩

/-- A read launched in `s`, of `slots` register-select slots, has ended in `t`: with Success and one repeated start, or
failed in a slot, where the samples at which those before it were acknowledged, `ks`, tell whether it came to the
repeated start (`42_transactions.md` R183 a). -/
def ReadTraced (s t : State) (slots : Nat) : Prop :=
  ∃ n, Traced s t n (slots + 1 + s.nBytes.toNat) ∧ (t.ackfail = false → n = 1) ∧
    (t.ackfail = true → ∃ ks, s.pollsOk ks ∧ s.willAnswer (ackAnswers ks ++ List.replicate s.retryN.toNat true) ∧
      ks.length ≤ slots ∧ n = if ks.length = slots then 1 else 0)

/-- A read from its launch to its end, whatever the environment answers. -/
theorem read_traced {w : Word} {s : State} {pre : List Byte} (dev : DevAddr) (hne : pre ≠ []) (hs : s.ready = true) :
    ∃ t, sendAll pre (readData dev) (afterStart w s) = .next t ∧ ReadTraced s t pre.length := by
  have hretry : (afterStart w s).retryN = s.retryN := by rw [afterStart_eq]
  obtain ⟨ks, hp, ⟨hlen, hw⟩ | ⟨hlen, hw⟩⟩ := exists_polls s (pre.length + 1)
  · -- every addressing slot is acknowledged
    obtain ⟨ks, k, rfl⟩ := (List.eq_nil_or_concat' ks).resolve_left (by rintro rfl; simp at hlen)
    have hl : ks.length = pre.length := by simpa using hlen
    obtain ⟨data, hdata, h8, hw⟩ := exists_data s s.nBytes.toNat hw
    obtain ⟨t, hgo, hdone⟩ := read_of_acked (w := w) dev hne hs hdata h8 hl hp hw
    obtain ⟨hp₁, hp₂⟩ := pollsOk_append hp
    refine ⟨t, hgo, 1, ⟨_, by rw [hdone.trace, List.append_assoc startToks], ?_⟩, fun _ => rfl, fun hf => ?_⟩
    · have hselect := ((inside_slotsToks (bs := pre) hp₁).append (inside_restart _)).append
        (inside_slotsToks (bs := [adb dev true]) hp₂)
      exact (hselect.append (inside_readSlotsToks _ h8)).mono (by simp [hl, hdata])
    · rw [hdone.ackfail] at hf; cases hf
  · have hp' : (afterStart w s).pollsOk ks := by rw [afterStart_eq]; exact hp
    have hw' := willAnswer_afterStart (w := w) hw
    by_cases hl : ks.length = pre.length
    · -- the register is selected, and the address+read slot fails
      obtain ⟨u, hgo, hwent, hrest⟩ := sendAll_ack (readData dev) hne hl hp' hw'
      obtain ⟨t, hgo', htr⟩ := readData_of_nacked dev hs hwent (inside_slotsToks hp) hrest
      exact ⟨t, hgo.trans hgo', 1, htr.mono (by omega), fun _ => rfl,
        fun _ => ⟨ks, hp, hw, by omega, (if_pos hl).symm⟩⟩
    · -- a register-select slot fails
      rw [← hretry] at hw'
      obtain ⟨u, n, hgo, hwent⟩ := sendAll_nack (bs := pre) (readData dev)
        (by rw [hretry]; exact retryN_pos_of_ready hs) (List.getElem?_eq_getElem (by omega)) hp' hw'
      rw [hretry, List.append_assoc] at hwent
      obtain ⟨hack, -⟩ := abortCommand_of_went hwent
      have hin := (inside_slotsToks (bs := pre) hp).append
        (inside_nackedSlot (retryN_pos_of_ready hs) (pre[ks.length]'(by omega)))
      refine ⟨_, hgo, 0, (traced_abort hwent hin).mono (by omega), fun hf => ?_,
        fun _ => ⟨ks, hp, hw, by omega, (if_neg hl).symm⟩⟩
      rw [hack] at hf; cases hf

/-! ## Every command -/

/-- What the trace of a command that begins shows, whatever the environment answers. -/
theorem exec_traced {s t : State} {i : Instr} (hi : i.isCommand = true) (hs : s.ready = true) (h : exec i s = .next t) :
    (i.isRead = false ∧ Traced s t 0 (4 + s.nBytes.toNat)) ∨
    (i.isRead = true ∧ selectSlots i ≤ 3 ∧ ReadTraced s t (selectSlots i)) := by
  have hread : ∀ (bs : List Byte) (dev : DevAddr) (w : Word), bs ≠ [] →
      sendAll bs (readData dev) (afterStart w s) = .next t → ReadTraced s t bs.length := fun bs dev w hne he => by
    obtain ⟨t', hgo, hr⟩ := read_traced (w := w) dev hne hs
    rw [he] at hgo; cases hgo
    exact hr
  cases i with
  | probe dev reg =>
    rw [exec_probe_of_ready hs] at h
    exact .inl ⟨rfl, (probe_endsWithin _ hs t h).mono (by omega)⟩
  | wr8 dev reg =>
    rw [exec_wr8_of_ready hs] at h
    exact .inl ⟨rfl, (write_endsWithin (by simp) hs t h).mono (by simp)⟩
  | wr16 dev reg =>
    rw [exec_wr16_of_ready hs] at h
    exact .inl ⟨rfl, (write_endsWithin (by simp) hs t h).mono (by simp)⟩
  | rd8 dev reg =>
    rw [exec_rd8_of_ready hs] at h
    exact .inr ⟨rfl, by simp [selectSlots], hread _ dev _ (by simp) h⟩
  | rd16 dev reg =>
    rw [exec_rd16_of_ready hs] at h
    exact .inr ⟨rfl, by simp [selectSlots], hread _ dev _ (by simp) h⟩
  | _ => cases hi

theorem exists_traced {s t : State} {i : Instr} (hi : i.isCommand = true) (hs : s.ready = true)
    (h : exec i s = .next t) : ∃ n ≤ 1, Traced s t n (4 + s.nBytes.toNat) := by
  rcases exec_traced hi hs h with ⟨-, htr⟩ | ⟨-, hslots, n, htr, hsucc, hfail⟩
  · exact ⟨0, by omega, htr⟩
  · refine ⟨n, ?_, htr.mono (by omega)⟩
    cases hack : t.ackfail with
    | false => exact (hsucc hack).le
    | true =>
      obtain ⟨ks, -, -, -, rfl⟩ := hfail hack
      split <;> omega

theorem pins_of_pinsIdle {s : State} (h : s.pinsIdle = true) : s.pins = idleWatch.pins := by
  obtain ⟨hscl, hsda, hdir⟩ := (pinsIdle_iff s).mp h
  simp [State.pins, idleWatch, hscl, hsda, hdir]

/-- From idle pins, `START` and what follows it come to held pins. -/
theorem Inside.from_idle {N n m : Nat} {tr : List Tok} (h : Inside N n m tr) :
    ∃ y, Passes idleWatch (heldWatch y) (1 + n) (startToks ++ tr) := by
  obtain ⟨y, hy⟩ := h.passes false
  exact ⟨y, passes_startToks.trans hy⟩

theorem launch_pins {w : Word} {s t : State} (h : launch w s = .next t) : t.pins = s.pins := by
  rcases launch_cases w s with ⟨-, hl⟩ | ⟨-, -, hl⟩ | ⟨-, -, -, hl⟩ | ⟨-, -, -, -, hl⟩ | ⟨-, -, hl⟩ <;>
    rw [hl] at h <;> cases h <;> rfl

/-- A word that is no command is its launch, well-formed or not. -/
theorem exec_eq_launch_of_not_command {i : Instr} (hi : i.isCommandWord = true) (h : i.isCommand = false) :
    ∃ w, ∀ s, exec i s = launch w s := by
  cases i with
  | reservedOp3 | reservedOp4 | reservedOp7 | reservedRsv => exact ⟨_, fun _ => rfl⟩
  | probe | wr8 | rd8 | wr16 | rd16 => cases h
  | _ => cases hi

/-- A command word that ends with a refusal flag set has not begun (`60_exceptions.md` R233, R234). -/
theorem exec_refused {s t : State} {i : Instr} (hi : i.isCommandWord = true) (h : exec i s = .next t)
    (hrefused : t.cmderr = true ∨ t.cfgerr = true) : t.trace = s.trace ∧ t.pins = s.pins := by
  cases hc : i.isCommand with
  | false =>
    obtain ⟨w, he⟩ := exec_eq_launch_of_not_command hi hc
    rw [he] at h
    exact ⟨launch_trace h, launch_pins h⟩
  | true =>
    obtain ⟨hr, body, he⟩ := exec_eq_runCommand hc
    by_cases hs : s.ready = true
    · obtain ⟨-, hcmderr, hcfgerr, -⟩ := (exec_canEnd hc hs t h).ended
      simp [hcmderr, hcfgerr] at hrefused
    · rw [he, runCommand_of_not_ready body hr hs] at h
      exact ⟨launch_trace h, launch_pins h⟩

/-- Settles O37: `START` and the slots come to held pins, from which `STOP` has the one stop condition. -/
theorem onlyStopIsTheLast : Obligations.OnlyStopIsTheLast := by
  unfold Obligations.OnlyStopIsTheLast
  refine ⟨fun s t i hi hs hidle h => ?_, fun s t i hi h hrefused => ?_⟩
  · obtain ⟨n, -, tr, htr, hin⟩ := exists_traced hi hs h
    obtain ⟨y, hy⟩ := hin.from_idle
    obtain ⟨hstop, -⟩ := stopToks_from_clock_low y
    obtain ⟨hended, -⟩ := (exec_canEnd hi hs t h).ended
    simp only [State.ended, Bool.and_eq_true] at hended
    rw [pins_of_pinsIdle hidle]
    exact ⟨hended.2, startToks ++ tr, htr, hy.stops, by rw [countStops_append, hy.stops, hy.run]; exact hstop⟩
  · exact exec_refused hi h hrefused

/-- Settles O38: the first `START` has one start condition, and a read's repeated start another. -/
theorem startConditionsCounted : Obligations.StartConditionsCounted := by
  unfold Obligations.StartConditionsCounted
  intro s t i hi hs hidle h
  rw [pins_of_pinsIdle hidle]
  have hcount : ∀ {n m : Nat} {tr : List Tok}, Inside s.retryN.toNat n m tr →
      countStarts idleWatch.pins (startToks ++ tr ++ stopToks) = 1 + n := fun hin => by
    obtain ⟨y, hy⟩ := hin.from_idle
    obtain ⟨-, hstart, -⟩ := stopToks_from_clock_low y
    rw [countStarts_append, hy.starts, hy.run]
    exact congrArg _ hstart
  rcases exec_traced hi hs h with ⟨hread, tr, htr, hin⟩ | ⟨hread, -, n, ⟨tr, htr, hin⟩, hsucc, hfail⟩
  · exact ⟨_, htr, fun _ => hcount hin, by simp [hread], by simp [hread]⟩
  · refine ⟨_, htr, by simp [hread], fun _ hack => by rw [hcount hin, hsucc hack], fun _ hack => ?_⟩
    obtain ⟨ks, hp, hw, hle, hn⟩ := hfail hack
    refine ⟨ks, hp, hw, hle, ?_⟩
    rw [hcount hin, hn]
    split <;> rfl

/-- Settles O39: each part of the command leaves the edges after it as far apart as it found them. -/
theorem edgesAreSeparatedByWaits : Obligations.EdgesAreSeparatedByWaits := by
  unfold Obligations.EdgesAreSeparatedByWaits
  intro s t i hi hs hidle h
  obtain ⟨n, -, tr, htr, hin⟩ := exists_traced hi hs h
  obtain ⟨y, hy⟩ := hin.from_idle
  refine ⟨_, htr, ?_⟩
  rw [pins_of_pinsIdle hidle]
  refine (hy.apart stopToks).trans ?_
  cases y <;> rfl

/-- Settles O41: at most `4 + n` slots, of at most `48 + 2 N` micro-operations each, and the framing. -/
theorem commandLengthIsBounded : Obligations.CommandLengthIsBounded := by
  unfold Obligations.CommandLengthIsBounded
  intro s t i hi hs h
  obtain ⟨n, hn, tr, htr, hin⟩ := exists_traced hi hs h
  have hlen := hin.length
  rw [htr]
  simp only [List.length_append, hasSize_startToks.length, hasSize_stopToks.length]
  omega

end Sys2Proof.Machine
end

section
/-! PROOFS. Family 43_host_interface: the buffer ports (O57), the launch (O22, O25), completion (O44), and the host's
register accesses (O54 to O56). Each access has one equation for `BUSY = 0` and one for `BUSY = 1`. -/

namespace Sys2Proof.Machine

/-! ## The buffer ports -/

theorem txWrite_of_idle {s : State} {i : BitVec 16} (hb : s.busy = false) (hi : i.toNat < 65535) (b : Byte) :
    txWrite i b s = .next { s with txmem := Memory.write s.txmem i.toNat b } := by
  simp [txWrite, hb, hi]

theorem txWrite_ignored {s : State} {i : BitVec 16} (hb : s.busy = false) (hi : ¬ i.toNat < 65535) (b : Byte) :
    txWrite i b s = .next s := by
  simp [txWrite, hb, hi]

theorem txWrite_of_busy {s : State} (hb : s.busy = true) (i : BitVec 16) (b : Byte) :
    txWrite i b s = .fault .txWriteWhileBusy := by
  simp [txWrite, hb]

theorem rxRead_of_lt {s : State} {i : BitVec 16} {c : Byte} (hb : s.busy = false) (hi : i < s.rxCount)
    (hc : Memory.read s.rxmem i.toNat = some c) : rxRead i s = .next { s with rxRdata := c } := by
  simp [rxRead, hb, hi, hc]

theorem rxRead_of_not_lt {s : State} {i : BitVec 16} (hb : s.busy = false) (hi : ¬ i < s.rxCount) :
    rxRead i s = .next { s with rxRdata := Config.freeRxByte s.freeNo, freeNo := s.freeNo + 1 } := by
  simp [rxRead, hb, hi]

theorem rxRead_of_busy {s : State} (hb : s.busy = true) (i : BitVec 16) : rxRead i s = .fault .rxReadWhileBusy := by
  simp [rxRead, hb]

/-- Settles O57: `TXMEM` reads back what was written and keeps the rest; at or above `RXCOUNT` the value is a free one. -/
theorem bufferPorts : Obligations.BufferPorts := by
  unfold Obligations.BufferPorts
  intro s i b hb
  refine ⟨fun hi => ?_, fun hi => txWrite_ignored hb (by omega) b, fun c hi hc => rxRead_of_lt hb hi hc,
    fun hi => ⟨_, rxRead_of_not_lt hb hi⟩⟩
  exact ⟨_, txWrite_of_idle hb hi b, Memory.read_write_same _ _ _, fun a ha => Memory.read_write_other _ _ ha⟩

/-! ## The launch -/

theorem launch_of_busy {s : State} (hb : s.busy = true) (w : Word) : launch w s = .fault .reentrantLaunch := by
  simp [launch, hb]

theorem launch_of_reserved {s : State} {w : Word} (hb : s.busy = false) (hr : cmdReserved w = true) :
    launch w s = .next (refuseCmdErr (acceptWord w s)) := by
  simp [launch, hb, hr]

theorem launch_of_unconfigured {s : State} {w : Word} (hb : s.busy = false) (hr : cmdReserved w = false)
    (hc : s.cfgValid = false) : launch w s = .next (refuseCfgErr (acceptWord w s)) := by
  simp [launch, hb, hr, hc]

theorem statusWord_refuseCmdErr {s : State} (hb : s.busy = false) (w : Word) :
    (refuseCmdErr (acceptWord w s)).statusWord = 0x0A := by
  simp [State.statusWord, refuseCmdErr, acceptWord, hb]

theorem statusWord_refuseCfgErr {s : State} (hb : s.busy = false) (w : Word) :
    (refuseCfgErr (acceptWord w s)).statusWord = 0x12 := by
  simp [State.statusWord, refuseCfgErr, acceptWord, hb]

theorem statusWord_beginCommand (w : Word) (s : State) : (beginCommand (acceptWord w s)).statusWord = 1 := by
  simp [State.statusWord, beginCommand, acceptWord]

/-- After a launch `STATUS` reads `BUSY` alone, or `DONE` with one error flag. -/
theorem statusWord_of_launch {w : Word} {s t : State} (h : launch w s = .next t) :
    t.statusWord = 1 ∨ t.statusWord = 0x0A ∨ t.statusWord = 0x12 := by
  rcases launch_cases w s with ⟨-, e⟩ | ⟨hb, -, e⟩ | ⟨hb, -, -, e⟩ | ⟨-, -, -, -, e⟩ | ⟨-, -, e⟩ <;>
    rw [e] at h <;> cases h
  · exact .inr (.inl (statusWord_refuseCmdErr hb w))
  · exact .inr (.inr (statusWord_refuseCfgErr hb w))
  · exact .inl (statusWord_beginCommand w s)

/-- Settles O22: a write of `CMD` is the launch, whose checks decide in this order. -/
theorem launchDecidesInOrder : Obligations.LaunchDecidesInOrder := by
  unfold Obligations.LaunchDecidesInOrder
  intro s w
  rw [hostWrite_cmd]
  exact ⟨fun hb => launch_of_busy hb w, launch_of_reserved, launch_of_unconfigured,
    fun hb hr hc hp => launch_of_ready hr ((ready_iff s).mpr ⟨hb, hc, hp⟩), rfl, fun _ => statusWord_of_launch⟩

theorem runCommand_of_busy {s : State} (hb : s.busy = true) (w : Word) (body : State → Out) :
    runCommand w body s = .fault .reentrantLaunch := by
  simp [runCommand, launch_of_busy hb]

/-- Settles O25: a reserved word is its launch, a command begins with its own. -/
theorem reentrantLaunchFaults : Obligations.ReentrantLaunchFaults := by
  unfold Obligations.ReentrantLaunchFaults
  intro s i hi hb
  cases hc : i.isCommand with
  | true =>
    obtain ⟨-, body, he⟩ := exec_eq_runCommand hc
    rw [he, runCommand_of_busy hb]
  | false =>
    obtain ⟨w, he⟩ := exec_eq_launch_of_not_command hi hc
    rw [he, launch_of_busy hb]

/-! ## Completion -/

/-- The last micro-operation of `STOP` releases the data line and completes the command. -/
theorem engineTurn_last_of_stop {s : State} (hb : s.busy = true) (hp : s.pinsTaken = false) (hph : s.phase = .stopp)
    (hprim : s.prim = .stop) (hu : s.ustep = 4) : engineTurn s = .next (completeCommand (sdaHi s)) := by
  have huop : s.uopAt = some .sdaHi := by simp [State.uopAt, hph, hprim, hu, primSeq]
  rw [engineTurn_of_uopAt hb hp huop]
  simp [afterUop, doUop, hprim, hu, primSeq, endPhase, hph]

/-- Settles O44: `SDA_HI` moves the latch alone, and completion only `BUSY`, `DONE` and the position, beside the datapath
registers. -/
theorem completionInLastMicroOperationOfStop : Obligations.CompletionInLastMicroOperationOfStop := by
  unfold Obligations.CompletionInLastMicroOperationOfStop
  intro s hb hp hph hprim hu
  have houtside : sameOutside s (completeCommand (sdaHi s)) :=
    sameOutside_trans (sameOutside_doUop .sdaHi s) (moved_completeCommand (sdaHi s)).outside
  exact ⟨_, engineTurn_last_of_stop hb hp hph hprim hu, rfl, rfl, rfl, rfl, rfl, rfl, rfl, rfl, rfl, rfl, rfl, rfl,
    houtside, rfl⟩

/-! ## Register reads -/

theorem hostRead_of_readable {s : State} {idx : Nat} (h : s.busy = false ∨ idx = 5) :
    hostRead idx s = .next { s with hRdata := s.hostReg idx } := by
  rcases h with hb | rfl
  · simp [hostRead, hb]
  · simp [hostRead]

theorem hostRead_of_busy {s : State} {idx : Nat} (hb : s.busy = true) (hidx : idx ≠ 5) :
    hostRead idx s = .fault (busyReadFault idx) := by
  simp [hostRead, hb, hidx]

theorem busyReadFault_of_ne {idx : Nat} (h : idx ≠ 6) : busyReadFault idx = .regReadWhileBusy := if_neg h

theorem hostReg_of_reserved (s : State) {idx : Nat} (h : 7 ≤ idx) : s.hostReg idx = 0 := by
  obtain ⟨k, rfl⟩ := Nat.exists_eq_add_of_le' h
  rfl

/-- A flag appended below the bits of `x`. -/
theorem toNat_append_ofBool {n : Nat} (x : BitVec n) (b : Bool) :
    (x ++ BitVec.ofBool b).toNat = 2 * x.toNat + b.toNat := by
  rw [BitVec.toNat_append, BitVec.toNat_ofBool, ← Nat.shiftLeft_add_eq_or_of_lt (Bool.toNat_lt b), Nat.shiftLeft_eq,
    Nat.pow_one, Nat.mul_comm]

/-- The flags of `STATUS` by their weights (`10_state.md` R36). -/
theorem toNat_statusWord (s : State) : s.statusWord.toNat =
    s.busy.toNat + 2 * s.done.toNat + 4 * s.ackfail.toNat + 8 * s.cmderr.toNat + 16 * s.cfgerr.toNat := by
  have h : s.statusWord.toNat =
      2 * (2 * (2 * (2 * (2 * 0 + s.cfgerr.toNat) + s.cmderr.toNat) + s.ackfail.toNat) + s.done.toNat) + s.busy.toNat := by
    simp only [State.statusWord, toNat_append_ofBool, BitVec.toNat_zero]
  omega

/-- Settles O54: the fields stand in their places below zero bits. -/
theorem hostReadReturnsRegister : Obligations.HostReadReturnsRegister := by
  unfold Obligations.HostReadReturnsRegister
  intro s idx
  exact ⟨hostRead_of_readable, fun hb hidx => ⟨_, hostRead_of_busy hb hidx⟩, toNat_two_bytes _ _, toNat_low16 _,
    toNat_low8 _, rfl, toNat_low16 _, toNat_statusWord s, toNat_low16 _, hostReg_of_reserved s⟩

/-! ## Register writes -/

theorem hostWrite_of_idle {s : State} {idx : Nat} (hb : s.busy = false) (hidx : idx ≠ 3) (v : Word) :
    hostWrite idx v s = .next (storeHostReg idx v s) := by
  simp [hostWrite, hb, hidx]

theorem hostWrite_of_busy {s : State} (hb : s.busy = true) (idx : Nat) (v : Word) :
    hostWrite idx v s = .fault (busyWriteFault idx) := by
  simp [hostWrite, hb]

theorem storeHostReg_of_ge {idx : Nat} (h : 5 ≤ idx) (v : Word) (s : State) : storeHostReg idx v s = s := by
  obtain ⟨k, rfl⟩ := Nat.exists_eq_add_of_le' h
  rfl

theorem busyWriteFault_of_ge {idx : Nat} (h : 5 ≤ idx) : busyWriteFault idx = .regWriteWhileBusy := by
  obtain ⟨k, rfl⟩ := Nat.exists_eq_add_of_le' h
  rfl

@[simp] theorem storeHostReg_pinsIdle (idx : Nat) (v : Word) (s : State) :
    (storeHostReg idx v s).pinsIdle = s.pinsIdle := by
  unfold storeHostReg
  split <;> rfl

theorem pullsLow_of_pinsIdle {s : State} (h : s.pinsIdle = true) (p : Nat) : s.pullsLow p = false := by
  obtain ⟨hscl, hsda, hdir⟩ := (pinsIdle_iff s).mp h
  simp [State.pullsLow, State.sclEff, hscl, sdaEff_of_out hdir, hsda]

theorem eq_storeHostReg_of_hostWrite {s t : State} {idx : Nat} {v : Word} (hb : s.busy = false) (hidx : idx ≠ 3)
    (h : hostWrite idx v s = .next t) : t = storeHostReg idx v s := by
  rw [hostWrite_of_idle hb hidx] at h
  cases h
  rfl

/-- Settles O55: the fields read back below zero bits, and no write moves the pins. -/
theorem hostWriteStoresNamedFields : Obligations.HostWriteStoresNamedFields := by
  unfold Obligations.HostWriteStoresNamedFields
  intro s v hb
  have hstore : ∀ idx, idx ≠ 3 → hostWrite idx v s = .next (storeHostReg idx v s) :=
    fun _ hidx => hostWrite_of_idle hb hidx v
  refine ⟨hstore 0 (by decide), hstore 1 (by decide), hstore 2 (by decide), hstore 4 (by decide), fun idx hidx => ?_,
    fun t h => ?_, fun t h => ?_, fun t h => ?_, fun t h => ?_, fun hidle idx t p hidx h => ?_⟩
  · rw [hstore idx (by omega), storeHostReg_of_ge hidx]
  · rw [eq_storeHostReg_of_hostWrite hb (by decide) h]; exact two_bytes_eq_and v
  · rw [eq_storeHostReg_of_hostWrite hb (by decide) h]; exact low16_eq_and v
  · rw [eq_storeHostReg_of_hostWrite hb (by decide) h]; exact low8_eq_and v
  · rw [eq_storeHostReg_of_hostWrite hb (by decide) h]; exact low16_eq_and v
  · rw [eq_storeHostReg_of_hostWrite hb hidx h]
    exact ⟨pullsLow_of_pinsIdle hidle p, pullsLow_of_pinsIdle (by rw [storeHostReg_pinsIdle, hidle]) p⟩

/-- Settles O56: each busy access is its fault; `STATUS` alone can be read. -/
theorem busyHostAccessFaults : Obligations.BusyHostAccessFaults := by
  unfold Obligations.BusyHostAccessFaults
  intro s v i b hb
  have hwrite : ∀ idx, hostWrite idx v s = .fault (busyWriteFault idx) := fun idx => hostWrite_of_busy hb idx v
  exact ⟨hwrite 0, hwrite 1, hwrite 2, hwrite 3, hwrite 4, fun idx hidx => by rw [hwrite, busyWriteFault_of_ge hidx],
    txWrite_of_busy hb i b, rxRead_of_busy hb i, hostRead_of_busy hb (by decide),
    fun idx h5 h6 => by rw [hostRead_of_busy hb h5, busyReadFault_of_ne h6], hostRead_of_readable (.inr rfl)⟩

end Sys2Proof.Machine
end

section
/-! PROOFS. Family 44_client_contracts: the sensor client's conversions (O60). Both read the same 16-bit word, whose value
is stated once. -/

namespace Sys2Proof.Machine

theorem toNat_append_byte {n : Nat} (x : BitVec n) (b : Byte) : (x ++ b).toNat = 256 * x.toNat + b.toNat := by
  rw [BitVec.toNat_append, ← Nat.shiftLeft_add_eq_or_of_lt b.isLt, Nat.shiftLeft_eq, Nat.mul_comm]

/-- The sign bit of the word is the top bit of its high byte (`44_client_contracts.md` R221). -/
theorem shuntMicrovolts_eq (hi lo : Byte) : shuntMicrovolts hi lo =
    (if 128 ≤ hi.toNat then (256 * hi.toNat + lo.toNat : Int) - 65536 else (256 * hi.toNat + lo.toNat : Int)) * 10 := by
  have hlo : lo.toNat < 256 := lo.isLt
  rw [shuntMicrovolts, BitVec.toInt_eq_toNat_cond, toNat_append_byte]
  by_cases hneg : 128 ≤ hi.toNat
  · rw [if_pos hneg, if_neg (by omega)]
    push_cast
    rfl
  · rw [if_neg hneg, if_pos (by omega)]
    push_cast
    rfl

/-- The top 13 bits are the word divided by 8 (`44_client_contracts.md` R222). -/
theorem busMillivolts_eq (hi lo : Byte) : busMillivolts hi lo = (256 * hi.toNat + lo.toNat) / 8 * 4 := by
  have hhi : hi.toNat < 256 := hi.isLt
  have hlo : lo.toNat < 256 := lo.isLt
  rw [busMillivolts, BitVec.extractLsb'_toNat, toNat_append_byte, Nat.shiftRight_eq_div_pow, Nat.mod_eq_of_lt (by omega)]

/-- Settles O60: the two conversions for all bytes, and the examples by evaluation. -/
theorem sensorConversions : Obligations.SensorConversions := by
  unfold Obligations.SensorConversions
  exact ⟨shuntMicrovolts_eq, busMillivolts_eq, rfl, rfl, rfl, rfl, rfl, rfl, rfl, rfl, rfl⟩

end Sys2Proof.Machine
end

section
/-! PROOFS. Family 60_exceptions: the engine at rest (O9), lines pulled by others (O26), and a slot that is not
acknowledged, one micro-operation at a time (O45) and in the whole command (O29, O32). -/

namespace Sys2Proof.Machine

/-- Settles O9: `BUSY` is the first thing an engine turn looks at. -/
theorem idleEngineDoesNothing : Obligations.IdleEngineDoesNothing := by
  unfold Obligations.IdleEngineDoesNothing
  intro s hb
  have hturn : engineTurn s = .next s := if_pos hb
  exact ⟨hturn, fun ha => (step_of_agenda_nil ha).trans hturn⟩

/-! ## Lines pulled by others -/

theorem launch_of_pinsTaken {s : State} {w : Word} (hb : s.busy = false) (hr : cmdReserved w = false)
    (hc : s.cfgValid = true) (hp : s.pinsTaken = true) : launch w s = .fault .pinsDrivenByOthers := by
  simp [launch, hb, hr, hc, hp]

theorem runCommand_of_pinsTaken {s : State} {w : Word} (hb : s.busy = false) (hr : cmdReserved w = false)
    (hc : s.cfgValid = true) (hp : s.pinsTaken = true) (body : State → Out) :
    runCommand w body s = .fault .pinsDrivenByOthers := by
  simp [runCommand, launch_of_pinsTaken hb hr hc hp]

theorem engineTurn_of_pinsTaken {s : State} (hb : s.busy = true) (hp : s.pinsTaken = true) :
    engineTurn s = .fault .pinsDrivenByOthers := by
  simp [engineTurn, hb, hp]

/-- The lines pulled by others once `p` is among them. -/
def pulledLines (p : Nat) (s : State) : List Nat := p :: s.extPull.filter (· != p)

theorem mem_pulledLines {p q : Nat} {s : State} : q ∈ pulledLines p s ↔ q = p ∨ q ∈ s.extPull := by
  by_cases hq : q = p <;> simp [pulledLines, hq]

theorem pullLine_eq (p : Nat) (s : State) : pullLine p s =
    if s.busy && State.pinsTaken { s with extPull := pulledLines p s } then .fault .pinsDrivenByOthers
    else .next { s with extPull := pulledLines p s } := rfl

theorem pinsTaken_iff (s : State) : s.pinsTaken = true ↔ s.sclPin.toNat ∈ s.extPull ∨ s.sdaPin.toNat ∈ s.extPull := by
  simp [State.pinsTaken]

/-- A pull takes the engine's pins if it is of one of them, or they were taken before. -/
theorem pinsTaken_pulled (p : Nat) (s : State) : State.pinsTaken { s with extPull := pulledLines p s } = true ↔
    (p = s.sclPin.toNat ∨ p = s.sdaPin.toNat) ∨ s.pinsTaken = true := by
  simp only [pinsTaken_iff, mem_pulledLines, eq_comm (b := p)]
  tauto

theorem pullLine_of_engineLine {s : State} {p : Nat} (hb : s.busy = true) (h : p = s.sclPin.toNat ∨ p = s.sdaPin.toNat) :
    pullLine p s = .fault .pinsDrivenByOthers := by
  rw [pullLine_eq, if_pos (Bool.and_eq_true_iff.mpr ⟨hb, (pinsTaken_pulled p s).mpr (.inl h)⟩)]

theorem pullLine_of_harmless {s : State} {p : Nat}
    (h : s.busy = false ∨ (p ≠ s.sclPin.toNat ∧ p ≠ s.sdaPin.toNat ∧ s.pinsTaken = false)) :
    pullLine p s = .next { s with extPull := pulledLines p s } := by
  rw [pullLine_eq, if_neg]
  intro hfault
  obtain ⟨hb, htaken⟩ := Bool.and_eq_true_iff.mp hfault
  rcases h with hidle | ⟨hscl, hsda, hfree⟩
  · simp [hidle] at hb
  · simp [pinsTaken_pulled, hscl, hsda, hfree] at htaken

theorem mem_extPull_releaseLine {p q : Nat} {s : State} : q ∈ (releaseLine p s).extPull ↔ q ≠ p ∧ q ∈ s.extPull := by
  simp [releaseLine, and_comm]

/-- Settles O26: the launch and the engine turn look at the lines pulled, and a pull at those it leaves. -/
theorem linesDrivenByOthersFault : Obligations.LinesDrivenByOthersFault := by
  unfold Obligations.LinesDrivenByOthersFault
  refine ⟨fun s i hi hb hc hp => ?_, fun s w hb hr hc hp => ?_, fun s => engineTurn_of_pinsTaken,
    fun s p => pullLine_of_engineLine, fun s p h => ⟨_, pullLine_of_harmless h, fun q => mem_pulledLines⟩,
    fun s p => ⟨_, rfl, fun q => mem_extPull_releaseLine⟩⟩
  · obtain ⟨hr, body, he⟩ := exec_eq_runCommand hi
    rw [he, runCommand_of_pinsTaken hb hr hc hp]
  · rw [hostWrite_cmd, launch_of_pinsTaken hb hr hc hp]

/-! ## A failed acknowledge, one micro-operation at a time -/

/-- The last micro-operation of `WACK` restores the direction, and the phase ends. -/
theorem engineTurn_last_of_wack {s : State} (hb : s.busy = true) (hp : s.pinsTaken = false) (hph : s.phase ≠ .idle)
    (hprim : s.prim = .wack) (hu : s.ustep = 8) : engineTurn s = endPhase (dirOut s) := by
  have huop : s.uopAt = some .dirOut := by simp [State.uopAt, hph, hprim, hu, primSeq]
  rw [engineTurn_of_uopAt hb hp huop]
  simp [afterUop, doUop, hprim, hu, primSeq]

/-- Out of every `ACK` phase there is an abort edge (`42_transactions.md` R178). -/
theorem endPhase_of_nack {s : State} (hack : s.ackbit = false)
    (h : s.phase = .ackAddrw ∨ s.phase = .ackReghi ∨ s.phase = .ackReglo ∨ s.phase = .ackWdata ∨ s.phase = .ackAddrr) :
    endPhase s = .next (enterAbort s) := by
  rcases h with h | h | h | h | h <;> simp [endPhase, h, hack]

/-- Settles O45: the last micro-operation of `WACK`, then the abort edge. -/
theorem failedAcknowledgeEntersStop : Obligations.FailedAcknowledgeEntersStop := by
  unfold Obligations.FailedAcknowledgeEntersStop
  intro s hb hp hprim hu hack hph
  have hbusy : s.phase ≠ .idle := fun hidle => by simp [hidle] at hph
  rw [engineTurn_last_of_wack hb hp hbusy hprim hu, endPhase_of_nack (s := dirOut s) hack hph]
  rfl

/-! ## Aborted commands -/

/-- The command launched in `s` with the word `w` has gone through the micro-operations `tr`, the last of which sent a
byte; that byte was not acknowledged in `N` samples, and the command ended by the abort path (`60_exceptions.md` R232). -/
def AbortsAfter (w : Word) (s : State) (o : Out) (tr : List Tok) : Prop :=
  ∃ t, o = .next t ∧ t.ackfail = true ∧ endedWith w t ∧ sameOutside s t ∧ t.rxmem = s.rxmem ∧ t.rxCount = 0 ∧
    t.trace = s.trace ++ (tr ++ nackToks s.retryN.toNat ++ stopToks)

theorem abortsAfter_of_went {w : Word} {s : State} {o : Out} {tr : List Tok}
    (h : ∃ u n, o = .next (abortCommand u) ∧ Went (afterStart w s) u (tr ++ nackToks s.retryN.toNat) n) :
    AbortsAfter w s o (startToks ++ tr) := by
  obtain ⟨u, n, hgo, hwent⟩ := h
  obtain ⟨hfail, hend, hout, hmem, hcount, -, -, htr⟩ := abortCommand_of_went hwent
  exact ⟨_, hgo, hfail, hend, hout, hmem, hcount, by simpa using htr⟩

/-- Only as many elements are paired as the other list has. -/
theorem zip_take_length {α β : Type} (l : List α) (l' : List β) : (l.take l'.length).zip l' = l.zip l' := by
  induction l' generalizing l with
  | nil => simp
  | cons y l' ih =>
    cases l with
    | nil => rfl
    | cons x l => simp [ih]

/-- A slot whose samples, come to by the micro-operations `tr`, all read 1. -/
theorem Went.slot_nack {s t : State} {tr : List Tok} {n : Nat} {b : Byte} (h : Went s t tr n) (c : State → Out)
    (hN : 1 ≤ s.retryN.toNat) (hw : t.willAnswer (List.replicate s.retryN.toNat true)) :
    ∃ u m, sendByte b c t = .next (abortCommand u) ∧ Went s u (tr ++ byteToks b ++ nackToks s.retryN.toNat) m := by
  have hones : ∀ i < s.retryN.toNat, t.envAt i = true := fun i hi => by
    rw [willAnswer_iff.mp hw i (by simpa using hi), List.getElem_replicate]
  rw [← h.retryN] at hN hones
  obtain ⟨u, hgo, hwent, -⟩ := sendByte_nack (b := b) c hN hones
  rw [h.retryN] at hwent
  exact ⟨u, _, hgo, by rw [List.append_assoc]; exact h.trans hwent⟩

section
variable {s : State} {ks : List Nat} {b : Byte} (hN : 1 ≤ s.retryN.toNat) (hp : s.pollsOk ks)
  (hw : s.willAnswer (ackAnswers ks ++ List.replicate s.retryN.toNat true))
include hN hp hw

/-- The payload of a write whose first unacknowledged byte has been written, as have those before it. -/
theorem writeData_of_failed {bs : List Byte} (hd : s.sdaDir = .out) (hlen : bs.length ≤ s.nBytes.toNat) (hbs : s.holds bs)
    (hb : bs[ks.length]? = some b) : ∃ u n, writeData s = .next (abortCommand u) ∧
      Went s u (slotsToks (bs.zip ks) ++ byteToks b ++ nackToks s.retryN.toNat) n := by
  obtain ⟨hj, hbj⟩ := List.getElem?_eq_some_iff.mp hb
  have hlt := s.nBytes.isLt
  obtain ⟨r, hr⟩ : ∃ r, s.nBytes.toNat = (bs.take ks.length).length + (r + 1) :=
    ⟨s.nBytes.toNat - ks.length - 1, by simp; omega⟩
  obtain ⟨t, hgo, hwent, hw', hcount⟩ := writePayload_ack (s := clearBytecnt s) (bs := bs.take ks.length) (r := r + 1) hd
    (by simp; omega) hp hw (fun i hi => by simpa [clearBytecnt] using hbs i (by simp at hi; omega))
    (by simp [clearBytecnt]; omega)
  have hbyte : t.txByte = some b := by
    rw [State.txByte, hwent.txmem, hcount]
    simpa [clearBytecnt, hj.le, hbj] using hbs ks.length hj
  rw [zip_take_length] at hwent
  obtain ⟨u, m, hgo', hwent'⟩ := hwent.slot_nack (b := b) (fun t => writePayload r (countByte t)) hN hw'
  exact ⟨u, m, by rw [writeData, hr, hgo, writePayload, hbyte]; exact hgo', { hwent' with }⟩

/-- The same once the slots of address and register, `pre`, are to be sent before the payload: the failing slot is one of
these, or of the payload. -/
theorem sendAll_writeData_of_failed {pre bs : List Byte} (hne : pre ≠ []) (hlen : bs.length ≤ s.nBytes.toNat)
    (hbs : s.holds bs) (hb : (pre ++ bs)[ks.length]? = some b) :
    ∃ u n, sendAll pre writeData s = .next (abortCommand u) ∧
      Went s u (slotsToks ((pre ++ bs).zip ks) ++ byteToks b ++ nackToks s.retryN.toNat) n := by
  rcases lt_or_ge ks.length pre.length with hlt | hge
  · rw [List.getElem?_append_left hlt] at hb
    rw [← zip_take_length, List.take_append_of_le_length hlt.le, zip_take_length]
    exact sendAll_nack writeData hN hb hp hw
  · obtain ⟨ks₁, ks₂, rfl, hl₁⟩ : ∃ ks₁ ks₂, ks = ks₁ ++ ks₂ ∧ ks₁.length = pre.length :=
      ⟨ks.take pre.length, ks.drop pre.length, (List.take_append_drop ..).symm, by simp; omega⟩
    obtain ⟨hp₁, hp₂⟩ := pollsOk_append hp
    rw [ackAnswers_append, List.append_assoc] at hw
    rw [List.getElem?_append_right hge, List.length_append, hl₁, Nat.add_sub_cancel_left] at hb
    obtain ⟨t, hgo, hwent, hw₂⟩ := sendAll_ack writeData hne hl₁ hp₁ hw
    rw [← hwent.retryN] at hN hw₂
    obtain ⟨u, n, hgo', hwent'⟩ := writeData_of_failed hN (hp₂.of_went hwent) hw₂ hwent.dir
      (by rw [hwent.nBytes]; exact hlen) (hbs.of_went hwent) hb
    rw [hwent.retryN] at hwent'
    rw [List.zip_append hl₁.symm, slotsToks_append]
    exact ⟨u, _, hgo.trans hgo', by simpa only [List.append_assoc] using hwent.trans hwent'⟩

/-- The turnaround and the repeated start of a read are gone through, and its address+read slot fails. -/
theorem sendAll_readData_of_failed {pre : List Byte} (dev : DevAddr) (hne : pre ≠ []) (hl : ks.length = pre.length) :
    ∃ u n, sendAll pre (readData dev) s = .next (abortCommand u) ∧
      Went s u (slotsToks (pre.zip ks) ++ ([.w] ++ startToks) ++ byteToks (adb dev true) ++ nackToks s.retryN.toNat) n := by
  obtain ⟨t, hgo, hwent, hw'⟩ := sendAll_ack (readData dev) hne hl hp hw
  have hrestart := went_restart hwent.dir
  obtain ⟨u, m, hgo', hwent'⟩ := (hwent.trans hrestart).slot_nack (b := adb dev true)
    (fun t => .next (readPayload t.nBytes.toNat (clearBytecnt t))) hN (hrestart.willAnswer (l := []) hw')
  exact ⟨u, m, hgo.trans hgo', hwent'⟩

end

/-- Settles O29: the failing slot is one of the address and the register, or of the payload. -/
theorem writeAbortsAtFailedSlot : Obligations.WriteAbortsAtFailedSlot := by
  unfold Obligations.WriteAbortsAtFailedSlot
  intro s dev reg bs ks h hlen hbs hp hw
  have hN := retryN_pos_of_ready h
  rw [exec_wr8_of_ready h, exec_wr16_of_ready h]
  have haborts : ∀ (w : Word) (pre : List Byte), pre ≠ [] → ∀ b, (pre ++ bs)[ks.length]? = some b →
      AbortsAfter w s (sendAll pre writeData (afterStart w s))
        (startToks ++ slotsToks ((pre ++ bs).zip ks) ++ byteToks b) := fun w pre hne b hb => by
    rw [List.append_assoc]
    exact abortsAfter_of_went (sendAll_writeData_of_failed (s := afterStart w s) hN hp (willAnswer_afterStart hw) hne
      hlen hbs hb)
  exact ⟨haborts _ [adb dev false, regLo reg] (by simp), haborts _ [adb dev false, regHi reg, regLo reg] (by simp)⟩

/-- Settles O32: the failing slot is one of those that select the register, or the one after the repeated start. -/
theorem readAbortsInAddressing : Obligations.ReadAbortsInAddressing := by
  unfold Obligations.ReadAbortsInAddressing
  intro s dev reg ks h hp hw
  have hN := retryN_pos_of_ready h
  dsimp only
  rw [exec_rd8_of_ready h, exec_rd16_of_ready h]
  have hselect : ∀ (w : Word) (pre : List Byte) (b : Byte), pre[ks.length]? = some b →
      AbortsAfter w s (sendAll pre (readData dev) (afterStart w s))
        (startToks ++ slotsToks (pre.zip ks) ++ byteToks b) := fun w pre b hb => by
    rw [List.append_assoc]
    exact abortsAfter_of_went (sendAll_nack (s := afterStart w s) (readData dev) hN hb hp (willAnswer_afterStart hw))
  have haddress : ∀ (w : Word) (pre : List Byte), pre ≠ [] → ks.length = pre.length →
      AbortsAfter w s (sendAll pre (readData dev) (afterStart w s))
        (startToks ++ slotsToks (pre.zip ks) ++ [.w] ++ startToks ++ byteToks (adb dev true)) := fun w pre hne hl => by
    have hfail := abortsAfter_of_went (sendAll_readData_of_failed (s := afterStart w s) hN hp (willAnswer_afterStart hw)
      dev hne hl)
    simpa only [List.append_assoc] using hfail
  exact ⟨hselect _ [adb dev false, regLo reg], haddress _ [adb dev false, regLo reg] (by simp),
    hselect _ [adb dev false, regHi reg, regLo reg], haddress _ [adb dev false, regHi reg, regLo reg] (by simp)⟩

end Sys2Proof.Machine
end

section
/-! PROOFS. Family 70_reset_and_hazards: `rst_n` at any time (O58). The engine's registers after it do not depend on the
state before; both pins of the configuration are then line 0. -/

namespace Sys2Proof.Machine

/-- Two equal pins are no configuration (`10_state.md` R39). -/
theorem cfgValid_of_pins_eq {s : State} (h : s.sclPin = s.sdaPin) : s.cfgValid = false := by
  simp [State.cfgValid, h]

/-- `rst_n` leaves the pins idle, whatever the command under way held low. -/
theorem pinsIdle_resetEngine (s : State) : (resetEngine s).pinsIdle = true := rfl

/-- None of the five flags is set: the command under way is neither `BUSY` nor `DONE`. -/
theorem statusWord_resetEngine (s : State) : (resetEngine s).statusWord = 0 := by
  have hreset : (resetEngine s).statusWord = State.reset.statusWord := rfl
  rw [hreset]
  rfl

/-- A write of `CMD` straight after `rst_n` finds no configuration, unless its word is reserved (`10_state.md` R42). -/
theorem hostWrite_cmd_resetEngine {w : Word} (hr : cmdReserved w = false) (s : State) :
    hostWrite 3 w (resetEngine s) = .next (refuseCfgErr (acceptWord w (resetEngine s))) := by
  rw [hostWrite_cmd]
  exact launch_of_unconfigured rfl hr (cfgValid_of_pins_eq rfl)

/-- Settles O58: the step is `resetEngine`, which puts every register at a fixed value and lists no token; idle pins pull no
line, and the launch is refused for its configuration. -/
theorem resetAbandonsCommand : Obligations.ResetAbandonsCommand := by
  unfold Obligations.ResetAbandonsCommand
  intro s rest ha
  have hpulls := pullsLow_of_pinsIdle (pinsIdle_resetEngine { s with agenda := rest })
  exact ⟨_, step_of_agenda_cons ha, rfl, rfl, statusWord_resetEngine _, rfl, pinsIdle_resetEngine _,
    rfl, rfl, rfl, rfl, rfl, rfl, rfl, rfl, rfl, rfl, hpulls, rfl,
    fun w hr => ⟨_, hostWrite_cmd_resetEngine hr _, statusWord_refuseCfgErr rfl w⟩⟩

end Sys2Proof.Machine
end
